-- ==== Sys2Proof/Word.lean ====
section
/-! DEFINITION. The word types of ZCORE and their plainest arithmetic (spec 00_scope.md R12, R14). -/

namespace Sys2Proof

/-- One 64-bit word: what a host transaction moves (20_memory.md R80). -/
abbrev Word := BitVec 64

/-- The 64-bit pattern of an IEEE-754 binary64 value, `f64bits(x)` (00_scope.md R14). -/
abbrev F64 := BitVec 64

/-- A complex sample: a pair of binary64 values (00_scope.md R14). -/
structure C64 where
  re : F64
  im : F64
deriving DecidableEq, Repr, Inhabited

/-- `(+0.0, +0.0)`. -/
def C64.zero : C64 := ⟨0, 0⟩

/-- One bit as a natural number. -/
def bitNat (b : Bool) : Nat := if b then 1 else 0

end Sys2Proof
end

