-- ==== Sys2Proof/Syntax.lean ====
section
/-! DEFINITION. The eight commands of ZCORE, one constructor per row of the opcode map (30_encoding.md R113). -/

namespace Sys2Proof

/-- A command. A slot number and a peak index are unsigned indices (30_encoding.md R115); `WellFormed` bounds them by
the widths of their fields. -/
inductive Instr
  /-- `NOP` (40_fft.md R131). -/
  | nop
  /-- `PLAN` (40_fft.md R132). -/
  | plan
  /-- `FFT` (40_fft.md R136). -/
  | fft
  /-- `PEAKS` (44_peak_detector.md R221). -/
  | peaks
  /-- `CTXINIT s, p` (41_mixer_accumulator.md R151). -/
  | ctxinit (slot peak : Nat)
  /-- `ACCUM s, p` (41_mixer_accumulator.md R154). -/
  | accum (slot peak : Nat)
  /-- `DECODE s` (42_slicer_mfm.md R171). -/
  | decode (slot : Nat)
  /-- `CTXFREE s` (41_mixer_accumulator.md R160). -/
  | ctxfree (slot : Nat)
deriving DecidableEq, Repr

end Sys2Proof
end

