-- ==== Sys2Proof/WellFormed.lean ====
section
/-! DEFINITION. When a command's operands fit the fields of the command word (30_encoding.md R111). -/

namespace Sys2Proof

/-- The slot number fits bits 23:16 (30_encoding.md R111). -/
abbrev slotFits (s : Nat) : Prop := s < 2 ^ 8

/-- The peak index fits bits 15:0 (30_encoding.md R111). -/
abbrev peakFits (p : Nat) : Prop := p < 2 ^ 16

/-- Every operand fits its field of the command word. The checks against `NSLOTS` and `NPEAKS` are made at execution,
not here (30_encoding.md R115). -/
def Instr.wellFormed : Instr → Bool
  | .nop => true
  | .plan => true
  | .fft => true
  | .peaks => true
  | .ctxinit s p => decide (slotFits s) && decide (peakFits p)
  | .accum s p => decide (slotFits s) && decide (peakFits p)
  | .decode s => decide (slotFits s)
  | .ctxfree s => decide (slotFits s)

/-- The checks of `Instr.wellFormed` as a proposition. -/
abbrev Instr.WellFormed (i : Instr) : Prop := i.wellFormed = true

end Sys2Proof
end

