-- ==== Sys2Proof/Decode.lean ====
section
/-! DEFINITION. Decoding a command word, the encoder, and the opcode map (30_encoding.md R110 to R117). -/

namespace Sys2Proof

/-- Why a command word is illegal (30_encoding.md R116). -/
inductive DecodeError
  /-- The opcode is none of the eight. -/
  | unknownOpcode (op : Nat)
  /-- A field the format does not use is not zero. -/
  | unusedFieldNotZero (op : Nat)
deriving DecidableEq, Repr

/-- Field `op`, bits 31:24 (30_encoding.md R111). -/
def opField (c : BitVec 32) : Nat := (c.extractLsb' 24 8).toNat

/-- Field `slot`, bits 23:16 (30_encoding.md R111). -/
def slotField (c : BitVec 32) : Nat := (c.extractLsb' 16 8).toNat

/-- Field `peak`, bits 15:0 (30_encoding.md R111). -/
def peakField (c : BitVec 32) : Nat := (c.extractLsb' 0 16).toNat

/-- Format Z: no operand, both fields zero (30_encoding.md R112). -/
def formatZ (c : BitVec 32) (i : Instr) : Except DecodeError Instr :=
  if slotField c = 0 ∧ peakField c = 0 then .ok i else .error (.unusedFieldNotZero (opField c))

/-- Format S: a slot operand, the peak field zero (30_encoding.md R112). -/
def formatS (c : BitVec 32) (f : Nat → Instr) : Except DecodeError Instr :=
  if peakField c = 0 then .ok (f (slotField c)) else .error (.unusedFieldNotZero (opField c))

/-- Format SP: slot and peak operands (30_encoding.md R112). -/
def formatSP (c : BitVec 32) (f : Nat → Nat → Instr) : Except DecodeError Instr :=
  .ok (f (slotField c) (peakField c))

/-- The decoder (30_encoding.md R113, R116): total, and every illegal word is rejected by name. -/
def decode (c : BitVec 32) : Except DecodeError Instr :=
  match opField c with
  | 0x00 => formatZ c .nop
  | 0x01 => formatZ c .plan
  | 0x02 => formatZ c .fft
  | 0x03 => formatZ c .peaks
  | 0x10 => formatSP c .ctxinit
  | 0x11 => formatSP c .accum
  | 0x12 => formatS c .decode
  | 0x13 => formatS c .ctxfree
  | op => .error (.unknownOpcode op)

/-- `op << 24 | s << 16 | p` (30_encoding.md R117). -/
def commandWord (op s p : Nat) : BitVec 32 :=
  BitVec.ofNat 8 op ++ BitVec.ofNat 8 s ++ BitVec.ofNat 16 p

/-- The encoder (30_encoding.md R111 to R113, R117). -/
def encode : Instr → BitVec 32
  | .nop => commandWord 0x00 0 0
  | .plan => commandWord 0x01 0 0
  | .fft => commandWord 0x02 0 0
  | .peaks => commandWord 0x03 0 0
  | .ctxinit s p => commandWord 0x10 s p
  | .accum s p => commandWord 0x11 s p
  | .decode s => commandWord 0x12 s 0
  | .ctxfree s => commandWord 0x13 s 0

/-- One row of the opcode map: a word `c` selects it when `c and mask = match` (30_encoding.md R113). -/
structure OpcodeRow where
  mnemonic : String
  pattern : BitVec 32
  mask : BitVec 32
deriving DecidableEq, Repr

/-- The opcode map of 30_encoding.md R113. -/
def opcodeMap : List OpcodeRow :=
  [ ⟨"NOP", 0x00000000#32, 0xFFFFFFFF#32⟩,
    ⟨"PLAN", 0x01000000#32, 0xFFFFFFFF#32⟩,
    ⟨"FFT", 0x02000000#32, 0xFFFFFFFF#32⟩,
    ⟨"PEAKS", 0x03000000#32, 0xFFFFFFFF#32⟩,
    ⟨"CTXINIT", 0x10000000#32, 0xFF000000#32⟩,
    ⟨"ACCUM", 0x11000000#32, 0xFF000000#32⟩,
    ⟨"DECODE", 0x12000000#32, 0xFF00FFFF#32⟩,
    ⟨"CTXFREE", 0x13000000#32, 0xFF00FFFF#32⟩ ]

/-- A word selects a row (30_encoding.md R113). -/
def OpcodeRow.selects (r : OpcodeRow) (c : BitVec 32) : Bool := c &&& r.mask == r.pattern

/-- The mnemonic of a command (30_encoding.md R113). -/
def Instr.mnemonic : Instr → String
  | .nop => "NOP"
  | .plan => "PLAN"
  | .fft => "FFT"
  | .peaks => "PEAKS"
  | .ctxinit _ _ => "CTXINIT"
  | .accum _ _ => "ACCUM"
  | .decode _ => "DECODE"
  | .ctxfree _ => "CTXFREE"

/-- The assembler line of a command (30_encoding.md R117). -/
def Instr.asm : Instr → String
  | .nop => "NOP"
  | .plan => "PLAN"
  | .fft => "FFT"
  | .peaks => "PEAKS"
  | .ctxinit s p => "CTXINIT " ++ toString s ++ ", " ++ toString p
  | .accum s p => "ACCUM " ++ toString s ++ ", " ++ toString p
  | .decode s => "DECODE " ++ toString s
  | .ctxfree s => "CTXFREE " ++ toString s

/-- The instruction the decoder reads from a word numbered as the opcode table numbers it. Commands are one 32-bit
number and lie in no memory (30_encoding.md R110), so there is no byte layout to undo. -/
def decodeTableWord (nbits w : Nat) : Option Instr :=
  match decode (BitVec.ofNat 32 (w % 2 ^ nbits)) with
  | .ok i => some i
  | .error _ => none

end Sys2Proof
end

