-- ==== Sys2Proof/Config.lean ====
section
/-! DEFINITION. What the implementation fixes: the constants of 00_scope.md R9, the build parameters the state after
reset takes (R10), and the free values, constants without a body, for everything the spec leaves open. -/

namespace Sys2Proof.Config

/-- `BIT_RATE` (00_scope.md R9): symbols per second. -/
def bitRate : Nat := 500000

/-- `FRAME_BITS` (00_scope.md R9). -/
def frameBits : Nat := 256

/-- `FRAME_BYTES` (00_scope.md R9). -/
def frameBytes : Nat := 32

/-- `CRC_POLY` (00_scope.md R9). -/
def crcPoly : BitVec 16 := 0x1021#16

/-- `CRC_INIT` (00_scope.md R9). -/
def crcInit : BitVec 16 := 0x0000#16

/-- `PEAK_FLOOR = 500.0` as its binary64 pattern (00_scope.md R9, 10_state.md R43). -/
def peakFloor : F64 := 0x407F400000000000#64

/-- `DECODE_AFTER` (00_scope.md R9, 45_host_sequence.md R237): host policy. -/
def decodeAfter : Nat := 16

/-- `EVICT_AFTER` (00_scope.md R9, 45_host_sequence.md R237): host policy. -/
def evictAfter : Nat := 32

/-- The pattern of the binary64 nearest to pi (00_scope.md R20). -/
def pi64 : F64 := 0x400921FB54442D18#64

/-- The pattern of the binary64 nearest to 10^-6 (40_fft.md R132). -/
def tenM6 : F64 := 0x3EB0C6F7A0B5ED8D#64

/-- `LOG2_N_MAX` of the machine `State.reset` describes; any value 2 to 17 is legal (00_scope.md R10).
DESIGN CHOICE, log 1: 16, the value of the spec's own test vectors (95_test_vectors.md). -/
def log2NMaxAtReset : Nat := 16

/-- `NSLOTS` of the machine `State.reset` describes; any value 1 to 256 is legal (00_scope.md R10).
DESIGN CHOICE, log 1: 4, the value of the spec's own test vectors (95_test_vectors.md). -/
def nslotsAtReset : Nat := 4

/-- The real operations whose result can be a NaN (00_scope.md R15). -/
inductive FpOp
  | add
  | sub
  | mul
  | div
  | sqrt
deriving DecidableEq, Repr

/-- FREE VALUE, log 9: the pattern of the NaN an operation produces from its operands. The spec says only that NaNs
propagate by the IEEE rules (00_scope.md R24); `Sys2Proof.Machine.nanOf` keeps it a NaN. -/
opaque nanPattern : FpOp → F64 → F64 → F64

/-- FREE VALUE, log 8: cosine and sine of an angle that is not a zero (00_scope.md R20: the accuracy is left open).
`Sys2Proof.Machine.cisFree` keeps both NaNs at an angle that is not finite (R24). -/
opaque cis : F64 → C64

/-- FREE VALUE, log 8: the sign of the zero imaginary part of the exponential of a zero angle (00_scope.md R20). -/
opaque cisZeroSign : F64 → Bool

/-- FREE VALUE, log 7: element `k` of the transform of length `N` of a sequence with a non-zero component
(00_scope.md R22: any algorithm). It depends on the length and the sequence alone. `Sys2Proof.Machine.fftBin` keeps it
non-finite where a sample is (R24). -/
opaque fft : Nat → List C64 → Nat → C64

/-- FREE VALUE, log 7: the signs of the two zero components of element `k` of the transform of a sequence of zeros
(00_scope.md R22 b). -/
opaque fftZeroSigns : Nat → List C64 → Nat → Bool × Bool

/-- FREE VALUE, logs 4 and 5: an unspecified 64-bit value, by the index it is drawn under and the address it is read
at (10_state.md R64 to R68, 20_memory.md R82, 70_reset_and_hazards.md R291, R301). -/
opaque unspecifiedWord : Nat → Nat → Word

end Sys2Proof.Config
end

