-- ==== Sys2Proof/Machine/Float.lean ====
section
/-! DEFINITION. The real operations of 00_scope.md R15: IEEE-754 binary64, correctly rounded, ties to even, evaluated
exactly on naturals. Every finite binary64 value is a whole number of units of 2^-1074, so a sum is exact in units,
and a product, a quotient and a square root are rationals of units that one function rounds. -/

namespace Sys2Proof.Machine

/-- Bit 63: the sign (00_scope.md R14). -/
def fsign (x : F64) : Bool := x.getLsbD 63

/-- Bits 62:52: the biased exponent (00_scope.md R14). -/
def fexp (x : F64) : Nat := (x.extractLsb' 52 11).toNat

/-- Bits 51:0: the fraction (00_scope.md R14). -/
def ffrac (x : F64) : Nat := (x.extractLsb' 0 52).toNat

/-- Bits 62:0: the magnitude field, which orders the magnitudes of the values that are not NaNs. -/
def fmag (x : F64) : Nat := (x.extractLsb' 0 63).toNat

/-- A NaN: exponent all ones, fraction not zero. -/
def isNaN (x : F64) : Bool := fexp x == 2047 && ffrac x != 0

/-- An infinity: exponent all ones, fraction zero. -/
def isInf (x : F64) : Bool := fexp x == 2047 && ffrac x == 0

/-- Neither a NaN nor an infinity. -/
def isFinite (x : F64) : Bool := fexp x != 2047

/-- `+0` or `-0`. -/
def isZero (x : F64) : Bool := fmag x == 0

/-- The magnitude of a finite value in units of 2^-1074. -/
def funits (x : F64) : Nat :=
  if fexp x = 0 then ffrac x else (ffrac x + 2 ^ 52) * 2 ^ (fexp x - 1)

/-- The value of a finite pattern in units of 2^-1074, signed. -/
def fint (x : F64) : Int := if fsign x then -(funits x : Int) else (funits x : Int)

/-- A pattern from its sign and its magnitude field. -/
def fpack (sign : Bool) (mag : Nat) : F64 := BitVec.ofBool sign ++ BitVec.ofNat 63 mag

/-- An infinity of the given sign. -/
def finf (sign : Bool) : F64 := fpack sign (2047 * 2 ^ 52)

/-- A zero of the given sign. -/
def fzero (sign : Bool) : F64 := fpack sign 0

/-- A NaN made from a free pattern: the pattern itself when it is a NaN, else a fixed NaN (log 9). -/
def nanOf (p : F64) : F64 := if isNaN p then p else 0x7FF8000000000000#64

/-- The magnitude field of the binary64 nearest to `n / d` units of 2^-1074, ties to even (00_scope.md R15). The scale
keeps 53 significant bits, or all bits below the normal range; a carry out of the 53 bits moves into the exponent. -/
def roundUnits (n d : Nat) : Nat :=
  let scale := (n / d).log2 - 52
  let q := n / (d * 2 ^ scale)
  let r := n % (d * 2 ^ scale)
  let up := d * 2 ^ scale < 2 * r ∨ (2 * r = d * 2 ^ scale ∧ q % 2 = 1)
  scale * 2 ^ 52 + (if up then q + 1 else q)

/-- The value `n / d` units of 2^-1074 with a sign, rounded; beyond the largest finite value it is an infinity. -/
def fround (sign : Bool) (n d : Nat) : F64 :=
  let mag := roundUnits n d
  if 2047 * 2 ^ 52 ≤ mag then finf sign else fpack sign mag

/-- `fneg`: flips the sign bit (00_scope.md R15). -/
def fneg (x : F64) : F64 := x ^^^ 0x8000000000000000#64

/-- The sum of two finite values; an exact zero is `+0` unless both operands are negative (PRESUMED from IEEE-754,
log 10). -/
def faddFinite (x y : F64) : F64 :=
  let s := fint x + fint y
  if s = 0 then fzero (fsign x && fsign y) else fround (decide (s < 0)) s.natAbs 1

/-- Addition with the NaN it yields named (PRESUMED special cases of IEEE-754, log 10). -/
def faddAs (nan : F64) (x y : F64) : F64 :=
  if isNaN x || isNaN y then nanOf nan
  else if isInf x then (if isInf y && (fsign x != fsign y) then nanOf nan else x)
  else if isInf y then y
  else faddFinite x y

/-- `fadd` (00_scope.md R15). -/
def fadd (x y : F64) : F64 := faddAs (Config.nanPattern .add x y) x y

/-- `fsub` (00_scope.md R15): the sum with the negated second operand. -/
def fsub (x y : F64) : F64 := faddAs (Config.nanPattern .sub x y) x (fneg y)

/-- `fmul` (00_scope.md R15; special cases PRESUMED from IEEE-754, log 10). -/
def fmul (x y : F64) : F64 :=
  let sign := fsign x != fsign y
  if isNaN x || isNaN y then nanOf (Config.nanPattern .mul x y)
  else if isInf x || isInf y then
    (if isZero x || isZero y then nanOf (Config.nanPattern .mul x y) else finf sign)
  else fround sign (funits x * funits y) (2 ^ 1074)

/-- `fdiv` (00_scope.md R15; special cases PRESUMED from IEEE-754, log 10). -/
def fdiv (x y : F64) : F64 :=
  let sign := fsign x != fsign y
  if isNaN x || isNaN y then nanOf (Config.nanPattern .div x y)
  else if isInf x then (if isInf y then nanOf (Config.nanPattern .div x y) else finf sign)
  else if isInf y then fzero sign
  else if isZero y then (if isZero x then nanOf (Config.nanPattern .div x y) else finf sign)
  else fround sign (funits x * 2 ^ 1074) (funits y)

/-- The integer square root of `n`, exact when the fuel is at least half the number of its bits. -/
def isqrt : Nat → Nat → Nat
  | 0, _ => 0
  | fuel + 1, n =>
    let r := 2 * isqrt fuel (n / 4)
    if (r + 1) * (r + 1) ≤ n then r + 1 else r

/-- The square root of a positive finite magnitude of `u` units, rounded. The root of `u * 2^1074` is taken on its
leading bits, at least 2^110 of them, and a bit below them records that digits remain. -/
def fsqrtUnits (u : Nat) : F64 :=
  let drop := 2 * ((u.log2 + 1074 - 110) / 2)
  let k := u * 2 ^ 1074 / 2 ^ drop
  let root := isqrt 60 k
  let sticky := if root * root * 2 ^ drop = u * 2 ^ 1074 then 0 else 1
  fround false ((2 * root + sticky) * 2 ^ (drop / 2)) 2

/-- `fsqrt` (00_scope.md R15; special cases PRESUMED from IEEE-754, log 10). -/
def fsqrt (x : F64) : F64 :=
  if isNaN x then nanOf (Config.nanPattern .sqrt x x)
  else if isZero x then x
  else if fsign x then nanOf (Config.nanPattern .sqrt x x)
  else if isInf x then x
  else fsqrtUnits (funits x)

/-- `u2f(n)` (00_scope.md R15): the binary64 nearest to an unsigned integer. -/
def u2f (n : Nat) : F64 := fround false (n * 2 ^ 1074) 1

/-- The order key of a value that is not a NaN: both zeros have key 0. -/
def fkey (x : F64) : Int := if fsign x then -(fmag x : Int) else (fmag x : Int)

/-- `a > b`, false when either is a NaN (00_scope.md R15). -/
def fgt (a b : F64) : Bool := !isNaN a && !isNaN b && decide (fkey b < fkey a)

/-- `a = b`, false when either is a NaN; `+0 = -0` (00_scope.md R15). -/
def feq (a b : F64) : Bool := !isNaN a && !isNaN b && decide (fkey a = fkey b)

end Sys2Proof.Machine
end

