-- ==== Sys2Proof/Machine/Num.lean ====
section
/-! DEFINITION. The numeric primitives of 00_scope.md section 6 and the record `NUM` the engine computes with. -/

namespace Sys2Proof.Machine

/-- The record `NUM` (00_scope.md R10, section 6): the floating-point behaviour the source does not fix. -/
structure Num where
  /-- complex multiplication (R17) -/
  cmul : C64 → C64 → C64
  /-- complex division (R18) -/
  cdiv : C64 → C64 → C64
  /-- magnitude (R19) -/
  cabs : C64 → F64
  /-- unit complex exponential (R20) -/
  cis : F64 → C64
  /-- mixer element (R21) -/
  mixer : F64 → Nat → F64 → C64
  /-- transform of a sequence to a sequence of the given length (R22) -/
  fft : Nat → List C64 → List C64

/-- `cadd` (00_scope.md R16). -/
def cadd (x y : C64) : C64 := ⟨fadd x.re y.re, fadd x.im y.im⟩

/-- The default `NUM.cmul` (00_scope.md R17). -/
def cmulDefault (x y : C64) : C64 :=
  ⟨fsub (fmul x.re y.re) (fmul x.im y.im), fadd (fmul x.re y.im) (fmul x.im y.re)⟩

/-- The default `NUM.cdiv` (00_scope.md R18). -/
def cdivDefault (x y : C64) : C64 :=
  let den := fadd (fmul y.re y.re) (fmul y.im y.im)
  ⟨fdiv (fadd (fmul x.re y.re) (fmul x.im y.im)) den, fdiv (fsub (fmul x.im y.re) (fmul x.re y.im)) den⟩

/-- The default `NUM.cabs` (00_scope.md R19). -/
def cabsDefault (x : C64) : F64 := fsqrt (fadd (fmul x.re x.re) (fmul x.im x.im))

/-- `1.0`. -/
def fone : F64 := 0x3FF0000000000000#64

/-- `2.0`. -/
def ftwo : F64 := 0x4000000000000000#64

/-- `NUM.cis` (00_scope.md R20): exactly `(1.0, +0 or -0)` at a zero angle, two NaNs at an angle that is a NaN or an
infinity (R24; an infinite angle PRESUMED from IEEE-754, log 8), a free value elsewhere (log 8). -/
def cisFree (theta : F64) : C64 :=
  if isZero theta then ⟨fone, fzero (Config.cisZeroSign theta)⟩
  else if isFinite theta then Config.cis theta
  else ⟨nanOf (Config.cis theta).re, nanOf (Config.cis theta).im⟩

/-- The angle of a mixer element, the product taken left to right (00_scope.md R21). -/
def mixerAngle (f : F64) (i : Nat) (dt : F64) : F64 :=
  fmul (fmul (fmul (fmul ftwo Config.pi64) f) (u2f i)) dt

/-- The default `NUM.mixer` (00_scope.md R21). -/
def mixerDefault (f : F64) (i : Nat) (dt : F64) : C64 := cisFree (fneg (mixerAngle f i dt))

/-- Both components are zeros. -/
def c64IsZero (x : C64) : Bool := isZero x.re && isZero x.im

/-- A component is a NaN. -/
def c64HasNaN (x : C64) : Bool := isNaN x.re || isNaN x.im

/-- A component is a NaN or an infinity. -/
def c64NonFinite (x : C64) : Bool := !isFinite x.re || !isFinite x.im

/-- A value with a NaN component made from a free value: the value itself when it has one (log 7). -/
def keepNaN (y : C64) : C64 := if c64HasNaN y then y else ⟨nanOf y.re, y.im⟩

/-- A value with a non-finite component made from a free value: the value itself when it has one (log 7). -/
def keepNonFinite (y : C64) : C64 := if c64NonFinite y then y else ⟨nanOf y.re, y.im⟩

/-- One element of `NUM.fft` (00_scope.md R22, log 7): a zero when every component of the input is one. Every element
depends on every sample, and non-finite samples propagate by the IEEE rules (R24, 40_fft.md R136): with a NaN in the input
it has a NaN component, with an infinity a non-finite one (DEDUCED); which component, and which value, is free, as is the
element of a finite input. -/
def fftBin (len : Nat) (x : List C64) (k : Nat) : C64 :=
  if x.all c64IsZero then
    ⟨fzero (Config.fftZeroSigns len x k).1, fzero (Config.fftZeroSigns len x k).2⟩
  else if x.any c64HasNaN then keepNaN (Config.fft len x k)
  else if x.any c64NonFinite then keepNonFinite (Config.fft len x k)
  else Config.fft len x k

/-- `NUM.fft` (00_scope.md R22): a sequence of the transform's length that depends on the length and the input
alone. -/
def fftFree (len : Nat) (x : List C64) : List C64 := (List.range len).map (fftBin len x)

/-- The record the engine computes with: the defaults of 00_scope.md R17 to R19 and R21 (DESIGN CHOICE, log 6), the
exponential and the transform as free values (logs 7 and 8). -/
def NUM : Num where
  cmul := cmulDefault
  cdiv := cdivDefault
  cabs := cabsDefault
  cis := cisFree
  mixer := mixerDefault
  fft := fftFree

/-- `fmean` (00_scope.md R23): the values summed in order from `+0`, divided by their number. -/
def fmean (v : List F64) : F64 := fdiv (v.foldl fadd 0#64) (u2f v.length)

end Sys2Proof.Machine
end

