-- ==== Sys2Proof/Machine/State.lean ====
section
/-! DEFINITION. The state of ZCORE as plain data (10_state.md R30 to R71), the reasons a step can stop, and the state
after reset. The fields the model adds are named as the model's own. -/

namespace Sys2Proof.Machine

/-- No step of ZCORE stops with a fault, so there is no reason for one: a command error, a bus `ERROR` response and a
host access while busy each have a next state (60_exceptions.md R260, R267, R271, R272). Safe: nothing raises it (log 19). -/
inductive Fault
deriving DecidableEq, Repr

/-- Why a step has no meaning. -/
inductive Refusal
  /-- Raised by an arm of `exec` for an instruction without a meaning. Safe: the run stops. No arm raises it. -/
  | notModelled (mnemonic : String)
deriving DecidableEq, Repr

/-- The fields of `STATUS` (10_state.md R35); its other bits read 0 and cannot be written. -/
structure Status where
  /-- `BUSY` (R36) -/
  busy : Bool
  /-- `DONE` (R37) -/
  done : Bool
  /-- `ERR` (R38) -/
  err : Bool
  /-- `OVR` (R39) -/
  ovr : Bool
  /-- `PLAN_VALID` (R44) -/
  planValid : Bool
  /-- `FVEC_VALID` (R45) -/
  fvecValid : Bool
  /-- `PEAKS_VALID` (R46) -/
  peaksValid : Bool
  /-- `RESULT` (R40) -/
  result : Bool
  /-- `ERRCODE` (R38, 60_exceptions.md R262) -/
  errcode : BitVec 8
deriving DecidableEq, Repr

/-- The bits of `IE` (10_state.md R41). -/
structure IntEnable where
  doneIe : Bool
  errIe : Bool
  ovrIe : Bool
deriving DecidableEq, Repr

/-- A memory region (10_state.md R63): the bytes that have been written, as (offset in the region, byte) cells in
canonical form, and the index under which its unspecified words are drawn (the MODEL's field, log 4). -/
structure Region where
  cells : List Host.Cell
  stamp : Nat
deriving DecidableEq, Repr

/-- A region of which no byte has been written. -/
def Region.unwritten (stamp : Nat) : Region := ⟨[], stamp⟩

/-- A context slot: its registers (10_state.md R53 to R62) and its two regions (R67, R68). -/
structure Slot where
  /-- `CTX_STATUS.VALID` (R54) -/
  valid : Bool
  /-- `CTX_STATUS.DECODED` (R54) -/
  decoded : Bool
  /-- `BIN` (R55) -/
  bin : BitVec 32
  /-- `FREQ_OFFSET` (R56) -/
  freqOffset : F64
  /-- `SAMPLE_COUNT` (R57) -/
  sampleCount : BitVec 32
  /-- `LAST_SEEN_US` (R58) -/
  lastSeenUs : BitVec 64
  /-- `BITCNT` (R59) -/
  bitcnt : BitVec 9
  /-- `CRC` (R60) -/
  crc : BitVec 16
  /-- `HEADER` (R61) -/
  header : BitVec 3
  /-- `TAG_TYPE` (R61) -/
  tagType : BitVec 3
  /-- `APP_ID` (R61) -/
  appId : BitVec 3
  /-- `GROUP_ID` (R61) -/
  groupId : BitVec 7
  /-- `AGENCY_ID` (R61) -/
  agencyId : BitVec 7
  /-- `SERIAL_NUMBER` (R61) -/
  serialNumber : BitVec 24
  /-- `FRAME0` (R62) -/
  frame0 : Word
  /-- `FRAME1` (R62) -/
  frame1 : Word
  /-- `FRAME2` (R62) -/
  frame2 : Word
  /-- `FRAME3` (R62) -/
  frame3 : Word
  /-- region `MIXER[s]` (R67) -/
  mixer : Region
  /-- region `ACC[s]` (R68) -/
  acc : Region
deriving DecidableEq, Repr

/-- A slot whose registers all read 0 (10_state.md R53, R54), with the given regions. -/
def Slot.empty (mixer acc : Region) : Slot where
  valid := false
  decoded := false
  bin := 0
  freqOffset := 0
  sampleCount := 0
  lastSeenUs := 0
  bitcnt := 0
  crc := 0
  header := 0
  tagType := 0
  appId := 0
  groupId := 0
  agencyId := 0
  serialNumber := 0
  frame0 := 0
  frame1 := 0
  frame2 := 0
  frame3 := 0
  mixer := mixer
  acc := acc

/-- One step of the total order of steps (00_scope.md R8, 20_memory.md R90), as the environment chooses it (logs 2,
16). -/
inductive Event
  /-- `MemRead(addr, size)` by the host (20_memory.md R82). -/
  | read (addr : BitVec 32) (size : Nat)
  /-- `MemWrite(addr, size, value)` by the host (20_memory.md R83). -/
  | write (addr : BitVec 32) (size : Nat) (value : Word)
  /-- The engine completes the pending command (30_encoding.md R114). -/
  | engine
  /-- The platform asserts the reset input (70_reset_and_hazards.md R290). -/
  | resetInput
deriving DecidableEq, Repr

/-- The response of the host port to a transaction (20_memory.md R80): `OK` or `ERROR`, and for a read its data. -/
structure Response where
  ok : Bool
  data : Option Word
deriving DecidableEq, Repr

/-- The state of ZCORE (10_state.md R30), its build parameters (00_scope.md R10) and the model's own fields. -/
structure State where
  /-- `LOG2_N_MAX` (00_scope.md R10): a build parameter, never changed -/
  log2NMax : Nat
  /-- `CMD[31:0]` (R34); the pending command while `BUSY = 1` -/
  cmd : BitVec 32
  /-- `STATUS` (R35) -/
  status : Status
  /-- `IE` (R41) -/
  ie : IntEnable
  /-- `SAMPLE_RATE[31:0]` (R47) -/
  sampleRate : BitVec 32
  /-- `INTERVAL_US[31:0]` (R48) -/
  intervalUs : BitVec 32
  /-- `TIME_US` (R49) -/
  timeUs : BitVec 64
  /-- `M[31:0]` (R50) -/
  m : BitVec 32
  /-- `N[31:0]` (R50) -/
  n : BitVec 32
  /-- `SPB[31:0]` (R50) -/
  spb : BitVec 32
  /-- `DT` (R50) -/
  dt : F64
  /-- `FS[31:0]` (R50) -/
  fs : BitVec 32
  /-- `NPEAKS[31:0]` (R51) -/
  npeaks : BitVec 32
  /-- the context slots (R53); their number is `NSLOTS`, a build parameter, never changed -/
  slots : List Slot
  /-- region `IBUF` (R64) -/
  ibuf : Region
  /-- region `FVEC` (R65) -/
  fvec : Region
  /-- region `PEAK` (R66) -/
  peak : Region
  /-- the MODEL's field (log 11): the host port's latest response -/
  resp : Option Response
  /-- the MODEL's field (log 5): the index of the next unspecified value -/
  draw : Nat
  /-- the MODEL's field (log 2): what happens next, in the order the environment chose -/
  schedule : List Event
deriving DecidableEq, Repr

/-- `NSLOTS` (00_scope.md R10). -/
def State.nslots (s : State) : Nat := s.slots.length

/-- `N_MAX = 2^LOG2_N_MAX` (00_scope.md R10). -/
def State.nMax (s : State) : Nat := 2 ^ s.log2NMax

/-- `STATUS = 0` (70_reset_and_hazards.md R291). -/
def Status.zero : Status where
  busy := false
  done := false
  err := false
  ovr := false
  planValid := false
  fvecValid := false
  peaksValid := false
  result := false
  errcode := 0

/-- `IE = 0` (70_reset_and_hazards.md R291). -/
def IntEnable.zero : IntEnable := ⟨false, false, false⟩

/-- A machine with the given build parameters right after reset (10_state.md R71, 70_reset_and_hazards.md R291). -/
def State.resetWith (log2NMax nslots : Nat) : State where
  log2NMax := log2NMax
  cmd := 0
  status := Status.zero
  ie := IntEnable.zero
  sampleRate := 0
  intervalUs := 0
  timeUs := 0
  m := 0
  n := 0
  spb := 0
  dt := 0
  fs := 0
  npeaks := 0
  slots := List.replicate nslots (Slot.empty (Region.unwritten 0) (Region.unwritten 0))
  ibuf := Region.unwritten 0
  fvec := Region.unwritten 0
  peak := Region.unwritten 0
  resp := none
  draw := 1
  schedule := []

/-- The machine right after reset, with the build parameters of the spec's test vectors (DESIGN CHOICE, log 1). -/
def State.reset : State := State.resetWith Config.log2NMaxAtReset Config.nslotsAtReset

end Sys2Proof.Machine
end

