-- ==== Sys2Proof/Machine/Ops.lean ====
section
/-! DEFINITION. The named operations over memory and registers, taking an error (60_exceptions.md R261) and the return
from one, accepting a command, freeing a slot and reset. -/

namespace Sys2Proof.Machine

/-! ### Bytes and words of a region -/

/-- The byte a cell list holds at an offset; an unlisted offset reads as no value. -/
def readByte : List Host.Cell → Nat → Option (BitVec 8)
  | [], _ => none
  | (k, b) :: rest, a => if k = a then some b else readByte rest a

/-- Writes a byte, keeping the offsets strictly rising. -/
def writeByte : List Host.Cell → Nat → BitVec 8 → List Host.Cell
  | [], a, b => [(a, b)]
  | (k, c) :: rest, a, b =>
    if a < k then (a, b) :: (k, c) :: rest
    else if a = k then (a, b) :: rest
    else (k, c) :: writeByte rest a b

/-- Every offset of the list lies above the bound, and the offsets rise strictly. -/
def risingFrom : Nat → List Host.Cell → Bool
  | _, [] => true
  | lo, (k, _) :: rest => decide (lo ≤ k) && risingFrom (k + 1) rest

/-- The canonical form of a cell list: offsets strictly rising. Every entry differs from what an unlisted offset reads
as, which is no value. -/
def memoryWf (m : List Host.Cell) : Bool := risingFrom 0 m

/-- Byte lane `j` of a word: bits `8j+7 : 8j` (20_memory.md R86, log 15). -/
def lane (v : Word) (j : Nat) : BitVec 8 := v.extractLsb' (8 * j) 8

/-- Writes the `j`-th and the following `count` lanes of a word. -/
def writeLanes (m : List Host.Cell) (a : Nat) (v : Word) : Nat → List Host.Cell
  | 0 => m
  | count + 1 => writeByte (writeLanes m a v count) (a + count) (lane v count)

/-- Writes one word at an offset, lane `j` at byte `j` (20_memory.md R86). -/
def writeWord (m : List Host.Cell) (a : Nat) (v : Word) : List Host.Cell := writeLanes m a v 8

/-- The word at an offset, when all of its bytes are listed (20_memory.md R86). -/
def readWord (m : List Host.Cell) (a : Nat) : Option Word := do
  let b0 ← readByte m a
  let b1 ← readByte m (a + 1)
  let b2 ← readByte m (a + 2)
  let b3 ← readByte m (a + 3)
  let b4 ← readByte m (a + 4)
  let b5 ← readByte m (a + 5)
  let b6 ← readByte m (a + 6)
  let b7 ← readByte m (a + 7)
  some (b7 ++ b6 ++ b5 ++ b4 ++ b3 ++ b2 ++ b1 ++ b0)

/-- A region's word: the stored one, else the region's stable unspecified one (10_state.md R64, log 4). -/
def Region.word (r : Region) (base off : Nat) : Word :=
  (readWord r.cells off).getD (Config.unspecifiedWord r.stamp (base + off))

/-- Stores one word of a region. -/
def Region.put (r : Region) (off : Nat) (v : Word) : Region := { r with cells := writeWord r.cells off v }

/-- The engine writes the region: its unspecified words may change (93_implementation_defined.md U6, log 4). -/
def Region.restamp (r : Region) (stamp : Nat) : Region := { r with stamp := stamp }

/-- `C64` entry `i` of a region: real part at `16i`, imaginary part at `16i + 8` (20_memory.md R85). -/
def Region.c64 (r : Region) (base i : Nat) : C64 := ⟨r.word base (16 * i), r.word base (16 * i + 8)⟩

/-- Stores `C64` entry `i` (20_memory.md R85). -/
def Region.putC64 (r : Region) (i : Nat) (x : C64) : Region := (r.put (16 * i) x.re).put (16 * i + 8) x.im

/-- Stores the entries `i`, `i + 1`, … of a region, each whole (20_memory.md R88, log 21). -/
def Region.putC64s (r : Region) (i : Nat) : List C64 → Region
  | [] => r
  | x :: xs => (r.putC64 i x).putC64s (i + 1) xs

/-- One entry of the peak list (10_state.md R66). -/
structure PeakEntry where
  bin : BitVec 32
  freq : F64
  value : C64
deriving DecidableEq, Repr, Inhabited

/-- Stores `PEAK` entry `p`, four words (20_memory.md R85). -/
def Region.putPeak (r : Region) (p : Nat) (x : PeakEntry) : Region :=
  (((r.put (32 * p) (x.bin.setWidth 64)).put (32 * p + 8) x.freq).put (32 * p + 16) x.value.re).put
    (32 * p + 24) x.value.im

/-- Stores the entries `p`, `p + 1`, … of the peak list. -/
def Region.putPeaks (r : Region) (p : Nat) : List PeakEntry → Region
  | [] => r
  | x :: xs => (r.putPeak p x).putPeaks (p + 1) xs

/-! ### Regions of the address map -/

/-- The five kinds of memory region (10_state.md R63). -/
inductive RegionId
  | ibuf
  | fvec
  | peak
  | mixer (slot : Nat)
  | acc (slot : Nat)
deriving DecidableEq, Repr

/-- The region's number in the address map (20_memory.md R81). -/
def RegionId.number : RegionId → Nat
  | .ibuf => 1
  | .fvec => 2
  | .peak => 3
  | .mixer i => 5 + 2 * i
  | .acc i => 6 + 2 * i

/-- The region's first address: regions are 2 MiB (20_memory.md R81). -/
def RegionId.base (id : RegionId) : Nat := id.number * 2 ^ 21

/-- Slot `i`, or a slot that reads zero where there is none; no command reads it then (60_exceptions.md R264). -/
def State.slot (s : State) (i : Nat) : Slot :=
  s.slots.getD i (Slot.empty (Region.unwritten 0) (Region.unwritten 0))

/-- Replaces slot `i`. -/
def State.setSlot (s : State) (i : Nat) (x : Slot) : State := { s with slots := s.slots.set i x }

/-- The region a name stands for. -/
def State.region (s : State) : RegionId → Region
  | .ibuf => s.ibuf
  | .fvec => s.fvec
  | .peak => s.peak
  | .mixer i => (s.slot i).mixer
  | .acc i => (s.slot i).acc

/-- `IBUF[i]`. -/
def State.ibufAt (s : State) (i : Nat) : C64 := s.ibuf.c64 RegionId.ibuf.base i

/-- `FVEC[k]`. -/
def State.fvecAt (s : State) (k : Nat) : C64 := s.fvec.c64 RegionId.fvec.base k

/-- `MIXER[i][j]`. -/
def State.mixerAt (s : State) (i j : Nat) : C64 := (s.slot i).mixer.c64 (RegionId.mixer i).base j

/-- `ACC[i][j]`. -/
def State.accAt (s : State) (i j : Nat) : C64 := (s.slot i).acc.c64 (RegionId.acc i).base j

/-- A word of the peak list. -/
def State.peakWord (s : State) (off : Nat) : Word := s.peak.word RegionId.peak.base off

/-- `PEAK[p]` (20_memory.md R85). -/
def State.peakAt (s : State) (p : Nat) : PeakEntry where
  bin := (s.peakWord (32 * p)).setWidth 32
  freq := s.peakWord (32 * p + 8)
  value := ⟨s.peakWord (32 * p + 16), s.peakWord (32 * p + 24)⟩

/-! ### Errors and completion -/

/-- The error codes (60_exceptions.md R262). -/
inductive ErrCode
  | illCmd
  | config
  | plan
  | noPlan
  | noFvec
  | noPeaks
  | peakIdx
  | slotIdx
  | slotInvalid
  | slotInUse
  | binMismatch
deriving DecidableEq, Repr

/-- The value `STATUS.ERRCODE` takes (60_exceptions.md R262). -/
def ErrCode.code : ErrCode → BitVec 8
  | .illCmd => 0x01
  | .config => 0x02
  | .plan => 0x03
  | .noPlan => 0x04
  | .noFvec => 0x05
  | .noPeaks => 0x06
  | .peakIdx => 0x07
  | .slotIdx => 0x08
  | .slotInvalid => 0x09
  | .slotInUse => 0x0A
  | .binMismatch => 0x0B

/-- The end of every command: `BUSY <- 0`, `DONE <- 1` (30_encoding.md R114 d). -/
def finish (s : State) : State := { s with status := { s.status with busy := false, done := true } }

/-- Recording an error: the first one is kept until the host clears it (10_state.md R38). -/
def recordErr (c : ErrCode) (s : State) : State :=
  if s.status.err then s else { s with status := { s.status with err := true, errcode := c.code } }

/-- TAKING AN ERROR, `raise Err(c)` (60_exceptions.md R261, R266): record the code and complete; nothing else
changes (log 20). -/
def raiseErr (c : ErrCode) (s : State) : State := finish (recordErr c s)

/-- RETURN FROM AN ERROR: the host's write of 1 to `STATUS.ERR` clears `ERR` and `ERRCODE` (60_exceptions.md R267). -/
def clearErr (s : State) : State := { s with status := { s.status with err := false, errcode := 0 } }

/-- The first check that fails, in order (60_exceptions.md R264). -/
def firstError : List (Bool × ErrCode) → Option ErrCode
  | [] => none
  | (fails, c) :: rest => if fails then some c else firstError rest

/-- The completion step of a command (30_encoding.md R114): its checks in order, then its writes, then the end. -/
def completeWith (checks : List (Bool × ErrCode)) (effect : State → State) (s : State) : State :=
  match firstError checks with
  | some c => raiseErr c s
  | none => finish (effect s)

/-- An accepted write of `CMD` (10_state.md R34): the word becomes the pending command. -/
def acceptCommand (c : BitVec 32) (s : State) : State :=
  { s with cmd := c, status := { s.status with busy := true, done := false, result := false } }

/-! ### Slots and reset -/

/-- The next index for unspecified values (log 5). -/
def State.bumpDraw (s : State) : State := { s with draw := s.draw + 1 }

/-- `free_slot` on one slot (41_mixer_accumulator.md R161): every register reads 0, and the regions of a slot that was
valid become unspecified under a fresh index; those of an invalid slot already were (R160, log 12). -/
def Slot.freed (x : Slot) (stamp : Nat) : Slot :=
  if x.valid then Slot.empty (Region.unwritten stamp) (Region.unwritten stamp) else Slot.empty x.mixer x.acc

/-- `free_slot(i)` (41_mixer_accumulator.md R161). -/
def freeSlot (i : Nat) (s : State) : State := (s.setSlot i ((s.slot i).freed s.draw)).bumpDraw

/-- `for s in 0..NSLOTS-1: free_slot(s)` (40_fft.md R132). -/
def freeAllSlots (s : State) : State := { s with slots := s.slots.map fun x => Slot.freed x s.draw }.bumpDraw

/-- The effect of reset (70_reset_and_hazards.md R291), by the input or by `CTRL.SRST` (R290): registers zero, slots
free, no command pending, every region unspecified. The build parameters, the port's response and the schedule are no
part of it (log 13). -/
def resetEffect (s : State) : State :=
  { State.resetWith s.log2NMax s.slots.length with
    slots := s.slots.map fun _ => Slot.empty (Region.unwritten s.draw) (Region.unwritten s.draw)
    ibuf := Region.unwritten s.draw
    fvec := Region.unwritten s.draw
    peak := Region.unwritten s.draw
    resp := s.resp
    draw := s.draw + 1
    schedule := s.schedule }

end Sys2Proof.Machine
end

