-- ==== Sys2Proof/Machine/Flags.lean ====
section
/-! DEFINITION. `STATUS`, `IE` and `irq`: packing, host writes, and the valid flags (10_state.md R35 to R52). -/

namespace Sys2Proof.Machine

/-- The word a read of `STATUS` returns (10_state.md R35). -/
def Status.toWord (st : Status) : Word :=
  0#48 ++ st.errcode ++ BitVec.ofBool st.result ++ BitVec.ofBool st.peaksValid ++ BitVec.ofBool st.fvecValid ++
    BitVec.ofBool st.planValid ++ BitVec.ofBool st.ovr ++ BitVec.ofBool st.err ++ BitVec.ofBool st.done ++
    BitVec.ofBool st.busy

/-- A host write of `STATUS`: bits 1, 2, 3 clear `DONE`, `ERR` with `ERRCODE`, and `OVR` (10_state.md R35). -/
def writeStatus (v : Word) (s : State) : State :=
  let t := if v.getLsbD 2 then clearErr s else s
  { t with status := { t.status with done := t.status.done && !v.getLsbD 1, ovr := t.status.ovr && !v.getLsbD 3 } }

/-- The word a read of `IE` returns (10_state.md R41). -/
def IntEnable.toWord (ie : IntEnable) : Word :=
  0#60 ++ BitVec.ofBool ie.ovrIe ++ BitVec.ofBool ie.errIe ++ BitVec.ofBool ie.doneIe ++ 0#1

/-- What a host write leaves in `IE` (10_state.md R41). -/
def IntEnable.ofWord (v : Word) : IntEnable := ⟨v.getLsbD 1, v.getLsbD 2, v.getLsbD 3⟩

/-- The output `irq` (10_state.md R52, 60_exceptions.md R265). -/
def State.irq (s : State) : Bool :=
  (s.status.done && s.ie.doneIe) || (s.status.err && s.ie.errIe) || (s.status.ovr && s.ie.ovrIe)

/-- `OVR <- 1` (10_state.md R39). -/
def setOvr (s : State) : State := { s with status := { s.status with ovr := true } }

/-- `PEAKS_VALID <- 0` and `NPEAKS <- 0` (10_state.md R46, R51). -/
def clearPeaks (s : State) : State :=
  { s with npeaks := 0, status := { s.status with peaksValid := false } }

/-- `FVEC_VALID <- 0`, `PEAKS_VALID <- 0` and `NPEAKS <- 0` (20_memory.md R87). -/
def clearDerived (s : State) : State :=
  { s with npeaks := 0, status := { s.status with fvecValid := false, peaksValid := false } }

/-- `STATUS.RESULT <- b` (10_state.md R40). -/
def setResult (b : Bool) (s : State) : State := { s with status := { s.status with result := b } }

end Sys2Proof.Machine
end

