-- ==== Sys2Proof/Machine/Operands.lean ====
section
/-! DEFINITION. The operands of commands and the checks on them (30_encoding.md R115, 60_exceptions.md R262 to R264).
A check is a pair: whether it fails, and the error it raises. -/

namespace Sys2Proof.Machine

/-- `E_NOPLAN`: no valid plan. -/
def checkPlan (s : State) : Bool × ErrCode := (!s.status.planValid, .noPlan)

/-- `E_NOFVEC`: no valid frequency vector. -/
def checkFvec (s : State) : Bool × ErrCode := (!s.status.fvecValid, .noFvec)

/-- `E_NOPEAKS`: no valid peak list. -/
def checkPeaks (s : State) : Bool × ErrCode := (!s.status.peaksValid, .noPeaks)

/-- `E_SLOTIDX`: the slot operand is not below `NSLOTS`. -/
def checkSlotIdx (i : Nat) (s : State) : Bool × ErrCode := (decide (s.nslots ≤ i), .slotIdx)

/-- `E_PEAKIDX`: the peak operand is not below `NPEAKS`. -/
def checkPeakIdx (p : Nat) (s : State) : Bool × ErrCode := (decide (s.npeaks.toNat ≤ p), .peakIdx)

/-- `E_SLOTINVALID`: the slot holds no hypothesis. -/
def checkSlotValid (i : Nat) (s : State) : Bool × ErrCode := (!(s.slot i).valid, .slotInvalid)

/-- `E_SLOTINUSE`: the slot holds a hypothesis. -/
def checkSlotFree (i : Nat) (s : State) : Bool × ErrCode := ((s.slot i).valid, .slotInUse)

/-- `E_BINMISMATCH`: the peak's bin is not the slot's. -/
def checkBin (i p : Nat) (s : State) : Bool × ErrCode := ((s.peakAt p).bin != (s.slot i).bin, .binMismatch)

end Sys2Proof.Machine
end

