-- ==== Sys2Proof/Machine/Fft.lean ====
section
/-! DEFINITION. The FFT engine family: `NOP`, `PLAN`, `FFT` (40_fft.md). -/

namespace Sys2Proof.Machine

/-- `NOP` (40_fft.md R131): nothing but the common completion. -/
def execNop (s : State) : Host.Outcome State Fault Refusal := .next (completeWith [] id s)

/-- `M = round(fs × T × 10^-6)`, half up on the exact rational (40_fft.md R132). -/
def planM (fs t : Nat) : Nat := (fs * t + 500000) / 1000000

/-- Samples per bit (40_fft.md R132). -/
def planSpb (fs : Nat) : Nat := fs / Config.bitRate

/-- `next_pow2`: the least power of two not below `m`, for `m >= 1` (40_fft.md R134). -/
def nextPow2 (m : Nat) : Nat := if m ≤ 1 then 1 else 2 ^ ((m - 1).log2 + 1)

/-- `DT` (40_fft.md R132): the interval in seconds divided by `M - 1`. -/
def planDt (t m : Nat) : F64 := fdiv (fmul (u2f t) Config.tenM6) (u2f (m - 1))

/-- `E_CONFIG` (40_fft.md R132): `fs = 0`, fewer than two samples per bit, or fewer than two samples. -/
def planConfigBad (fs t : Nat) : Bool := decide (fs = 0) || decide (planSpb fs < 2) || decide (planM fs t < 2)

/-- `E_PLAN` (40_fft.md R132): the transform is longer than the engine supports. -/
def planTooLong (fs t nMax : Nat) : Bool := decide (nMax < nextPow2 (planM fs t))

/-- What both paths of `PLAN` clear (40_fft.md R132, R133): every slot, the peak list and its flags. -/
def planClear (s : State) : State := clearDerived (freeAllSlots s)

/-- The writes of a successful `PLAN` (40_fft.md R132). -/
def planLatch (s : State) : State :=
  let fs := s.sampleRate.toNat
  let t := s.intervalUs.toNat
  let c := planClear s
  { c with
    m := BitVec.ofNat 32 (planM fs t)
    n := BitVec.ofNat 32 (nextPow2 (planM fs t))
    spb := BitVec.ofNat 32 (planSpb fs)
    fs := s.sampleRate
    dt := planDt t (planM fs t)
    status := { c.status with planValid := true } }

/-- The writes of a failed `PLAN` (40_fft.md R133), the one error path that writes more than the error. -/
def planUnlatch (s : State) : State :=
  let c := planClear s
  { c with m := 0, n := 0, spb := 0, fs := 0, dt := 0, status := { c.status with planValid := false } }

/-- `plan_fail(c)` (40_fft.md R133). -/
def planFail (c : ErrCode) (s : State) : State := raiseErr c (planUnlatch s)

/-- `PLAN` (40_fft.md R132, R133). -/
def execPlan (s : State) : Host.Outcome State Fault Refusal :=
  if planConfigBad s.sampleRate.toNat s.intervalUs.toNat then .next (planFail .config s)
  else if planTooLong s.sampleRate.toNat s.intervalUs.toNat s.nMax then .next (planFail .plan s)
  else .next (completeWith [] planLatch s)

/-- The transform's input (40_fft.md R135): `IBUF[0..M-1]`, then zeros up to length `N`. -/
def fftInput (s : State) : List C64 :=
  (List.range s.n.toNat).map fun i => if i < s.m.toNat then s.ibufAt i else C64.zero

/-- The writes of `FFT` (40_fft.md R136). -/
def fftEffect (s : State) : State :=
  let c := clearPeaks s
  { c with
    fvec := (s.fvec.restamp s.draw).putC64s 0 (NUM.fft s.n.toNat (fftInput s))
    status := { c.status with fvecValid := true }
    draw := s.draw + 1 }

/-- `FFT` (40_fft.md R136). -/
def execFft (s : State) : Host.Outcome State Fault Refusal := .next (completeWith [checkPlan s] fftEffect s)

end Sys2Proof.Machine
end

