-- ==== Sys2Proof/Machine/Mixer.lean ====
section
/-! DEFINITION. The baseband mixer and accumulator family: `CTXINIT`, `ACCUM`, `CTXFREE`
(41_mixer_accumulator.md). -/

namespace Sys2Proof.Machine

/-- The elements of a mixer (41_mixer_accumulator.md R152). -/
def mixerElements (f : F64) (m : Nat) (dt : F64) : List C64 := (List.range m).map fun j => NUM.mixer f j dt

/-- A slot just claimed for a peak (41_mixer_accumulator.md R151): the mixer written, everything else from zero. -/
def claimedSlot (x : Slot) (e : PeakEntry) (m : Nat) (dt : F64) (stamp : Nat) : Slot :=
  { Slot.empty ((x.mixer.restamp stamp).putC64s 0 (mixerElements e.freq m dt))
      ((x.acc.restamp stamp).putC64s 0 (List.replicate m C64.zero)) with
    valid := true
    bin := e.bin
    freqOffset := e.freq }

/-- The writes of `CTXINIT` (41_mixer_accumulator.md R151). -/
def ctxinitEffect (i p : Nat) (s : State) : State :=
  (s.setSlot i (claimedSlot (s.slot i) (s.peakAt p) s.m.toNat s.dt s.draw)).bumpDraw

/-- `CTXINIT s, p` (41_mixer_accumulator.md R151). -/
def execCtxinit (i p : Nat) (s : State) : Host.Outcome State Fault Refusal :=
  .next (completeWith
    [checkPlan s, checkPeaks s, checkSlotIdx i s, checkPeakIdx p s, checkSlotFree i s] (ctxinitEffect i p) s)

/-- `min(n + 1, 2^32 - 1)` (41_mixer_accumulator.md R154). -/
def satIncr (n : BitVec 32) : BitVec 32 := BitVec.ofNat 32 (min (n.toNat + 1) (2 ^ 32 - 1))

/-- One accumulated element: divide by the peak, mix, add (41_mixer_accumulator.md R154). -/
def accumElement (a sample e mix : C64) : C64 := cadd a (NUM.cmul (NUM.cdiv sample e) mix)

/-- The accumulator after an `ACCUM`, element by element (41_mixer_accumulator.md R154, R159). -/
def accumElements (i p : Nat) (s : State) : List C64 :=
  (List.range s.m.toNat).map fun j => accumElement (s.accAt i j) (s.ibufAt j) (s.peakAt p).value (s.mixerAt i j)

/-- The slot after an `ACCUM` that is not a no-op (41_mixer_accumulator.md R154). -/
def accumulatedSlot (i p : Nat) (s : State) : Slot :=
  { s.slot i with
    acc := ((s.slot i).acc.restamp s.draw).putC64s 0 (accumElements i p s)
    sampleCount := satIncr (s.slot i).sampleCount
    lastSeenUs := s.timeUs }

/-- The writes of `ACCUM` (41_mixer_accumulator.md R154); none once the slot is decoded (R155). -/
def accumEffect (i p : Nat) (s : State) : State :=
  if (s.slot i).decoded then s else (s.setSlot i (accumulatedSlot i p s)).bumpDraw

/-- `ACCUM s, p` (41_mixer_accumulator.md R154). -/
def execAccum (i p : Nat) (s : State) : Host.Outcome State Fault Refusal :=
  .next (completeWith
    [checkPlan s, checkPeaks s, checkSlotIdx i s, checkPeakIdx p s, checkSlotValid i s, checkBin i p s]
    (accumEffect i p) s)

/-- `CTXFREE s` (41_mixer_accumulator.md R160). -/
def execCtxfree (i : Nat) (s : State) : Host.Outcome State Fault Refusal :=
  .next (completeWith [checkSlotIdx i s] (freeSlot i) s)

end Sys2Proof.Machine
end

