-- ==== Sys2Proof/Machine/Peaks.lean ====
section
/-! DEFINITION. The peak detector: `PEAKS` (44_peak_detector.md). -/

namespace Sys2Proof.Machine

/-- The physical bin of a raw bin (44_peak_detector.md R223). -/
def physicalBin (n i : Nat) : Nat := (i + n / 2) % n

/-- The frequency offset reported for a physical bin (44_peak_detector.md R223). -/
def peakFreq (fs n b : Nat) : F64 := fsub (fdiv (fmul (u2f b) (u2f fs)) (u2f n)) (fdiv (u2f fs) ftwo)

/-- The peak predicate: a strict local maximum above the floor (44_peak_detector.md R222). -/
def isPeak (mag : Nat → F64) (i : Nat) : Bool :=
  fgt (mag i) (mag (i - 1)) && fgt (mag i) (mag (i + 1)) && fgt (mag i) Config.peakFloor

/-- `mag[k]` (44_peak_detector.md R221). -/
def State.magAt (s : State) (k : Nat) : F64 := NUM.cabs (s.fvecAt k)

/-- The raw bins of the peaks, ascending, among `1..N-2` (44_peak_detector.md R221). -/
def peakBins (s : State) : List Nat := (List.range' 1 (s.n.toNat - 2)).filter (isPeak s.magAt)

/-- The entry of a peak at raw bin `i` (44_peak_detector.md R221, R224). -/
def peakEntry (s : State) (i : Nat) : PeakEntry where
  bin := BitVec.ofNat 32 (physicalBin s.n.toNat i)
  freq := peakFreq s.fs.toNat s.n.toNat (physicalBin s.n.toNat i)
  value := s.fvecAt i

/-- The writes of `PEAKS` (44_peak_detector.md R221). Every `PEAKS` counts as a write of the region `PEAK`, one that finds
no peak and writes no entry too, so that the region's unspecified words may change (93_implementation_defined.md U6 has
them stable until the engine next writes the region and does not say whether that is such a write: DESIGN CHOICE,
log 4). -/
def peaksEffect (s : State) : State :=
  { s with
    peak := (s.peak.restamp s.draw).putPeaks 0 ((peakBins s).map (peakEntry s))
    npeaks := BitVec.ofNat 32 (peakBins s).length
    status := { s.status with peaksValid := true }
    draw := s.draw + 1 }

/-- `PEAKS` (44_peak_detector.md R221). -/
def execPeaks (s : State) : Host.Outcome State Fault Refusal :=
  .next (completeWith [checkPlan s, checkFvec s] peaksEffect s)

end Sys2Proof.Machine
end

