-- ==== Sys2Proof/Machine/Frame.lean ====
section
/-! DEFINITION. The frame: byte packing, field extraction and CRC-16 (43_crc16_frame.md). A frame is the list of its
bits, `bits[0]` first in time; positions beyond the list read 0 (10_state.md R62). -/

namespace Sys2Proof.Machine

/-- `field(a, L)`: `L` bits from bit `a` on, the first the most significant (43_crc16_frame.md R203). -/
def field (bits : List Bool) (a len : Nat) : Nat :=
  (List.range len).foldl (fun v j => 2 * v + bitNat (bits.getD (a + j) false)) 0

/-- `byte[b]` of a frame (43_crc16_frame.md R201). -/
def frameByte (bits : List Bool) (b : Nat) : Nat := field bits (8 * b) 8

/-- `FRAMEw` of a frame: `bits[64w + j]` is bit `63 - j` (10_state.md R62). -/
def frameWord (bits : List Bool) (w : Nat) : Word := BitVec.ofNat 64 (field bits (64 * w) 64)

/-- One bit through the CRC register (43_crc16_frame.md R205). -/
def crcStep (c : BitVec 16) (b : Bool) : BitVec 16 :=
  let fb := c.getLsbD 15 ^^ b
  let shifted := c <<< 1
  if fb then shifted ^^^ Config.crcPoly else shifted

/-- The CRC-16 of a sequence of bits (43_crc16_frame.md R205). -/
def crc16 (bits : List Bool) : BitVec 16 := bits.foldl crcStep Config.crcInit

/-- One of the eight rounds of the byte-wise form (43_crc16_frame.md R206). -/
def crcRound (c : BitVec 16) : BitVec 16 := if c.getLsbD 15 then (c <<< 1) ^^^ Config.crcPoly else c <<< 1

/-- One byte through the CRC register (43_crc16_frame.md R206). -/
def crcByte (c : BitVec 16) (byte : Nat) : BitVec 16 :=
  (List.range 8).foldl (fun c _ => crcRound c) (c ^^^ (BitVec.ofNat 16 byte <<< 8))

/-- The CRC-16 of a sequence of bytes (43_crc16_frame.md R206). -/
def crc16Bytes (bytes : List Nat) : BitVec 16 := bytes.foldl crcByte Config.crcInit

/-- `bits[j]` as the slot registers hold it (10_state.md R62). -/
def Slot.frameBit (x : Slot) (j : Nat) : Bool :=
  match j / 64 with
  | 0 => x.frame0.getLsbD (63 - j % 64)
  | 1 => x.frame1.getLsbD (63 - j % 64)
  | 2 => x.frame2.getLsbD (63 - j % 64)
  | 3 => x.frame3.getLsbD (63 - j % 64)
  | _ => false

/-- The 256 bits the slot registers hold (10_state.md R62). -/
def Slot.frameBits (x : Slot) : List Bool := (List.range Config.frameBits).map x.frameBit

/-- The slot with a frame's bits stored and counted (42_slicer_mfm.md R171, 10_state.md R59, R62). -/
def Slot.withFrame (x : Slot) (bits : List Bool) : Slot :=
  { x with
    frame0 := frameWord bits 0
    frame1 := frameWord bits 1
    frame2 := frameWord bits 2
    frame3 := frameWord bits 3
    bitcnt := BitVec.ofNat 9 bits.length }

/-- The slot with the fields of a complete frame extracted and its CRC checked (43_crc16_frame.md R203, R207). -/
def Slot.withFields (x : Slot) (bits : List Bool) : Slot :=
  { x with
    header := BitVec.ofNat 3 (field bits 0 3)
    tagType := BitVec.ofNat 3 (field bits 3 3)
    appId := BitVec.ofNat 3 (field bits 6 3)
    groupId := BitVec.ofNat 7 (field bits 9 7)
    agencyId := BitVec.ofNat 7 (field bits 16 7)
    serialNumber := BitVec.ofNat 24 (field bits 23 24)
    crc := crc16 bits
    decoded := crc16 bits == 0 }

end Sys2Proof.Machine
end

