-- ==== Sys2Proof/Machine/Slicer.lean ====
section
/-! DEFINITION. The amplitude slicer and the MFM transition detector: `DECODE` (42_slicer_mfm.md). -/

namespace Sys2Proof.Machine

/-- A slice value (42_slicer_mfm.md R173): `+1` is high, `-1` is low. -/
inductive Slice
  | high
  | low
deriving DecidableEq, Repr

/-- `+1 if norm > mean else -1` (42_slicer_mfm.md R173). -/
def slice (mean norm : F64) : Slice := if fgt norm mean then .high else .low

/-- What the detector keeps inside one `DECODE` (42_slicer_mfm.md R175, R176): the window, oldest first, its fill
count, the skip count, the sync flag and the bits found so far. -/
structure Detector where
  w0 : Slice
  w1 : Slice
  w2 : Slice
  w3 : Slice
  fill : Nat
  skip : Nat
  synced : Bool
  bits : List Bool
deriving DecidableEq, Repr

/-- The detector before the first sample (42_slicer_mfm.md R176). What the window holds then is never
inspected (log 18). -/
def Detector.start : Detector := ⟨.low, .low, .low, .low, 0, 0, false, []⟩

/-- Pushing a slice value (42_slicer_mfm.md R175). -/
def Detector.push (d : Detector) (v : Slice) : Detector :=
  { d with w0 := d.w1, w1 := d.w2, w2 := d.w3, w3 := v, fill := if d.fill < 4 then d.fill + 1 else d.fill }

/-- `find_transition`: the first `k` in the order 2, 1, 3 with `w[k-1] ≠ w[k]`, with the slice value before it
(42_slicer_mfm.md R178). -/
def Detector.findTransition (d : Detector) : Option (Nat × Slice) :=
  if d.w1 ≠ d.w2 then some (2, d.w1)
  else if d.w0 ≠ d.w1 then some (1, d.w0)
  else if d.w2 ≠ d.w3 then some (3, d.w2)
  else none

/-- An inspection of the full window (42_slicer_mfm.md R177 to R181). The skip after a transition at `k` is
`SPB - (2 - k) - 1`, which is `SPB + k - 3`. -/
def Detector.inspect (spb : Nat) (d : Detector) : Detector :=
  if d.synced then
    match d.findTransition with
    | none => d
    | some (k, before) => { d with bits := d.bits ++ [decide (before = .high)], skip := spb + k - 3 }
  else if d.w1 = .high ∧ d.w2 = .low then { d with bits := [true], synced := true, skip := spb - 1 }
  else d

/-- One sample through the detector (42_slicer_mfm.md R176); after 256 bits nothing more happens (R180). -/
def Detector.step (spb : Nat) (d : Detector) (v : Slice) : Detector :=
  if d.bits.length = Config.frameBits then d
  else
    let e := d.push v
    if e.fill < 4 then e
    else if 0 < e.skip then { e with skip := e.skip - 1 }
    else e.inspect spb

/-- The detector run over slice values (42_slicer_mfm.md R176). -/
def detect (spb : Nat) (slices : List Slice) : List Bool := (slices.foldl (Detector.step spb) Detector.start).bits

/-- `mfm_decode` (42_slicer_mfm.md R176, R184): the bits found in a vector of magnitudes. -/
def mfmDecode (norm : List F64) (spb : Nat) : List Bool :=
  if feq (fmean norm) 0#64 then [] else detect spb (norm.map (slice (fmean norm)))

/-- `norm[0..M-1]` of a slot (42_slicer_mfm.md R172). -/
def normVector (i : Nat) (s : State) : List F64 := (List.range s.m.toNat).map fun j => NUM.cabs (s.accAt i j)

/-- The bits a `DECODE` of slot `i` finds (42_slicer_mfm.md R171). -/
def decodedBits (i : Nat) (s : State) : List Bool := mfmDecode (normVector i s) s.spb.toNat

/-- The slot after a `DECODE` that found the given bits (42_slicer_mfm.md R171): the fields, the CRC and `DECODED`
only when 256 bits were found. -/
def decodedSlot (x : Slot) (bits : List Bool) : Slot :=
  if bits.length = Config.frameBits then (x.withFrame bits).withFields bits else x.withFrame bits

/-- The writes of `DECODE` (42_slicer_mfm.md R171); only `RESULT` once the slot is decoded (R185). -/
def decodeEffect (i : Nat) (s : State) : State :=
  if (s.slot i).decoded then setResult true s
  else
    setResult (decodedSlot (s.slot i) (decodedBits i s)).decoded
      (s.setSlot i (decodedSlot (s.slot i) (decodedBits i s)))

/-- `DECODE s` (42_slicer_mfm.md R171). -/
def execDecode (i : Nat) (s : State) : Host.Outcome State Fault Refusal :=
  .next (completeWith [checkPlan s, checkSlotIdx i s, checkSlotValid i s] (decodeEffect i) s)

end Sys2Proof.Machine
end

