-- ==== Sys2Proof/Machine/Dispatch.lean ====
section
/-! DEFINITION. The meaning of every command: the completion step of a pending command (30_encoding.md R114). -/

namespace Sys2Proof.Machine

def exec (i : Instr) (s : State) : Host.Outcome State Fault Refusal :=
  match i with
  | .nop => Sys2Proof.Machine.execNop s
  | .plan => Sys2Proof.Machine.execPlan s
  | .fft => Sys2Proof.Machine.execFft s
  | .peaks => Sys2Proof.Machine.execPeaks s
  | .ctxinit slot p => Sys2Proof.Machine.execCtxinit slot p s
  | .accum slot p => Sys2Proof.Machine.execAccum slot p s
  | .decode slot => Sys2Proof.Machine.execDecode slot s
  | .ctxfree slot => Sys2Proof.Machine.execCtxfree slot s

end Sys2Proof.Machine
end

