-- ==== Sys2Proof/Machine/Port.lean ====
section
/-! DEFINITION. The host port: the address map, register reads, host reads and host writes (20_memory.md R80 to R87,
70_reset_and_hazards.md R300, R301). -/

namespace Sys2Proof.Machine

/-- The fifteen global registers (10_state.md R33). -/
inductive GlobalReg
  | cmd
  | status
  | ie
  | ctrl
  | sampleRate
  | intervalUs
  | timeUs
  | m
  | n
  | spb
  | dt
  | npeaks
  | peakFloor
  | caps
  | fs
deriving DecidableEq, Repr

/-- The global register at an offset of region 0 (10_state.md R33). -/
def globalAt : Nat → Option GlobalReg
  | 0x000 => some .cmd
  | 0x008 => some .status
  | 0x010 => some .ie
  | 0x018 => some .ctrl
  | 0x020 => some .sampleRate
  | 0x028 => some .intervalUs
  | 0x030 => some .timeUs
  | 0x038 => some .m
  | 0x040 => some .n
  | 0x048 => some .spb
  | 0x050 => some .dt
  | 0x058 => some .npeaks
  | 0x060 => some .peakFloor
  | 0x068 => some .caps
  | 0x070 => some .fs
  | _ => none

/-- The seventeen registers of a slot (10_state.md R53). -/
inductive SlotReg
  | ctxStatus
  | bin
  | freqOffset
  | sampleCount
  | lastSeenUs
  | bitcnt
  | crc
  | header
  | tagType
  | appId
  | groupId
  | agencyId
  | serialNumber
  | frame0
  | frame1
  | frame2
  | frame3
deriving DecidableEq, Repr

/-- The slot register at an offset of a slot's block (10_state.md R53). -/
def slotRegAt : Nat → Option SlotReg
  | 0x00 => some .ctxStatus
  | 0x08 => some .bin
  | 0x10 => some .freqOffset
  | 0x18 => some .sampleCount
  | 0x20 => some .lastSeenUs
  | 0x28 => some .bitcnt
  | 0x30 => some .crc
  | 0x38 => some .header
  | 0x40 => some .tagType
  | 0x48 => some .appId
  | 0x50 => some .groupId
  | 0x58 => some .agencyId
  | 0x60 => some .serialNumber
  | 0x80 => some .frame0
  | 0x88 => some .frame1
  | 0x90 => some .frame2
  | 0x98 => some .frame3
  | _ => none

/-- What an address names (20_memory.md R81). -/
inductive Location
  | global (r : GlobalReg)
  | slot (i : Nat) (r : SlotReg)
  | memory (id : RegionId) (off : Nat)
deriving DecidableEq, Repr

/-- A memory region's location when the offset lies below its size, `16 × N_MAX` bytes in every region: `PEAK` has
`N_MAX / 2` entries of 32 bytes (20_memory.md R81). -/
def memoryAt (s : State) (id : RegionId) (off : Nat) : Option Location :=
  if off < 16 * s.nMax then some (.memory id off) else none

/-- The address map: what `addr[31:21]` and `addr[20:0]` name, none when unmapped (20_memory.md R81). -/
def addressMap (s : State) (region off : Nat) : Option Location :=
  match region with
  | 0 => (globalAt off).map .global
  | 1 => memoryAt s .ibuf off
  | 2 => memoryAt s .fvec off
  | 3 => memoryAt s .peak off
  | 4 => if off / 0x100 < s.nslots then (slotRegAt (off % 0x100)).map (.slot (off / 0x100)) else none
  | r + 5 =>
    if r / 2 < s.nslots then memoryAt s (if r % 2 = 0 then .mixer (r / 2) else .acc (r / 2)) off else none

/-- What a transaction reaches; none when its size is not 8, its address is no multiple of 8, or its address is
unmapped (20_memory.md R84). -/
def locate (s : State) (addr : BitVec 32) (size : Nat) : Option Location :=
  if size = 8 ∧ addr.toNat % 8 = 0 then addressMap s (addr.toNat / 2 ^ 21) (addr.toNat % 2 ^ 21) else none

/-- `CAPS` (10_state.md R43). -/
def State.caps (s : State) : Word :=
  0#47 ++ BitVec.ofNat 9 s.nslots ++ BitVec.ofNat 8 s.log2NMax

/-- The value of a global register (10_state.md R33). -/
def readGlobal (s : State) : GlobalReg → Word
  | .cmd => s.cmd.setWidth 64
  | .status => s.status.toWord
  | .ie => s.ie.toWord
  | .ctrl => 0
  | .sampleRate => s.sampleRate.setWidth 64
  | .intervalUs => s.intervalUs.setWidth 64
  | .timeUs => s.timeUs
  | .m => s.m.setWidth 64
  | .n => s.n.setWidth 64
  | .spb => s.spb.setWidth 64
  | .dt => s.dt
  | .npeaks => s.npeaks.setWidth 64
  | .peakFloor => Config.peakFloor
  | .caps => s.caps
  | .fs => s.fs.setWidth 64

/-- The value of a slot register (10_state.md R53). -/
def readSlotReg (x : Slot) : SlotReg → Word
  | .ctxStatus => 0#62 ++ BitVec.ofBool x.decoded ++ BitVec.ofBool x.valid
  | .bin => x.bin.setWidth 64
  | .freqOffset => x.freqOffset
  | .sampleCount => x.sampleCount.setWidth 64
  | .lastSeenUs => x.lastSeenUs
  | .bitcnt => x.bitcnt.setWidth 64
  | .crc => x.crc.setWidth 64
  | .header => x.header.setWidth 64
  | .tagType => x.tagType.setWidth 64
  | .appId => x.appId.setWidth 64
  | .groupId => x.groupId.setWidth 64
  | .agencyId => x.agencyId.setWidth 64
  | .serialNumber => x.serialNumber.setWidth 64
  | .frame0 => x.frame0
  | .frame1 => x.frame1
  | .frame2 => x.frame2
  | .frame3 => x.frame3

/-- Whether the spec defines what a word of a region holds (10_state.md R64 to R68). An `IBUF` word is stable whether
or not it was written. -/
def State.wordDefined (s : State) (id : RegionId) (off : Nat) : Bool :=
  match id with
  | .ibuf => true
  | .fvec => s.status.fvecValid && decide (off / 16 < s.n.toNat)
  | .peak => s.status.peaksValid && decide (off / 32 < s.npeaks.toNat)
  | .mixer i => (s.slot i).valid && decide (off / 16 < s.m.toNat)
  | .acc i => (s.slot i).valid && decide (off / 16 < s.m.toNat)

/-- The word an idle engine lets the host read: the stored one where it is defined, else the region's stable
unspecified one (20_memory.md R82, log 4). -/
def State.hostWord (s : State) (id : RegionId) (off : Nat) : Word :=
  if s.wordDefined id off then (s.region id).word id.base off
  else Config.unspecifiedWord (s.region id).stamp (id.base + off)

/-- Ends a transaction with a response (20_memory.md R80). -/
def respond (ok : Bool) (data : Option Word) (s : State) : State := { s with resp := some ⟨ok, data⟩ }

/-- A response with unspecified data, freshly drawn (20_memory.md R82, log 5). -/
def respondUnspecified (ok : Bool) (addr : BitVec 32) (s : State) : State :=
  (respond ok (some (Config.unspecifiedWord s.draw addr.toNat)) s).bumpDraw

/-- `MemRead(addr, size)` (20_memory.md R82, R84, 70_reset_and_hazards.md R301). -/
def hostRead (addr : BitVec 32) (size : Nat) (s : State) : State :=
  match locate s addr size with
  | none => respondUnspecified false addr s
  | some (.global r) => respond true (some (readGlobal s r)) s
  | some (.slot i r) => respond true (some (readSlotReg (s.slot i) r)) s
  | some (.memory id off) =>
    if s.status.busy then setOvr (respondUnspecified true addr s)
    else respond true (some (s.hostWord id off)) s

/-- The effect of an accepted write of a global register (10_state.md R34, R35, R41, R42, R47 to R49); the others are
read-only and ignore it. -/
def writeGlobal (r : GlobalReg) (v : Word) (s : State) : State :=
  match r with
  | .cmd => acceptCommand (v.setWidth 32) s
  | .status => writeStatus v s
  | .ie => { s with ie := IntEnable.ofWord v }
  | .ctrl => if v.getLsbD 0 then resetEffect s else s
  | .sampleRate => { s with sampleRate := v.setWidth 32 }
  | .intervalUs => { s with intervalUs := v.setWidth 32 }
  | .timeUs => { s with timeUs := v }
  | .m => s
  | .n => s
  | .spb => s
  | .dt => s
  | .npeaks => s
  | .peakFloor => s
  | .caps => s
  | .fs => s

/-- A host write of an `IBUF` word and its side effects (20_memory.md R83 c, R87). -/
def writeIbuf (off : Nat) (v : Word) (s : State) : State := clearDerived { s with ibuf := s.ibuf.put off v }

/-- The effect of a write while the engine is idle (20_memory.md R83 b, c, d). -/
def writeLocation (loc : Location) (v : Word) (s : State) : State :=
  match loc with
  | .global r => writeGlobal r v s
  | .slot _ _ => s
  | .memory .ibuf off => writeIbuf off v s
  | .memory .fvec _ => s
  | .memory .peak _ => s
  | .memory (.mixer _) _ => s
  | .memory (.acc _) _ => s

/-- The targets a host may write while a command is pending (20_memory.md R83 a, 70_reset_and_hazards.md R300). -/
def writableWhileBusy (loc : Location) : Bool :=
  loc == .global .status || loc == .global .ie || loc == .global .ctrl

/-- `MemWrite(addr, size, v)` (20_memory.md R83, R84, 70_reset_and_hazards.md R300). -/
def hostWrite (addr : BitVec 32) (size : Nat) (v : Word) (s : State) : State :=
  match locate s addr size with
  | none => respond false none s
  | some loc =>
    if s.status.busy && !writableWhileBusy loc then setOvr (respond true none s)
    else respond true none (writeLocation loc v s)

end Sys2Proof.Machine
end

