-- ==== Sys2Proof/Machine/Engine.lean ====
section
/-! DEFINITION. The engine's completion step and one event of the machine (00_scope.md R8, 30_encoding.md R114). -/

namespace Sys2Proof.Machine

/-- The engine completes the pending command: it decodes `CMD` and runs the command, or raises `E_ILLCMD`
(30_encoding.md R114, R116). -/
def completePending (s : State) : Host.Outcome State Fault Refusal :=
  match decode s.cmd with
  | .ok i => exec i s
  | .error _ => .next (raiseErr .illCmd s)

/-- The engine's turn: it completes the pending command if there is one (30_encoding.md R114, log 3). -/
def engineTurn (s : State) : Host.Outcome State Fault Refusal :=
  if s.status.busy then completePending s else .next s

/-- One event (00_scope.md R8, 70_reset_and_hazards.md R290). -/
def runEvent (e : Event) (s : State) : Host.Outcome State Fault Refusal :=
  match e with
  | .read addr size => .next (hostRead addr size s)
  | .write addr size v => .next (hostWrite addr size v s)
  | .engine => engineTurn s
  | .resetInput => .next (resetEffect s)

/-- The machine moves: the next event of the schedule, or the engine once the environment has nothing more to do
(20_memory.md R90, log 2, log 3). -/
def advance (s : State) : Host.Outcome State Fault Refusal :=
  match s.schedule with
  | [] => engineTurn s
  | e :: rest => runEvent e { s with schedule := rest }

/-- The command word accepted as the pending command, the engine to move next (log 2). -/
def placeCommand (c : BitVec 32) (s : State) : State :=
  { acceptCommand c s with schedule := .engine :: s.schedule }

end Sys2Proof.Machine
end

