-- ==== Sys2Proof/Machine/Step.lean ====
section
/-! DEFINITION. One step of the machine (00_scope.md R8), and a command word placed where the next step runs it. -/

namespace Sys2Proof.Machine

/-- One step: a host read, a host write, the engine completing the pending command, or reset (00_scope.md R8). -/
def step (s : State) : Host.Outcome State Fault Refusal := advance s

/-- The command word placed as the pending command, so that the very next step decodes and runs it (10_state.md R34,
30_encoding.md R114, log 2). -/
def State.withFetchWord (s : State) (nbits w : Nat) : State := placeCommand (BitVec.ofNat 32 (w % 2 ^ nbits)) s

end Sys2Proof.Machine
end

