-- ==== Sys2Proof/Machine/Sequence.lean ====
section
/-! DEFINITION. The host software of 45_host_sequence.md over the machine: the registry, what the host does at a reset and
at a `PLAN`, and `PROCESS_CAPTURE`. Nothing here is ZCORE hardware and nothing here is part of `State` (log 17). -/

namespace Sys2Proof.Machine

/-- A UTC time as the record form of 45_host_sequence.md R250 shows it: `YYYY-MM-DD HH:MM:SS`. -/
structure UtcTime where
  year : Nat
  month : Nat
  day : Nat
  hour : Nat
  minute : Nat
  second : Nat
deriving DecidableEq, Repr

/-- The decoded record of 45_host_sequence.md R250, field by field, as data; its text form is out of scope
(00_scope.md R5 c). -/
structure PassRecord where
  passHeader : BitVec 3
  tagType : BitVec 3
  appId : BitVec 3
  groupId : BitVec 7
  agencyId : BitVec 7
  serialNum : BitVec 24
  lastSeenAt : BitVec 64
  nrSamples : BitVec 32
  centerFreqDelta : F64
  seenAt : UtcTime
deriving DecidableEq, Repr

/-- What the spec leaves to the host. `MAX_AGE_US` is a parameter (00_scope.md R10); which free slot a new hypothesis
gets and in which order the reap pass visits the registry are open (93_implementation_defined.md U11); so is the clock
`seenAt` is taken from (45_host_sequence.md R250). All four are arguments of the procedures below (log 17). -/
structure HostChoices where
  /-- `MAX_AGE_US` -/
  maxAgeUs : BitVec 64
  /-- the slot for a new hypothesis, from the free ones -/
  freeSlot : List Nat → Nat
  /-- the order of the reap pass, from the registry -/
  reapOrder : List (Nat × Nat) → List (Nat × Nat)
  /-- what the host's clock shows when record number `n` is emitted -/
  seenAt : Nat → UtcTime

/-- What the host keeps (45_host_sequence.md R235): the registry, from physical bin to slot, and the sink. -/
structure HostSide where
  reg : List (Nat × Nat)
  sink : List PassRecord
deriving DecidableEq, Repr

/-- The host and the machine together. -/
structure System where
  host : HostSide
  machine : State
deriving DecidableEq, Repr

/-- The host and the machine after reset, before the first capture (45_host_sequence.md R235): an empty registry, nothing
emitted. -/
def System.reset : System := ⟨⟨[], []⟩, State.reset⟩

/-- One event performed on the machine. No event stops the machine, so the last case never arises. -/
def perform (e : Event) (s : State) : State :=
  match runEvent e s with
  | .next t => t
  | .fault _ => s
  | .refused _ => s

/-- `WR` of the global register at an offset (30_encoding.md R118). -/
def wrGlobal (off : Nat) (v : Word) (s : State) : State := perform (.write (BitVec.ofNat 32 off) 8 v) s

/-- `WRC i, x`: two writes, the real word first (30_encoding.md R118). -/
def wrc (i : Nat) (x : C64) (s : State) : State :=
  perform (.write (BitVec.ofNat 32 (RegionId.ibuf.base + 16 * i + 8)) 8 x.im)
    (perform (.write (BitVec.ofNat 32 (RegionId.ibuf.base + 16 * i)) 8 x.re) s)

/-- The radio fills the buffer from entry `i` on (45_host_sequence.md R253). -/
def fillFrom (i : Nat) : List C64 → State → State
  | [], s => s
  | x :: xs, s => fillFrom (i + 1) xs (wrc i x s)

/-- `RUN` of a command word (30_encoding.md R118): write `CMD`, then wait until the engine has completed it. The wait's
reads of `STATUS` change nothing (20_memory.md R82). -/
def runWord (c : BitVec 32) (s : State) : State := perform .engine (wrGlobal 0 (c.setWidth 64) s)

/-- `RUN` of a command (30_encoding.md R118). -/
def run (i : Instr) (s : State) : State := runWord (encode i) s

/-- `RD PEAK[p].bin` (20_memory.md R85). Reads of an idle machine change nothing but the response, so the procedure
takes the value a read returns. -/
def rdPeakBin (s : State) (p : Nat) : Nat := (s.hostWord .peak (32 * p)).toNat

/-- The host forgets every hypothesis (45_host_sequence.md R235); the sink is append-only. -/
def HostSide.forget (h : HostSide) : HostSide := { h with reg := [] }

/-- The host resets the machine through `CTRL.SRST` (45_host_sequence.md R235, R251): the registry is empty afterwards. -/
def hostReset (y : System) : System := ⟨y.host.forget, wrGlobal 0x018 1 y.machine⟩

/-- The platform asserts the reset input (70_reset_and_hazards.md R290): the registry is empty afterwards
(45_host_sequence.md R235). -/
def hostResetInput (y : System) : System := ⟨y.host.forget, perform .resetInput y.machine⟩

/-- `RUN PLAN` by the host: the registry is empty afterwards, matching the slots, whether or not the command succeeds
(45_host_sequence.md R235, 40_fft.md R132, R133). -/
def hostPlan (y : System) : System := ⟨y.host.forget, run .plan y.machine⟩

/-- The host's startup (45_host_sequence.md R251): write the sample rate and the interval, plan. -/
def hostStartup (sampleRate intervalUs : BitVec 32) (y : System) : System :=
  hostPlan { y with
    machine := wrGlobal 0x028 (intervalUs.setWidth 64) (wrGlobal 0x020 (sampleRate.setWidth 64) y.machine) }

/-- The slots that hold no hypothesis. -/
def freeSlots (s : State) : List Nat := (List.range s.nslots).filter fun i => !(s.slot i).valid

/-- The host's choice of a free slot (45_host_sequence.md R236, R239): the one it names when that one is free, else the
first free one, else none. Any choice is legal (93_implementation_defined.md U11, log 17). -/
def chooseSlot (h : HostChoices) (s : State) : Option Nat :=
  if h.freeSlot (freeSlots s) ∈ freeSlots s then some (h.freeSlot (freeSlots s)) else (freeSlots s).head?

/-- The decoded record of a slot (45_host_sequence.md R250), emitted when the host's clock shows `seenAt`. -/
def recordOf (seenAt : UtcTime) (x : Slot) : PassRecord where
  passHeader := x.header
  tagType := x.tagType
  appId := x.appId
  groupId := x.groupId
  agencyId := x.agencyId
  serialNum := x.serialNumber
  lastSeenAt := x.lastSeenUs
  nrSamples := x.sampleCount
  centerFreqDelta := x.freqOffset
  seenAt := seenAt

/-- Emission of a record (45_host_sequence.md R235 c, R243). -/
def HostSide.emit (h : HostSide) (r : PassRecord) : HostSide := { h with sink := h.sink ++ [r] }

/-- The registry without a key. -/
def HostSide.drop (h : HostSide) (b : Nat) : HostSide := { h with reg := h.reg.filter fun e => e.1 != b }

/-- `RUN CTXFREE i; remove b from reg` (45_host_sequence.md R236, R242, R245). -/
def release (b i : Nat) (y : System) : System := ⟨y.host.drop b, run (.ctxfree i) y.machine⟩

/-- A decode attempt, with the record it emits when `RESULT` is 1 (45_host_sequence.md R236, R243). -/
def attemptDecode (h : HostChoices) (i : Nat) (y : System) : System :=
  let t := run (.decode i) y.machine
  ⟨if t.status.result then y.host.emit (recordOf (h.seenAt y.host.sink.length) (t.slot i)) else y.host, t⟩

/-- The eviction and decode policy after an accumulation (45_host_sequence.md R237, R242, R243). -/
def applyPolicy (h : HostChoices) (b i : Nat) (y : System) : System :=
  let x := y.machine.slot i
  if !x.decoded && decide (Config.evictAfter < x.sampleCount.toNat) then release b i y
  else if !x.decoded && decide (Config.decodeAfter < x.sampleCount.toNat) then attemptDecode h i y
  else y

/-- One sighting of a tracked bin (45_host_sequence.md R236): accumulate, then the policy. -/
def sight (h : HostChoices) (b i p : Nat) (y : System) : System :=
  applyPolicy h b i ⟨y.host, run (.accum i p) y.machine⟩

/-- A new hypothesis (45_host_sequence.md R236, R240): `RUN CTXINIT i, p; reg[b] <- i`. -/
def track (b i p : Nat) (y : System) : System :=
  ⟨{ y.host with reg := y.host.reg ++ [(b, i)] }, run (.ctxinit i p) y.machine⟩

/-- One peak of a capture (45_host_sequence.md R236, R239, R240). -/
def visitPeak (h : HostChoices) (y : System) (p : Nat) : System :=
  let b := rdPeakBin y.machine p
  match y.host.reg.lookup b with
  | some i => sight h b i p y
  | none =>
    match chooseSlot h y.machine with
    | none => y
    | some i => sight h b i p (track b i p y)

/-- The reap test (45_host_sequence.md R245): strictly older than the limit, never when time ran backwards. -/
def isStale (maxAgeUs now : Nat) (lastSeen : BitVec 64) : Bool :=
  decide (lastSeen.toNat ≤ now) && decide (maxAgeUs < now - lastSeen.toNat)

/-- The reap pass on one registry entry (45_host_sequence.md R236 step 4, R245). -/
def reapEntry (h : HostChoices) (now : Nat) (y : System) (e : Nat × Nat) : System :=
  if isStale h.maxAgeUs.toNat now (y.machine.slot e.2).lastSeenUs then release e.1 e.2 y else y

/-- The registry in the order the reap pass visits it: the order the host names when that is a reordering of the registry,
else the registry's own. Any order is legal (93_implementation_defined.md U11, log 17). -/
def reapList (h : HostChoices) (reg : List (Nat × Nat)) : List (Nat × Nat) :=
  if (h.reapOrder reg).isPerm reg then h.reapOrder reg else reg

/-- The reap pass (45_host_sequence.md R236 step 4, R245). -/
def reap (h : HostChoices) (now : Nat) (y : System) : System :=
  (reapList h y.host.reg).foldl (reapEntry h now) y

/-- `PROCESS_CAPTURE at` (45_host_sequence.md R236, 30_encoding.md R119): transform, find peaks, visit each peak in
ascending raw-bin order, reap. Which free slot a new hypothesis gets, the order of the reap pass, the maximum age and the
clock of the records are the caller's (93_implementation_defined.md U11, log 17). -/
def processCapture (h : HostChoices) (now : BitVec 64) (y : System) : System :=
  let found := run .peaks (run .fft (wrGlobal 0x030 now y.machine))
  reap h now.toNat ((List.range found.npeaks.toNat).foldl (visitPeak h) ⟨y.host, found⟩)

end Sys2Proof.Machine
end

