-- ==== Sys2Proof/Safety.lean ====
section
/-! DEFINITION. The invariants of the machine, in the terms claims use: what the spec says holds of every state a run
reaches (10_state.md R44 to R70, 60_exceptions.md R262). -/

namespace Sys2Proof.Safety

open Sys2Proof.Machine

/-- What holds of a slot (10_state.md R54, R59 to R62, R70, 43_crc16_frame.md R200, R203). -/
structure SlotOk (planValid : Bool) (x : Slot) : Prop where
  /-- a valid slot implies a valid plan (60_exceptions.md R263) -/
  needsPlan : x.valid = true → planValid = true
  /-- every register of an invalid slot reads 0 (10_state.md R54) -/
  freeReadsZero : x.valid = false → x = Slot.empty x.mixer x.acc
  /-- a decoded slot holds 256 bits (10_state.md R60) -/
  decodedComplete : x.decoded = true → x.bitcnt = 256
  /-- at most 256 bits (10_state.md R59) -/
  bitcntBound : x.bitcnt.toNat ≤ 256
  /-- positions at and above `BITCNT` read 0 (10_state.md R62) -/
  beyondCount : ∀ j, x.bitcnt.toNat ≤ j → x.frameBit j = false
  /-- the first bit is 1 (43_crc16_frame.md R200) -/
  firstBit : x.bitcnt ≠ 0 → x.frameBit 0 = true
  /-- a complete frame carries its own CRC, fields and validity (42_slicer_mfm.md R171, 43_crc16_frame.md R203, R207) -/
  complete : x.bitcnt = 256 → x = x.withFields x.frameBits
  /-- the regions are in canonical form -/
  regions : memoryWf x.mixer.cells = true ∧ memoryWf x.acc.cells = true

/-- The latched configuration comes from a successful `PLAN` (10_state.md R44, R50). -/
def Planned (s : State) : Prop :=
  ∃ t : BitVec 32,
    planConfigBad s.fs.toNat t.toNat = false ∧ planTooLong s.fs.toNat t.toNat s.nMax = false ∧
    s.m.toNat = planM s.fs.toNat t.toNat ∧ s.n.toNat = nextPow2 s.m.toNat ∧
    s.spb.toNat = planSpb s.fs.toNat ∧ s.dt = planDt t.toNat s.m.toNat

/-- What holds of every state a run reaches. -/
structure Inv (s : State) : Prop where
  /-- the build parameters lie in their ranges (00_scope.md R10) -/
  parameters : 2 ≤ s.log2NMax ∧ s.log2NMax ≤ 17 ∧ 1 ≤ s.nslots ∧ s.nslots ≤ 256
  /-- the memories are in canonical form -/
  regions : memoryWf s.ibuf.cells = true ∧ memoryWf s.fvec.cells = true ∧ memoryWf s.peak.cells = true
  /-- `PEAKS_VALID = 1` implies `FVEC_VALID = 1` implies `PLAN_VALID = 1` (10_state.md R46) -/
  validChain : (s.status.peaksValid = true → s.status.fvecValid = true) ∧
    (s.status.fvecValid = true → s.status.planValid = true)
  /-- with a valid plan the latched values are a plan's (10_state.md R50) -/
  planned : s.status.planValid = true → Planned s
  /-- without one all five read 0 (10_state.md R50) -/
  unplanned : s.status.planValid = false → s.m = 0 ∧ s.n = 0 ∧ s.spb = 0 ∧ s.dt = 0 ∧ s.fs = 0
  /-- `NPEAKS` is 0 without a peak list and at most `N/2 - 1` with one (10_state.md R51) -/
  peakCount : (s.status.peaksValid = false → s.npeaks = 0) ∧ s.npeaks.toNat ≤ s.n.toNat / 2 - 1
  /-- `ERRCODE` is 0 exactly without an error, and one of the eleven codes (60_exceptions.md R262) -/
  errors : (s.status.err = false ↔ s.status.errcode = 0) ∧ s.status.errcode.toNat ≤ 0x0B
  /-- while a command is pending `DONE` and `RESULT` are 0 (10_state.md R34) -/
  pending : s.status.busy = true → s.status.done = false ∧ s.status.result = false
  /-- every slot is as it should be -/
  slots : ∀ x ∈ s.slots, SlotOk s.status.planValid x

/-- `FVEC_VALID = 1`: the frequency vector is the transform of the present `IBUF` (10_state.md R45). -/
def FvecCurrent (s : State) : Prop :=
  s.status.fvecValid = true →
    ∀ k, k < s.n.toNat → s.fvecAt k = (NUM.fft s.n.toNat (fftInput s)).getD k C64.zero

/-- `PEAKS_VALID = 1`: the peak list is that of the present `FVEC` (10_state.md R46). -/
def PeaksCurrent (s : State) : Prop :=
  s.status.peaksValid = true →
    s.npeaks.toNat = (peakBins s).length ∧
    ∀ p, p < (peakBins s).length → s.peakAt p = peakEntry s ((peakBins s).getD p 0)

/-- A valid slot's mixer is that of its frequency offset (41_mixer_accumulator.md R152). -/
def MixersCurrent (s : State) : Prop :=
  ∀ i, (s.slot i).valid = true → ∀ j, j < s.m.toNat → s.mixerAt i j = NUM.mixer (s.slot i).freqOffset j s.dt

/-- Every listed byte of a region lies below a bound. -/
def cellsBelow (bound : Nat) (m : List Host.Cell) : Prop := ∀ c ∈ m, c.1 < bound

/-- Every region holds bytes only where the address map has the region (20_memory.md R81, R88). -/
def RegionsBounded (s : State) : Prop :=
  cellsBelow (16 * s.nMax) s.ibuf.cells ∧ cellsBelow (16 * s.nMax) s.fvec.cells ∧
  cellsBelow (16 * s.nMax) s.peak.cells ∧
  ∀ x ∈ s.slots, cellsBelow (16 * s.nMax) x.mixer.cells ∧ cellsBelow (16 * s.nMax) x.acc.cells

end Sys2Proof.Safety
end

