-- ==== Sys2Proof/Certificates/Slice0/Obligations.lean ====
section
/-! DEFINITION. The statements for the provers. Each docstring names the rule of spec/ it formalises. -/

open Sys2Proof Sys2Proof.Machine Sys2Proof.Safety

/-! ### Words the statements use -/

/-- `STATUS` of a command that ended, before the flags of its own (30_encoding.md R114 d). -/
def Sys2Proof.Claims.ended (st : Status) : Status := { st with busy := false, done := true }

/-- `STATUS` of a command that ended with an error code (60_exceptions.md R261, 10_state.md R38): the first error is
kept. -/
def Sys2Proof.Claims.erred (c : BitVec 8) (st : Status) : Status :=
  { st with busy := false, done := true, err := true, errcode := if st.err then st.errcode else c }

/-- The next state of a command that ends with an error code and does nothing else (60_exceptions.md R261). -/
def Sys2Proof.Claims.onlyErred (c : BitVec 8) (s : State) : State :=
  { s with status := Sys2Proof.Claims.erred c s.status }

/-- Every slot of the list reads 0 in every register (10_state.md R54). -/
def Sys2Proof.Claims.allFree (slots : List Slot) : Prop := ∀ x ∈ slots, ∃ r q, x = Slot.empty r q

/-- The two entries agree byte for byte outside the first `count` bytes. -/
def Sys2Proof.Claims.sameBeyond (count : Nat) (r q : Region) : Prop :=
  ∀ a, count ≤ a → readByte q.cells a = readByte r.cells a

/-- The global registers and their offsets, written out (10_state.md R33). -/
def Sys2Proof.Claims.globalOffsets : List (Nat × GlobalReg) :=
  [(0x000, .cmd), (0x008, .status), (0x010, .ie), (0x018, .ctrl), (0x020, .sampleRate), (0x028, .intervalUs),
    (0x030, .timeUs), (0x038, .m), (0x040, .n), (0x048, .spb), (0x050, .dt), (0x058, .npeaks), (0x060, .peakFloor),
    (0x068, .caps), (0x070, .fs)]

/-- The registers of a slot and their offsets in its block, written out (10_state.md R53). -/
def Sys2Proof.Claims.slotOffsets : List (Nat × SlotReg) :=
  [(0x00, .ctxStatus), (0x08, .bin), (0x10, .freqOffset), (0x18, .sampleCount), (0x20, .lastSeenUs), (0x28, .bitcnt),
    (0x30, .crc), (0x38, .header), (0x40, .tagType), (0x48, .appId), (0x50, .groupId), (0x58, .agencyId),
    (0x60, .serialNumber), (0x80, .frame0), (0x88, .frame1), (0x90, .frame2), (0x98, .frame3)]

/-- The address is that of the word at an offset of a region of `16 × N_MAX` bytes (20_memory.md R81); in `PEAK` these
are `32 × P_MAX`. -/
def Sys2Proof.Claims.inRegion (s : State) (a region off : Nat) : Prop :=
  a / 2 ^ 21 = region ∧ a % 2 ^ 21 = off ∧ off % 8 = 0 ∧ off < 16 * 2 ^ s.log2NMax

/-- Which address names what, with `region = addr[31:21]` and `off = addr[20:0]` (20_memory.md R81, 10_state.md R33,
R53). -/
def Sys2Proof.Claims.Names (s : State) (a : Nat) : Location → Prop
  | .global r => a / 2 ^ 21 = 0 ∧ (a % 2 ^ 21, r) ∈ Sys2Proof.Claims.globalOffsets
  | .slot i r =>
    a / 2 ^ 21 = 4 ∧ a % 2 ^ 21 / 0x100 = i ∧ i < s.slots.length ∧
      (a % 2 ^ 21 % 0x100, r) ∈ Sys2Proof.Claims.slotOffsets
  | .memory .ibuf off => Sys2Proof.Claims.inRegion s a 1 off
  | .memory .fvec off => Sys2Proof.Claims.inRegion s a 2 off
  | .memory .peak off => Sys2Proof.Claims.inRegion s a 3 off
  | .memory (.mixer i) off => i < s.slots.length ∧ Sys2Proof.Claims.inRegion s a (5 + 2 * i) off
  | .memory (.acc i) off => i < s.slots.length ∧ Sys2Proof.Claims.inRegion s a (6 + 2 * i) off

/-- What a read of a global register returns, as a number (10_state.md R33 to R52). -/
def Sys2Proof.Claims.globalValue (s : State) : GlobalReg → Nat
  | .cmd => s.cmd.toNat
  | .status =>
    s.status.busy.toNat + 2 * s.status.done.toNat + 4 * s.status.err.toNat + 8 * s.status.ovr.toNat +
      16 * s.status.planValid.toNat + 32 * s.status.fvecValid.toNat + 64 * s.status.peaksValid.toNat +
      128 * s.status.result.toNat + 256 * s.status.errcode.toNat
  | .ie => 2 * s.ie.doneIe.toNat + 4 * s.ie.errIe.toNat + 8 * s.ie.ovrIe.toNat
  | .ctrl => 0
  | .sampleRate => s.sampleRate.toNat
  | .intervalUs => s.intervalUs.toNat
  | .timeUs => s.timeUs.toNat
  | .m => s.m.toNat
  | .n => s.n.toNat
  | .spb => s.spb.toNat
  | .dt => s.dt.toNat
  | .npeaks => s.npeaks.toNat
  | .peakFloor => 0x407F400000000000
  | .caps => s.log2NMax % 2 ^ 8 + 2 ^ 8 * (s.slots.length % 2 ^ 9)
  | .fs => s.fs.toNat

/-- What a read of a slot register returns, as a number (10_state.md R53 to R62). -/
def Sys2Proof.Claims.slotValue (x : Slot) : SlotReg → Nat
  | .ctxStatus => x.valid.toNat + 2 * x.decoded.toNat
  | .bin => x.bin.toNat
  | .freqOffset => x.freqOffset.toNat
  | .sampleCount => x.sampleCount.toNat
  | .lastSeenUs => x.lastSeenUs.toNat
  | .bitcnt => x.bitcnt.toNat
  | .crc => x.crc.toNat
  | .header => x.header.toNat
  | .tagType => x.tagType.toNat
  | .appId => x.appId.toNat
  | .groupId => x.groupId.toNat
  | .agencyId => x.agencyId.toNat
  | .serialNumber => x.serialNumber.toNat
  | .frame0 => x.frame0.toNat
  | .frame1 => x.frame1.toNat
  | .frame2 => x.frame2.toNat
  | .frame3 => x.frame3.toNat

/-- The word of a complex entry at an even (real) or odd (imaginary) word of its region (20_memory.md R85). -/
def Sys2Proof.Claims.entryWord (x : C64) (off : Nat) : Word := if off % 16 = 0 then x.re else x.im

/-- What an idle machine's word of a memory region is, where the spec defines it (10_state.md R64 to R68, 20_memory.md
R85): any word of `IBUF`, the entries of a valid frequency vector and of a valid peak list, the first `M` entries of a
valid slot's mixer and accumulator. -/
def Sys2Proof.Claims.Holds (s : State) (w : Word) (off : Nat) : RegionId → Prop
  | .ibuf => w = Sys2Proof.Claims.entryWord (s.ibufAt (off / 16)) off
  | .fvec =>
    s.status.fvecValid = true → off / 16 < s.n.toNat → w = Sys2Proof.Claims.entryWord (s.fvecAt (off / 16)) off
  | .peak =>
    s.status.peaksValid = true → off / 32 < s.npeaks.toNat →
      (off % 32 = 0 → w.setWidth 32 = (s.peakAt (off / 32)).bin) ∧
      (off % 32 = 8 → w = (s.peakAt (off / 32)).freq) ∧
      (off % 32 = 16 → w = (s.peakAt (off / 32)).value.re) ∧
      (off % 32 = 24 → w = (s.peakAt (off / 32)).value.im)
  | .mixer i =>
    (s.slot i).valid = true → off / 16 < s.m.toNat → w = Sys2Proof.Claims.entryWord (s.mixerAt i (off / 16)) off
  | .acc i =>
    (s.slot i).valid = true → off / 16 < s.m.toNat → w = Sys2Proof.Claims.entryWord (s.accAt i (off / 16)) off

/-- The largest finite binary64 value and half the step to the next one, in units of 2^-1074: an exact magnitude of at
least this rounds to an infinity (00_scope.md R15). -/
def Sys2Proof.Claims.overflowUnits : Nat := (2 ^ 54 - 1) * 2 ^ 2044

open Sys2Proof.Claims

/-! ### Encoding and the step -/

/-- A few words written out from 30_encoding.md R111 to R113 and R117, and some illegal ones of R116. -/
def Obligations.WrittenWordsDecode : Prop :=
  decode 0b00000000000000000000000000000000#32 = .ok .nop ∧
  decode 0b00000001000000000000000000000000#32 = .ok .plan ∧
  decode 0b00000010000000000000000000000000#32 = .ok .fft ∧
  decode 0b00000011000000000000000000000000#32 = .ok .peaks ∧
  decode 0b00010000000000110000000000000000#32 = .ok (.ctxinit 3 0) ∧
  decode 0b00010001000000110000000000000111#32 = .ok (.accum 3 7) ∧
  decode 0b00010010111111110000000000000000#32 = .ok (.decode 255) ∧
  decode 0b00010011000000100000000000000000#32 = .ok (.ctxfree 2) ∧
  decode 0x01000001#32 = .error (.unusedFieldNotZero 0x01) ∧
  decode 0x12050001#32 = .error (.unusedFieldNotZero 0x12) ∧
  decode 0x04000000#32 = .error (.unknownOpcode 0x04)

/-- Decoding an encoded well-formed command gives it back, for every operand its fields admit (30_encoding.md R111 to
R113). -/
def Obligations.DecodeEncodeRoundTrip : Prop :=
  ∀ i : Instr, i.WellFormed → decode (encode i) = .ok i

/-- Every legal word is the encoding of the well-formed command it decodes to: decoding drops no bit (30_encoding.md
R111 to R113). -/
def Obligations.EncodeDecodeRoundTrip : Prop :=
  ∀ (c : BitVec 32) (i : Instr), decode c = .ok i → i.WellFormed ∧ encode i = c

/-- A word decodes to a command exactly when it selects a row of the opcode map; the row is that command's, and no
other row is selected (30_encoding.md R113, R116). -/
def Obligations.DecodeSelectsOpcodeRow : Prop :=
  ∀ c : BitVec 32,
    (∀ i, decode c = .ok i →
      ∃ r ∈ opcodeMap, r.mnemonic = i.mnemonic ∧ r.selects c = true ∧
        ∀ q ∈ opcodeMap, q.selects c = true → q = r) ∧
    ((∃ e, decode c = .error e) ↔ ∀ r ∈ opcodeMap, r.selects c = false)

/-- A step on a pending command that decodes to `i` is `exec i`: on the engine's turn in the schedule, and when the
schedule is empty (30_encoding.md R114). The schedule is the model's (log 2). -/
def Obligations.StepRunsPendingCommand : Prop :=
  ∀ (s : State) (i : Instr), s.status.busy = true → decode s.cmd = .ok i →
    (∀ rest, s.schedule = .engine :: rest → step s = exec i { s with schedule := rest }) ∧
    (s.schedule = [] → step s = exec i s)

/-- A well-formed command placed by `withFetchWord` is run by the very next step. The placing is the MODEL's (log 2,
DESIGN CHOICE): it stands for the host's write of `CMD`, changes what 10_state.md R34 says an accepted write changes, and,
unlike that write, takes effect even while `BUSY = 1`, where R34 and 70_reset_and_hazards.md R300 drop a write. -/
def Obligations.PlacedCommandRunsNext : Prop :=
  ∀ (s : State) (i : Instr), i.WellFormed →
    step (s.withFetchWord 32 (encode i).toNat) =
      exec i { s with cmd := encode i, status := { s.status with busy := true, done := false, result := false } }

/-- No state and no command stops the machine (60_exceptions.md R260, R267). -/
def Obligations.StepAlwaysAnswersNext : Prop :=
  ∀ s : State, ∃ t, step s = .next t

/-! ### Errors -/

/-- The errors each command can raise, in the order they are checked, each leaving everything but `STATUS` as it was
(60_exceptions.md R261 to R264); those of `PLAN` are stated in `PlanFailureClears`. -/
def Obligations.CommandErrorsInFixedOrder : Prop :=
  ∀ (s : State) (k p : Nat),
    ((∀ r ∈ opcodeMap, r.selects s.cmd = false) → completePending s = .next (onlyErred 0x01 s)) ∧
    (s.status.planValid = false →
      exec .fft s = .next (onlyErred 0x04 s) ∧ exec .peaks s = .next (onlyErred 0x04 s) ∧
      exec (.ctxinit k p) s = .next (onlyErred 0x04 s) ∧ exec (.accum k p) s = .next (onlyErred 0x04 s) ∧
      exec (.decode k) s = .next (onlyErred 0x04 s)) ∧
    (s.status.planValid = true →
      (s.status.fvecValid = false → exec .peaks s = .next (onlyErred 0x05 s)) ∧
      (s.status.peaksValid = false →
        exec (.ctxinit k p) s = .next (onlyErred 0x06 s) ∧ exec (.accum k p) s = .next (onlyErred 0x06 s)) ∧
      (s.status.peaksValid = true →
        (s.nslots ≤ k →
          exec (.ctxinit k p) s = .next (onlyErred 0x08 s) ∧ exec (.accum k p) s = .next (onlyErred 0x08 s)) ∧
        (k < s.nslots → s.npeaks.toNat ≤ p →
          exec (.ctxinit k p) s = .next (onlyErred 0x07 s) ∧ exec (.accum k p) s = .next (onlyErred 0x07 s)) ∧
        (k < s.nslots → p < s.npeaks.toNat →
          ((s.slot k).valid = true → exec (.ctxinit k p) s = .next (onlyErred 0x0A s)) ∧
          ((s.slot k).valid = false → exec (.accum k p) s = .next (onlyErred 0x09 s)) ∧
          ((s.slot k).valid = true → (s.peakAt p).bin ≠ (s.slot k).bin →
            exec (.accum k p) s = .next (onlyErred 0x0B s)))) ∧
      (s.nslots ≤ k → exec (.decode k) s = .next (onlyErred 0x08 s)) ∧
      (k < s.nslots → (s.slot k).valid = false → exec (.decode k) s = .next (onlyErred 0x09 s))) ∧
    (s.nslots ≤ k → exec (.ctxfree k) s = .next (onlyErred 0x08 s))

/-- A failed `PLAN` (40_fft.md R133): `E_CONFIG` when the rate is zero, or there are fewer than two samples per bit or
fewer than two samples; else `E_PLAN` when the least power of two not below `M` is above `N_MAX`. Either way the
configuration reads 0, the valid flags fall and every slot is freed. -/
def Obligations.PlanFailureClears : Prop :=
  ∀ (s : State) (fs t m : Nat), fs = s.sampleRate.toNat → t = s.intervalUs.toNat →
    m = (fs * t + 500000) / 1000000 →
    ∀ c : BitVec 8,
      ((fs = 0 ∨ fs / 500000 < 2 ∨ m < 2) ∧ c = 0x02) ∨
      (¬(fs = 0 ∨ fs / 500000 < 2 ∨ m < 2) ∧ (∀ k, m ≤ 2 ^ k → s.nMax < 2 ^ k) ∧ c = 0x03) →
    ∃ slots,
      exec .plan s = .next
        { s with
          m := 0, n := 0, spb := 0, fs := 0, dt := 0, npeaks := 0, slots := slots, draw := s.draw + 1
          status :=
            { erred c s.status with planValid := false, fvecValid := false, peaksValid := false } } ∧
      slots.length = s.nslots ∧ allFree slots

/-! ### NOP, PLAN, FFT -/

/-- `NOP` completes and changes nothing else; after reset it leaves `STATUS = 0x02` (40_fft.md R131). -/
def Obligations.NopOnlyCompletes : Prop :=
  (∀ s : State, exec .nop s = .next { s with status := ended s.status }) ∧
  (∃ t, step (State.reset.withFetchWord 32 0x00000000) = .next t ∧ readGlobal t .status = 0x02)

/-- `next_pow2(m)` is the least power of two not below `m`, with the rule's examples (40_fft.md R134). -/
def Obligations.NextPow2IsLeast : Prop :=
  (∀ m, 1 ≤ m → ∃ k, nextPow2 m = 2 ^ k ∧ m ≤ 2 ^ k ∧ ∀ j, m ≤ 2 ^ j → 2 ^ k ≤ 2 ^ j) ∧
  nextPow2 1 = 1 ∧ nextPow2 2 = 2 ∧ nextPow2 3 = 4 ∧ nextPow2 1800 = 2048 ∧ nextPow2 2048 = 2048 ∧
  nextPow2 2049 = 4096

/-- A successful `PLAN` (40_fft.md R132): what it latches, that it frees every slot, and that it changes nothing
else. `2^k` is the least power of two not below `M`. -/
def Obligations.PlanLatchesConfiguration : Prop :=
  ∀ (s : State) (fs t m k : Nat), fs = s.sampleRate.toNat → t = s.intervalUs.toNat →
    m = (fs * t + 500000) / 1000000 → 2 ≤ fs / 500000 → 2 ≤ m →
    m ≤ 2 ^ k → (∀ j, m ≤ 2 ^ j → k ≤ j) → 2 ^ k ≤ s.nMax →
    ∃ slots,
      exec .plan s = .next
        { s with
          m := BitVec.ofNat 32 m
          n := BitVec.ofNat 32 (2 ^ k)
          spb := BitVec.ofNat 32 (fs / 500000)
          fs := s.sampleRate
          dt := fdiv (fmul (u2f t) 0x3EB0C6F7A0B5ED8D#64) (u2f (m - 1))
          npeaks := 0, slots := slots, draw := s.draw + 1
          status := { ended s.status with planValid := true, fvecValid := false, peaksValid := false } } ∧
      slots.length = s.nslots ∧ allFree slots

/-- `FFT` (40_fft.md R136, R135): with a valid plan `FVEC[0..N-1]` becomes the transform of `IBUF[0..M-1]` padded with
zeros, the flags follow, no byte of `FVEC` beyond entry `N-1` changes, and nothing else does. -/
def Obligations.FftWritesTransform : Prop :=
  ∀ s : State, s.status.planValid = true →
    ∃ fvec : Region,
      exec .fft s = .next
        { s with
          fvec := fvec, npeaks := 0, draw := s.draw + 1
          status := { ended s.status with fvecValid := true, peaksValid := false } } ∧
      (∀ k, k < s.n.toNat →
        fvec.c64 RegionId.fvec.base k =
          (NUM.fft s.n.toNat
            ((List.range s.n.toNat).map fun i => if i < s.m.toNat then s.ibufAt i else ⟨0, 0⟩)).getD k ⟨0, 0⟩) ∧
      sameBeyond (16 * s.n.toNat) s.fvec fvec

/-- The transform does not read `IBUF` at `M` and above: two buffers that agree below give the same frequency vector
(40_fft.md R135). -/
def Obligations.FftIgnoresSamplesBeyondM : Prop :=
  ∀ (s t : State) (ibuf : Region), s.status.planValid = true →
    (∀ i, i < s.m.toNat → ibuf.c64 RegionId.ibuf.base i = s.ibufAt i) →
    exec .fft s = .next t →
    exec .fft { s with ibuf := ibuf } = .next { t with ibuf := ibuf }

/-- What the transform does to zeros and to non-finite samples. An all-zero `IBUF[0..M-1]` gives an all-zero
`FVEC[0..N-1]`, whatever the signs of the zeros (40_fft.md R136, 00_scope.md R22 b). A NaN among the samples gives every
element of `FVEC[0..N-1]` a NaN component, an infinity a non-finite one, without a trap (R24); and a `PEAKS` run then finds
no peak (44_peak_detector.md R228). That the propagation reaches every element is DEDUCED (log 7); the magnitudes `PEAKS`
compares are those of the model's choice of `NUM.cabs`, the default of R19 (log 6, DESIGN CHOICE). -/
def Obligations.FftOfZerosAndNonFinite : Prop :=
  (∀ s : State, s.status.planValid = true →
    (∀ i, i < s.m.toNat → isZero (s.ibufAt i).re = true ∧ isZero (s.ibufAt i).im = true) →
    ∃ t, exec .fft s = .next t ∧
      ∀ k, k < s.n.toNat → isZero (t.fvecAt k).re = true ∧ isZero (t.fvecAt k).im = true) ∧
  ∀ (s : State) (i : Nat), s.status.planValid = true → i < s.m.toNat → i < s.n.toNat →
    ∃ t, exec .fft s = .next t ∧
      (isNaN (s.ibufAt i).re = true ∨ isNaN (s.ibufAt i).im = true →
        ∀ k, k < s.n.toNat → isNaN (t.fvecAt k).re = true ∨ isNaN (t.fvecAt k).im = true) ∧
      (isFinite (s.ibufAt i).re = false ∨ isFinite (s.ibufAt i).im = false →
        (∀ k, k < s.n.toNat → isFinite (t.fvecAt k).re = false ∨ isFinite (t.fvecAt k).im = false) ∧
        ∃ u, exec .peaks t = .next u ∧ u.npeaks = 0 ∧ u.status.peaksValid = true)

/-- No command writes `IBUF` (40_fft.md R137). -/
def Obligations.NoCommandWritesIbuf : Prop :=
  ∀ (i : Instr) (s t : State), exec i s = .next t → t.ibuf = s.ibuf

/-! ### PEAKS -/

/-- `PEAKS` (44_peak_detector.md R221 to R224): with a valid plan and vector, the list of strict local maxima above 500.0
among raw bins `1..N-2`, ascending, each with its physical bin, its frequency and its unrotated value; no byte of
`PEAK` beyond the list changes, and nothing else does. -/
def Obligations.PeaksWritesTheList : Prop :=
  ∀ s : State, s.status.planValid = true → s.status.fvecValid = true →
    ∃ (peak : Region) (raw : List Nat),
      raw = (List.range' 1 (s.n.toNat - 2)).filter (fun i =>
        fgt (NUM.cabs (s.fvecAt i)) (NUM.cabs (s.fvecAt (i - 1))) &&
        fgt (NUM.cabs (s.fvecAt i)) (NUM.cabs (s.fvecAt (i + 1))) &&
        fgt (NUM.cabs (s.fvecAt i)) 0x407F400000000000#64) ∧
      exec .peaks s = .next
        { s with
          peak := peak, npeaks := BitVec.ofNat 32 raw.length, draw := s.draw + 1
          status := { ended s.status with peaksValid := true } } ∧
      (∀ p (h : p < raw.length),
        peak.word RegionId.peak.base (32 * p) = BitVec.ofNat 64 ((raw[p] + s.n.toNat / 2) % s.n.toNat) ∧
        peak.word RegionId.peak.base (32 * p + 8) =
          peakFreq s.fs.toNat s.n.toNat ((raw[p] + s.n.toNat / 2) % s.n.toNat) ∧
        peak.word RegionId.peak.base (32 * p + 16) = (s.fvecAt raw[p]).re ∧
        peak.word RegionId.peak.base (32 * p + 24) = (s.fvecAt raw[p]).im) ∧
      sameBeyond (32 * raw.length) s.peak peak

/-- Property 5 of the source (44_peak_detector.md R225): after a successful `PEAKS`, entry `p` lies at raw bin
`(bin + N/2) mod N`, which is a peak and holds its value and frequency; every peak has exactly one entry; and entries
ascend in raw bin. -/
def Obligations.PeaksReportsExactlyThePeaks : Prop :=
  ∀ (s t : State) (e n : Nat), s.status.planValid = true → s.status.fvecValid = true →
    1 ≤ e → n = 2 ^ e → s.n.toNat = n → exec .peaks s = .next t →
    let raw := fun p => ((t.peakAt p).bin.toNat + n / 2) % n
    (∀ p, p < t.npeaks.toNat →
      1 ≤ raw p ∧ raw p ≤ n - 2 ∧ isPeak (fun k => NUM.cabs (s.fvecAt k)) (raw p) = true ∧
      (t.peakAt p).value = s.fvecAt (raw p) ∧
      (t.peakAt p).freq = peakFreq s.fs.toNat n (t.peakAt p).bin.toNat) ∧
    (∀ i, 1 ≤ i → i ≤ n - 2 → isPeak (fun k => NUM.cabs (s.fvecAt k)) i = true →
      ∃ p, p < t.npeaks.toNat ∧ raw p = i ∧ ∀ q, q < t.npeaks.toNat → raw q = i → q = p) ∧
    (∀ p q, p < q → q < t.npeaks.toNat → raw p < raw q)

/-- Two adjacent indices are never both peaks, so a successful `PEAKS` on a vector of even length reports at most
`N/2 - 1` of them: fewer than `P_MAX`, and than the field of the command word can name for `N <= 2^17`
(44_peak_detector.md R227). -/
def Obligations.PeakCountBound : Prop :=
  (∀ (mag : Nat → F64) (i : Nat), ¬(isPeak mag i = true ∧ isPeak mag (i + 1) = true)) ∧
  (∀ s t : State, s.status.planValid = true → s.status.fvecValid = true → 2 ≤ s.n.toNat → s.n.toNat % 2 = 0 →
    exec .peaks s = .next t →
    t.npeaks.toNat ≤ s.n.toNat / 2 - 1 ∧ (s.n.toNat ≤ s.nMax → t.npeaks.toNat < s.nMax / 2) ∧
    (s.n.toNat ≤ 2 ^ 17 → t.npeaks.toNat < 2 ^ 16))

/-- The frequency a peak reports is exactly `fs · (2b − N) / (2N)`: the computed value equals the ideal one, in units of
2^-1074 (44_peak_detector.md R223). -/
def Obligations.PeakFrequencyIsExact : Prop :=
  ∀ fs e b : Nat, fs < 2 ^ 32 → 1 ≤ e → e ≤ 17 → b < 2 ^ e →
    isFinite (peakFreq fs (2 ^ e) b) = true ∧
    fint (peakFreq fs (2 ^ e) b) * (2 * 2 ^ e) = (fs : Int) * (2 * (b : Int) - 2 ^ e) * 2 ^ 1074

/-- Property 6 of the source: from a physical bin to the raw index and back, by either form of the map
(44_peak_detector.md R226). -/
def Obligations.BinRoundTrip : Prop :=
  ∀ e b n : Nat, 1 ≤ e → n = 2 ^ e → b < n →
    physicalBin n ((b + n - n / 2) % n) = b ∧ (b + n - n / 2) % n = (b + n / 2) % n ∧
    physicalBin n (physicalBin n b) = b

/-! ### CTXINIT, ACCUM, CTXFREE -/

/-- `CTXINIT s, p` (41_mixer_accumulator.md R151, R152): on a free slot and a listed peak, with a valid plan and peak
list, the slot becomes valid with the peak's bin and frequency, its mixer holds the exponentials, its accumulator
zeros, every other register of it reads 0; bytes beyond entry `M-1` of the two regions and everything outside the slot
stay. The exponential is `(1.0, +0 or -0)` of a zero angle and two NaNs of an angle that is a NaN or an infinity
(00_scope.md R20, R24; an infinite angle PRESUMED from IEEE-754, log 8). That a mixer element is the exponential of the
negated product, taken left to right, is the MODEL's choice (log 6, DESIGN CHOICE): it is the default of R21, which a
build may replace. -/
def Obligations.CtxinitClaimsSlot : Prop :=
  (∀ (s : State) (k p : Nat), s.status.planValid = true → s.status.peaksValid = true → k < s.nslots →
      p < s.npeaks.toNat → (s.slot k).valid = false →
      ∃ mixer acc : Region,
        exec (.ctxinit k p) s = .next
          { s with
            status := ended s.status, draw := s.draw + 1
            slots := s.slots.set k
              { Slot.empty mixer acc with
                valid := true, bin := (s.peakAt p).bin, freqOffset := (s.peakAt p).freq } } ∧
        (∀ j, j < s.m.toNat →
          mixer.c64 (RegionId.mixer k).base j = NUM.mixer (s.peakAt p).freq j s.dt ∧
          acc.c64 (RegionId.acc k).base j = ⟨0, 0⟩) ∧
        sameBeyond (16 * s.m.toNat) (s.slot k).mixer mixer ∧ sameBeyond (16 * s.m.toNat) (s.slot k).acc acc) ∧
  ∀ theta : F64,
    (isZero theta = true → (NUM.cis theta).re = 0x3FF0000000000000#64 ∧ isZero (NUM.cis theta).im = true) ∧
    (isFinite theta = false → isNaN (NUM.cis theta).re = true ∧ isNaN (NUM.cis theta).im = true) ∧
    ∀ (f : F64) (j : Nat) (dt : F64),
      NUM.mixer f j dt =
        NUM.cis (fneg (fmul (fmul (fmul (fmul 0x4000000000000000#64 0x400921FB54442D18#64) f) (u2f j)) dt))

/-- `ACCUM s, p` (41_mixer_accumulator.md R154, R157, R159): on a valid slot that is not decoded and a listed peak of
its bin, each accumulator element gains the sample divided by the peak value and mixed, the count rises by one
(saturating) and the time is taken; bytes beyond entry `M-1` and everything else stay. -/
def Obligations.AccumAddsNormalisedSamples : Prop :=
  ∀ (s : State) (k p : Nat), s.status.planValid = true → s.status.peaksValid = true → k < s.nslots →
    p < s.npeaks.toNat → (s.slot k).valid = true → (s.slot k).decoded = false →
    (s.peakAt p).bin = (s.slot k).bin →
    ∃ acc : Region,
      exec (.accum k p) s = .next
        { s with
          status := ended s.status, draw := s.draw + 1
          slots := s.slots.set k
            { s.slot k with
              acc := acc, lastSeenUs := s.timeUs
              sampleCount := BitVec.ofNat 32 (min ((s.slot k).sampleCount.toNat + 1) (2 ^ 32 - 1)) } } ∧
      (∀ j, j < s.m.toNat →
        acc.c64 (RegionId.acc k).base j =
          cadd (s.accAt k j) (NUM.cmul (NUM.cdiv (s.ibufAt j) (s.peakAt p).value) (s.mixerAt k j))) ∧
      sameBeyond (16 * s.m.toNat) (s.slot k).acc acc

/-- `ACCUM` on a decoded slot passes its checks and changes nothing; with a wrong bin it still raises `E_BINMISMATCH`
(41_mixer_accumulator.md R155). -/
def Obligations.AccumOnDecodedSlotIsNoOp : Prop :=
  ∀ (s : State) (k p : Nat), s.status.planValid = true → s.status.peaksValid = true → k < s.nslots →
    p < s.npeaks.toNat → (s.slot k).valid = true → (s.slot k).decoded = true →
    ((s.peakAt p).bin = (s.slot k).bin → exec (.accum k p) s = .next { s with status := ended s.status }) ∧
    ((s.peakAt p).bin ≠ (s.slot k).bin → exec (.accum k p) s = .next (onlyErred 0x0B s))

/-- `CTXFREE s` (41_mixer_accumulator.md R160, R161), valid plan or not: every register of the slot reads 0, nothing
outside the slot changes, and on a slot that was not valid its regions stay as they are. -/
def Obligations.CtxfreeFreesSlot : Prop :=
  ∀ (s : State) (k : Nat), k < s.nslots →
    ∃ mixer acc : Region,
      exec (.ctxfree k) s = .next
        { s with
          status := ended s.status, draw := s.draw + 1, slots := s.slots.set k (Slot.empty mixer acc) } ∧
      ((s.slot k).valid = false → mixer = (s.slot k).mixer ∧ acc = (s.slot k).acc)

/-! ### DECODE -/

/-- `DECODE s` (42_slicer_mfm.md R171): on a valid slot that is not decoded, the bits the detector finds in the
magnitudes are stored and counted; with 256 bits the six fields, the CRC and `DECODED` are written, otherwise they keep
their values; `RESULT` is `DECODED`; everything else stays.
What the detector finds: nothing when the mean is 0 (R184); else the bits after all magnitudes went through it in order,
each as high when it exceeds the mean and low otherwise (R173, R176), from an empty window, no skip, no sync and no bits.
One sample (R175 to R181): nothing once there are 256 bits; else the window `a b c v` after the push is looked at once it
is full and no skip is left. Before sync, `b` high and `c` low give the first bit, 1, and a skip of `SPB - 1`. After it,
the first transition in the order 2, 1, 3 gives the bit of the sample before it and a skip of `SPB - (2 - k) - 1`; no
transition gives nothing. -/
def Obligations.DecodeStoresFrame : Prop :=
  (∀ (s : State) (k : Nat) (bits : List Bool), s.status.planValid = true → k < s.nslots →
      (s.slot k).valid = true → (s.slot k).decoded = false →
      bits = mfmDecode ((List.range s.m.toNat).map fun j => NUM.cabs (s.accAt k j)) s.spb.toNat →
      ∃ x : Slot,
        exec (.decode k) s = .next
          { s with
            status := { ended s.status with result := x.decoded }, slots := s.slots.set k x } ∧
        x.bitcnt.toNat = bits.length ∧
        (∀ j, x.frameBit j = bits.getD j false) ∧
        (bits.length < 256 →
          x = { s.slot k with
            bitcnt := x.bitcnt, frame0 := x.frame0, frame1 := x.frame1, frame2 := x.frame2, frame3 := x.frame3 }) ∧
        (bits.length = 256 →
          x = { s.slot k with
            bitcnt := 256, frame0 := x.frame0, frame1 := x.frame1, frame2 := x.frame2, frame3 := x.frame3
            header := BitVec.ofNat 3 (field bits 0 3), tagType := BitVec.ofNat 3 (field bits 3 3)
            appId := BitVec.ofNat 3 (field bits 6 3), groupId := BitVec.ofNat 7 (field bits 9 7)
            agencyId := BitVec.ofNat 7 (field bits 16 7), serialNumber := BitVec.ofNat 24 (field bits 23 24)
            crc := crc16 bits, decoded := decide (crc16 bits = 0) })) ∧
  (∀ (norm : List F64) (spb : Nat),
    (feq (fmean norm) 0#64 = true → mfmDecode norm spb = []) ∧
    (feq (fmean norm) 0#64 = false →
      mfmDecode norm spb =
        ((norm.map fun x => if fgt x (fmean norm) then Slice.high else Slice.low).foldl (Detector.step spb)
          Detector.start).bits)) ∧
  (Detector.start.fill = 0 ∧ Detector.start.skip = 0 ∧ Detector.start.synced = false ∧ Detector.start.bits = []) ∧
  ∀ (spb : Nat) (a b c w0 v : Slice) (fill skip : Nat) (synced : Bool) (bits : List Bool),
    let full := 4 ≤ if fill < 4 then fill + 1 else fill
    let after := fun (skip : Nat) (synced : Bool) (bits : List Bool) =>
      (⟨a, b, c, v, if fill < 4 then fill + 1 else fill, skip, synced, bits⟩ : Detector)
    let next := Detector.step spb ⟨w0, a, b, c, fill, skip, synced, bits⟩ v
    (bits.length = 256 → next = ⟨w0, a, b, c, fill, skip, synced, bits⟩) ∧
    (bits.length ≠ 256 →
      (¬full → next = after skip synced bits) ∧
      (full → 0 < skip → next = after (skip - 1) synced bits) ∧
      (full → skip = 0 → synced = false → b = .high → c = .low → next = after (spb - 1) true [true]) ∧
      (full → skip = 0 → synced = false → ¬(b = .high ∧ c = .low) → next = after 0 false bits) ∧
      (full → skip = 0 → synced = true → b ≠ c → next = after (spb - 1) true (bits ++ [decide (b = .high)])) ∧
      (full → skip = 0 → synced = true → b = c → a ≠ b →
        next = after (spb - 2) true (bits ++ [decide (a = .high)])) ∧
      (full → skip = 0 → synced = true → a = b → b = c → c ≠ v →
        next = after spb true (bits ++ [decide (c = .high)])) ∧
      (full → skip = 0 → synced = true → a = b → b = c → c = v → next = after 0 true bits))

/-- `DECODE` of a decoded slot changes nothing in the slot and sets `RESULT` (42_slicer_mfm.md R185). -/
def Obligations.DecodeOfDecodedSlotReportsOne : Prop :=
  ∀ (s : State) (k : Nat), s.status.planValid = true → k < s.nslots → (s.slot k).valid = true →
    (s.slot k).decoded = true →
    exec (.decode k) s = .next { s with status := { ended s.status with result := true } }

/-- An all-zero accumulator decodes to nothing, without error: no bits, an empty frame, fields and CRC unchanged
(42_slicer_mfm.md R184). -/
def Obligations.DecodeOfZeroAccumulatorFails : Prop :=
  ∀ (s : State) (k : Nat), s.status.planValid = true → k < s.nslots → (s.slot k).valid = true →
    (s.slot k).decoded = false → 1 ≤ s.m.toNat →
    (∀ j, j < s.m.toNat → isZero (s.accAt k j).re = true ∧ isZero (s.accAt k j).im = true) →
    exec (.decode k) s = .next
      { s with
        status := { ended s.status with result := false }
        slots := s.slots.set k
          { s.slot k with bitcnt := 0, frame0 := 0, frame1 := 0, frame2 := 0, frame3 := 0 } }

/-- A mean that is a NaN or `+inf` decodes to nothing, and a magnitude that is a NaN slices low (42_slicer_mfm.md
R174). -/
def Obligations.MeanNotFiniteDecodesNothing : Prop :=
  (∀ (norm : List F64) (spb : Nat), isNaN (fmean norm) = true ∨ fmean norm = 0x7FF0000000000000#64 →
    mfmDecode norm spb = []) ∧
  ∀ mean x : F64, isNaN x = true → slice mean x = .low

/-- The detector finds at most 256 bits, and the first of them is 1 (43_crc16_frame.md R200, 42_slicer_mfm.md R177,
R180). -/
def Obligations.DetectedFrameStartsWithOne : Prop :=
  ∀ (norm : List F64) (spb : Nat),
    (mfmDecode norm spb).length ≤ 256 ∧ ∀ b rest, mfmDecode norm spb = b :: rest → b = true

/-- A number of bits needs enough samples: sync no earlier than sample 3, then inspections at least `SPB - 1` apart; so
256 bits need at least `3 + 1 + 255 × (SPB - 1)` samples (42_slicer_mfm.md R180). -/
def Obligations.DetectorNeedsEnoughSamples : Prop :=
  ∀ (norm : List F64) (spb : Nat), 2 ≤ spb → mfmDecode norm spb ≠ [] →
    3 + 1 + ((mfmDecode norm spb).length - 1) * (spb - 1) ≤ norm.length

/-! ### Frame and CRC -/

/-- Where the slot registers hold a frame: `bits[64w + j]` is bit `63 - j` of `FRAMEw` and byte `8w + q` of the frame is
bits `63-8q : 56-8q` (10_state.md R62, 43_crc16_frame.md R201). -/
def Obligations.FrameRegistersHoldFrame : Prop :=
  ∀ (x : Slot) (bits : List Bool) (w j q : Nat), w < 4 → j < 64 → q < 8 →
    (frameWord bits w).getLsbD (63 - j) = bits.getD (64 * w + j) false ∧
    ((frameWord bits w).extractLsb' (56 - 8 * q) 8).toNat = frameByte bits (8 * w + q) ∧
    frameByte bits (8 * w + q) =
      128 * bitNat (bits.getD (8 * (8 * w + q)) false) + 64 * bitNat (bits.getD (8 * (8 * w + q) + 1) false) +
      32 * bitNat (bits.getD (8 * (8 * w + q) + 2) false) + 16 * bitNat (bits.getD (8 * (8 * w + q) + 3) false) +
      8 * bitNat (bits.getD (8 * (8 * w + q) + 4) false) + 4 * bitNat (bits.getD (8 * (8 * w + q) + 5) false) +
      2 * bitNat (bits.getD (8 * (8 * w + q) + 6) false) + bitNat (bits.getD (8 * (8 * w + q) + 7) false) ∧
    (x.withFrame bits).frameBit (64 * w + j) = bits.getD (64 * w + j) false

/-- The six fields in terms of the frame's bytes (43_crc16_frame.md R203). -/
def Obligations.FieldsByBytes : Prop :=
  ∀ bits : List Bool,
    field bits 0 3 = frameByte bits 0 >>> 5 ∧
    field bits 3 3 = (frameByte bits 0 >>> 2) % 8 ∧
    field bits 6 3 = (frameByte bits 0 % 4) * 2 + frameByte bits 1 >>> 7 ∧
    field bits 9 7 = frameByte bits 1 % 128 ∧
    field bits 16 7 = frameByte bits 2 >>> 1 ∧
    field bits 23 24 =
      (frameByte bits 2 % 2) * 2 ^ 23 + frameByte bits 3 * 2 ^ 15 + frameByte bits 4 * 2 ^ 7 + frameByte bits 5 >>> 1

/-- The byte-wise CRC of a frame's 32 bytes is the bit-serial CRC of its 256 bits (43_crc16_frame.md R206). -/
def Obligations.CrcByteWiseAgrees : Prop :=
  ∀ bits : List Bool, bits.length = 256 → crc16Bytes ((List.range 32).map (frameByte bits)) = crc16 bits

/-- Properties of the CRC (43_crc16_frame.md R208): linearity and zero on zeros, leading zeros do not matter, an error
burst of at most 16 bits in a valid message is detected, and appending its CRC to a message gives CRC 0. -/
def Obligations.CrcProperties : Prop :=
  (∀ a b : List Bool, a.length = b.length → crc16 (List.zipWith (· ^^ ·) a b) = crc16 a ^^^ crc16 b) ∧
  (∀ n, crc16 (List.replicate n false) = 0) ∧
  (∀ n a, crc16 (List.replicate n false ++ a) = crc16 a) ∧
  (∀ (a burst : List Bool) (n m : Nat), crc16 a = 0 → burst.length ≤ 16 → true ∈ burst →
    a.length = n + burst.length + m →
    crc16 (List.zipWith (· ^^ ·) a (List.replicate n false ++ burst ++ List.replicate m false)) ≠ 0) ∧
  (∀ a : List Bool, crc16 (a ++ (List.range 16).map fun j => (crc16 a).getLsbD (15 - j)) = 0)

/-! ### The host port -/

/-- The address map and what lies outside it (20_memory.md R81, R84, 10_state.md R33, R53, 60_exceptions.md R271): a
transaction of 8 bytes reaches exactly what `Names` says its address names, so nothing when it is no multiple of 8; one of
another size, or whose address names nothing, gets the response `ERROR` and changes nothing of the machine, not even
`OVR`; with legal build parameters every mapped address is below `0x40A00000`; and the last mapped words and the first
unmapped ones of a machine with `N_MAX = 65536` and four slots, a machine the statement picks. The response and the draw
counter are the model's own fields (logs 5 and 11). -/
def Obligations.AddressMapAndErrors : Prop :=
  (∀ (s : State) (addr : BitVec 32) (loc : Location), locate s addr 8 = some loc ↔ Names s addr.toNat loc) ∧
  (∀ (s : State) (addr : BitVec 32) (size : Nat) (v : Word),
    (size ≠ 8 ∨ ∀ loc, ¬Names s addr.toNat loc) →
    (∃ w, hostRead addr size s = { s with resp := some ⟨false, some w⟩, draw := s.draw + 1 }) ∧
    hostWrite addr size v s = { s with resp := some ⟨false, none⟩ }) ∧
  (∀ (s : State) (addr : BitVec 32) (loc : Location), s.log2NMax ≤ 17 → s.slots.length ≤ 256 →
    Names s addr.toNat loc → addr.toNat < 0x40A00000) ∧
  (∀ e ∈ ([
        (0x00000000#32, some (.global .cmd)), (0x00000004#32, none), (0x00000070#32, some (.global .fs)),
        (0x00000078#32, none), (0x00200000#32, some (.memory .ibuf 0)),
        (0x002FFFF8#32, some (.memory .ibuf 0xFFFF8)), (0x00300000#32, none),
        (0x004FFFF8#32, some (.memory .fvec 0xFFFF8)), (0x00500000#32, none),
        (0x006FFFF8#32, some (.memory .peak 0xFFFF8)), (0x00700000#32, none),
        (0x00800000#32, some (.slot 0 .ctxStatus)), (0x00800060#32, some (.slot 0 .serialNumber)),
        (0x00800068#32, none), (0x00800078#32, none), (0x00800080#32, some (.slot 0 .frame0)),
        (0x00800398#32, some (.slot 3 .frame3)), (0x008003A0#32, none), (0x00800400#32, none),
        (0x00A00000#32, some (.memory (.mixer 0) 0)), (0x00C00000#32, some (.memory (.acc 0) 0)),
        (0x016FFFF8#32, some (.memory (.mixer 3) 0xFFFF8)), (0x01700000#32, none),
        (0x018FFFF8#32, some (.memory (.acc 3) 0xFFFF8)), (0x01900000#32, none), (0x01A00000#32, none),
        (0xFFFFFFF8#32, none)] : List (BitVec 32 × Option Location)),
    locate (State.resetWith 16 4) e.1 8 = e.2)

/-- While a command is pending a write to any mapped address but `STATUS`, `IE` and `CTRL` is dropped and sets `OVR`;
writes to those three act normally (70_reset_and_hazards.md R300). -/
def Obligations.WritesWhileBusyAreDropped : Prop :=
  ∀ (s : State) (addr : BitVec 32) (v : Word) (loc : Location), s.status.busy = true →
    Names s addr.toNat loc →
    (loc ≠ .global .status → loc ≠ .global .ie → loc ≠ .global .ctrl →
      hostWrite addr 8 v s =
        { s with resp := some ⟨true, none⟩, status := { s.status with ovr := true } }) ∧
    (loc = .global .status ∨ loc = .global .ie ∨ loc = .global .ctrl →
      hostWrite addr 8 v s = { writeLocation loc v s with resp := some ⟨true, none⟩ })

/-- Host reads (20_memory.md R82, 70_reset_and_hazards.md R301). A register reads its value at any time and sets nothing.
A word of a memory region reads, while the engine is idle, what is stored there where the spec defines it and else some
word that reading again returns again, and sets nothing; while a command is pending it reads some word and sets `OVR`. A
misaligned or unmapped read gets `ERROR`, some data and changes nothing. The response and the draw counter are the model's
own fields (logs 5 and 11). -/
def Obligations.HostReads : Prop :=
  ∀ (s : State) (addr : BitVec 32),
    (∀ r, Names s addr.toNat (.global r) →
      hostRead addr 8 s = { s with resp := some ⟨true, some (BitVec.ofNat 64 (globalValue s r))⟩ }) ∧
    (∀ i r, Names s addr.toNat (.slot i r) →
      hostRead addr 8 s = { s with resp := some ⟨true, some (BitVec.ofNat 64 (slotValue (s.slot i) r))⟩ }) ∧
    (∀ id off, Names s addr.toNat (.memory id off) →
      (s.status.busy = false →
        ∃ w, Holds s w off id ∧ hostRead addr 8 s = { s with resp := some ⟨true, some w⟩ } ∧
          hostRead addr 8 (hostRead addr 8 s) = hostRead addr 8 s) ∧
      (s.status.busy = true →
        ∃ w, hostRead addr 8 s =
          { s with
            resp := some ⟨true, some w⟩, draw := s.draw + 1, status := { s.status with ovr := true } })) ∧
    ((∀ loc, ¬Names s addr.toNat loc) →
      ∃ w, hostRead addr 8 s = { s with resp := some ⟨false, some w⟩, draw := s.draw + 1 })

/-- An accepted write to `IBUF` stores the word, whatever the index, and clears `FVEC_VALID`, `PEAKS_VALID` and
`NPEAKS`; a write to any other memory region changes nothing (20_memory.md R87, R83 d). -/
def Obligations.IbufWriteInvalidates : Prop :=
  ∀ (s : State) (addr : BitVec 32) (v : Word) (id : RegionId) (off : Nat), s.status.busy = false →
    Names s addr.toNat (.memory id off) →
    (id = .ibuf →
      ∃ ibuf : Region,
        hostWrite addr 8 v s =
          { s with
            ibuf := ibuf, npeaks := 0, resp := some ⟨true, none⟩
            status := { s.status with fvecValid := false, peaksValid := false } } ∧
        ibuf.word RegionId.ibuf.base off = v ∧
        ∀ a, a < off ∨ off + 8 ≤ a → readByte ibuf.cells a = readByte s.ibuf.cells a) ∧
    (id ≠ .ibuf → hostWrite addr 8 v s = { s with resp := some ⟨true, none⟩ })

/-- A host read returns what the latest write to that `IBUF` word stored, and every other `IBUF` word reads as before
(20_memory.md R82, R90). -/
def Obligations.IbufWordReadsBack : Prop :=
  ∀ (s : State) (a b : BitVec 32) (v : Word) (i j : Nat), s.status.busy = false →
    Names s a.toNat (.memory .ibuf i) → Names s b.toNat (.memory .ibuf j) →
    (hostRead a 8 (hostWrite a 8 v s)).resp = some ⟨true, some v⟩ ∧
    (a ≠ b → (hostRead b 8 (hostWrite a 8 v s)).resp = (hostRead b 8 s).resp)

/-- A write of `CMD` while idle is accepted: the low 32 bits become the pending command, `BUSY` rises, `DONE` and
`RESULT` fall, and a read of `CMD` returns the word zero-extended; while busy it is dropped and sets `OVR`
(10_state.md R34). -/
def Obligations.AcceptedCommandBecomesPending : Prop :=
  ∀ (s : State) (v : Word),
    (s.status.busy = false →
      hostWrite 0x00000000 8 v s =
        { s with
          cmd := v.setWidth 32, resp := some ⟨true, none⟩
          status := { s.status with busy := true, done := false, result := false } } ∧
      readGlobal (hostWrite 0x00000000 8 v s) .cmd = (v.setWidth 32).setWidth 64) ∧
    (s.status.busy = true →
      hostWrite 0x00000000 8 v s =
        { s with resp := some ⟨true, none⟩, status := { s.status with ovr := true } })

/-- `STATUS` (10_state.md R35): where its fields stand in the word a read returns, that it reads 0 after reset, and what a
host write clears, busy or not. -/
def Obligations.StatusLayoutAndClearing : Prop :=
  readGlobal State.reset .status = 0 ∧
  (∀ st : Status,
    st.toWord.getLsbD 0 = st.busy ∧ st.toWord.getLsbD 1 = st.done ∧ st.toWord.getLsbD 2 = st.err ∧
    st.toWord.getLsbD 3 = st.ovr ∧ st.toWord.getLsbD 4 = st.planValid ∧ st.toWord.getLsbD 5 = st.fvecValid ∧
    st.toWord.getLsbD 6 = st.peaksValid ∧ st.toWord.getLsbD 7 = st.result ∧
    st.toWord.extractLsb' 8 8 = st.errcode ∧ st.toWord.extractLsb' 16 48 = 0) ∧
  (∀ (s : State) (v : Word),
    hostWrite 0x00000008 8 v s =
      { s with
        resp := some ⟨true, none⟩
        status :=
          { s.status with
            done := if v.getLsbD 1 then false else s.status.done
            err := if v.getLsbD 2 then false else s.status.err
            errcode := if v.getLsbD 2 then 0 else s.status.errcode
            ovr := if v.getLsbD 3 then false else s.status.ovr } })

/-- The operand registers and `IE` read back what an idle host wrote to them, less the bits that are not theirs
(10_state.md R41, R47 to R49). -/
def Obligations.OperandRegistersReadBack : Prop :=
  ∀ (s : State) (v : Word), s.status.busy = false →
    (hostRead 0x00000020 8 (hostWrite 0x00000020 8 v s)).resp = some ⟨true, some (v &&& 0xFFFFFFFF)⟩ ∧
    (hostRead 0x00000028 8 (hostWrite 0x00000028 8 v s)).resp = some ⟨true, some (v &&& 0xFFFFFFFF)⟩ ∧
    (hostRead 0x00000030 8 (hostWrite 0x00000030 8 v s)).resp = some ⟨true, some v⟩ ∧
    (hostRead 0x00000010 8 (hostWrite 0x00000010 8 v s)).resp = some ⟨true, some (v &&& 0xE)⟩

/-- `irq` is 1 exactly while an enabled pending bit is 1 (10_state.md R52, 60_exceptions.md R265). -/
def Obligations.IrqFollowsEnabledBits : Prop :=
  ∀ s : State,
    s.irq = true ↔
      (s.status.done = true ∧ s.ie.doneIe = true) ∨ (s.status.err = true ∧ s.ie.errIe = true) ∨
      (s.status.ovr = true ∧ s.ie.ovrIe = true)

/-- The effect of reset, by the reset input or by a write of 1 to `CTRL.SRST` at any time, a pending command included
(70_reset_and_hazards.md R290 to R292): every register reads 0 but the hardwired two, every slot is free, nothing is
pending. -/
def Obligations.ResetClearsRegisters : Prop :=
  ∀ (s : State) (v : Word), v.getLsbD 0 = true →
    (∀ rest, s.schedule = .resetInput :: rest →
      step s = .next (resetEffect { s with schedule := rest })) ∧
    hostWrite 0x00000018 8 v s = { resetEffect s with resp := some ⟨true, none⟩ } ∧
    (∀ r, r ≠ .peakFloor → r ≠ .caps → readGlobal (resetEffect s) r = 0) ∧
    readGlobal (resetEffect s) .peakFloor = 0x407F400000000000#64 ∧
    readGlobal (resetEffect s) .caps = readGlobal s .caps ∧
    (resetEffect s).irq = false ∧ (resetEffect s).nslots = s.nslots ∧
    ∀ i r, readSlotReg ((resetEffect s).slot i) r = 0

/-- The machine right after reset (10_state.md R71): every global register reads 0 but `PEAK_FLOOR` and `CAPS`, every
slot register reads 0, `irq = 0`. The build parameters of this state, 16 and 4, are the model's choice (log 1). -/
def Obligations.ResetStateReadsZero : Prop :=
  (∀ r, r ≠ .peakFloor → r ≠ .caps → readGlobal State.reset r = 0) ∧
  readGlobal State.reset .peakFloor = 0x407F400000000000#64 ∧ readGlobal State.reset .caps = 0x0410#64 ∧
  (∀ i r, i < 4 → readSlotReg (State.reset.slot i) r = 0) ∧ State.reset.irq = false

/-- `PEAK_FLOOR` reads 500.0, `CAPS` reads `LOG2_N_MAX` in bits 7:0 and `NSLOTS` in bits 16:8, and neither changes, by
any step (10_state.md R43). -/
def Obligations.HardwiredRegistersNeverChange : Prop :=
  (∀ s : State, s.log2NMax < 2 ^ 8 → s.nslots < 2 ^ 9 →
    (readGlobal s .caps).toNat = s.nslots * 2 ^ 8 + s.log2NMax) ∧
  ∀ s t : State, step s = .next t →
    readGlobal t .peakFloor = 0x407F400000000000#64 ∧ readGlobal t .caps = readGlobal s .caps ∧
    t.nslots = s.nslots ∧ t.log2NMax = s.log2NMax

/-! ### Invariants -/

/-- Every step keeps the invariant `Inv`: parameters in range, canonical memories, the chain of valid flags, a latched
configuration that is a plan's or zero, the bound on the peak list, the error code, the bits cleared while pending, and
every slot as 10_state.md R54 to R62 and R70 say. -/
def Obligations.StepKeepsInvariant : Prop :=
  ∀ s t : State, Inv s → step s = .next t → Inv t

/-- A machine right after reset meets the invariant, whatever its legal build parameters (10_state.md R71). -/
def Obligations.ResetMeetsInvariant : Prop :=
  ∀ l n : Nat, 2 ≤ l → l ≤ 17 → 1 ≤ n → n ≤ 256 → Inv (State.resetWith l n)

/-- Every step keeps: while `FVEC_VALID = 1`, `FVEC[0..N-1]` is the transform of the present `IBUF` (10_state.md
R45). -/
def Obligations.StepKeepsFvecCurrent : Prop :=
  ∀ s t : State, FvecCurrent s → step s = .next t → FvecCurrent t

/-- Every step keeps: while `PEAKS_VALID = 1`, `PEAK[0..NPEAKS-1]` is the peak list of the present `FVEC` (10_state.md
R46). -/
def Obligations.StepKeepsPeaksCurrent : Prop :=
  ∀ s t : State, PeaksCurrent s → step s = .next t → PeaksCurrent t

/-- Every step keeps: a valid slot's mixer holds the exponentials of its frequency offset (41_mixer_accumulator.md
R152). -/
def Obligations.StepKeepsMixersCurrent : Prop :=
  ∀ s t : State, MixersCurrent s → step s = .next t → MixersCurrent t

/-- Every step keeps the regions within the address map: no command writes an entry outside its range (20_memory.md
R81, R88). -/
def Obligations.StepKeepsRegionsBounded : Prop :=
  ∀ s t : State, Inv s → RegionsBounded s → step s = .next t → RegionsBounded t

/-- For a slot that stays valid over a command: its count never falls, and once it is decoded no register and no byte of
its mixer and accumulator changes, whatever the command (10_state.md R70, 41_mixer_accumulator.md R155,
42_slicer_mfm.md R185). -/
def Obligations.CountsGrowAndFreeze : Prop :=
  ∀ (i : Instr) (s t : State) (k : Nat), exec i s = .next t → k < s.nslots →
    (s.slot k).valid = true → (t.slot k).valid = true →
    (s.slot k).sampleCount.toNat ≤ (t.slot k).sampleCount.toNat ∧
    ((s.slot k).decoded = true → t.slot k = s.slot k)

/-! ### Real operations -/

/-- Sums of finite values (00_scope.md R15). The sum is finite exactly when the exact sum lies within half a step beyond
the largest finite value; beyond, it is the infinity of the exact sum's sign. A finite sum is a value nearest to the exact
one, and of two nearest ones the even one. An exact sum of 0 is `+0` unless both operands are negative. Infinities, signed
zeros and gradual underflow are PRESUMED from IEEE-754 (log 10). -/
def Obligations.AddRoundsToNearestEven : Prop :=
  ∀ x y : F64, isFinite x = true → isFinite y = true →
    (fint x + fint y = 0 → fadd x y = if fsign x = true ∧ fsign y = true then 0x8000000000000000#64 else 0) ∧
    (overflowUnits ≤ (fint x + fint y).natAbs →
      fadd x y = if 0 < fint x + fint y then 0x7FF0000000000000#64 else 0xFFF0000000000000#64) ∧
    ((fint x + fint y).natAbs < overflowUnits →
      isFinite (fadd x y) = true ∧
      ∀ z : F64, isFinite z = true →
        |fint (fadd x y) - (fint x + fint y)| ≤ |fint z - (fint x + fint y)| ∧
        (|fint (fadd x y) - (fint x + fint y)| = |fint z - (fint x + fint y)| → fint z ≠ fint (fadd x y) →
          (fadd x y).getLsbD 0 = false))

/-- Products of finite values (00_scope.md R15). The sign is that of the exact product, of zeros too. The product is finite
exactly when the exact product lies within half a step beyond the largest finite value; beyond, it is the infinity of its
sign. A finite product is a value nearest to the exact one, and of two nearest ones the even one. Values are in units of
2^-1074, so the exact product of units is compared scaled by 2^1074. Infinities, signed zeros and gradual underflow are
PRESUMED from IEEE-754 (log 10). -/
def Obligations.MulRoundsToNearestEven : Prop :=
  ∀ x y : F64, isFinite x = true → isFinite y = true →
    fsign (fmul x y) = (fsign x != fsign y) ∧
    (overflowUnits * 2 ^ 1074 ≤ (fint x * fint y).natAbs →
      fmul x y = if 0 < fint x * fint y then 0x7FF0000000000000#64 else 0xFFF0000000000000#64) ∧
    ((fint x * fint y).natAbs < overflowUnits * 2 ^ 1074 →
      isFinite (fmul x y) = true ∧
      ∀ z : F64, isFinite z = true →
        |fint (fmul x y) * 2 ^ 1074 - fint x * fint y| ≤ |fint z * 2 ^ 1074 - fint x * fint y| ∧
        (|fint (fmul x y) * 2 ^ 1074 - fint x * fint y| = |fint z * 2 ^ 1074 - fint x * fint y| →
          fint z ≠ fint (fmul x y) → (fmul x y).getLsbD 0 = false))

/-- Quotients of finite values (00_scope.md R15), compared after multiplying by the divisor. By a divisor that is not zero:
the sign is that of the exact quotient, of zeros too; the quotient is finite exactly when the exact quotient lies within
half a step beyond the largest finite value; beyond, it is the infinity of its sign; a finite quotient is a value nearest
to the exact one, and of two nearest ones the even one. By a zero: the infinity of the operands' sign, a NaN for a zero by
a zero. Infinities, signed zeros, division by zero and gradual underflow are PRESUMED from IEEE-754 (log 10). -/
def Obligations.DivRoundsToNearestEven : Prop :=
  ∀ x y : F64, isFinite x = true → isFinite y = true →
    (fint y = 0 →
      (fint x = 0 → isNaN (fdiv x y) = true) ∧
      (fint x ≠ 0 →
        fdiv x y = if fsign x = fsign y then 0x7FF0000000000000#64 else 0xFFF0000000000000#64)) ∧
    (fint y ≠ 0 →
      fsign (fdiv x y) = (fsign x != fsign y) ∧
      (overflowUnits * (fint y).natAbs ≤ (fint x).natAbs * 2 ^ 1074 →
        fdiv x y = if 0 < fint x * fint y then 0x7FF0000000000000#64 else 0xFFF0000000000000#64) ∧
      ((fint x).natAbs * 2 ^ 1074 < overflowUnits * (fint y).natAbs →
        isFinite (fdiv x y) = true ∧
        ∀ z : F64, isFinite z = true →
          |fint (fdiv x y) * fint y - fint x * 2 ^ 1074| ≤ |fint z * fint y - fint x * 2 ^ 1074| ∧
          (|fint (fdiv x y) * fint y - fint x * 2 ^ 1074| = |fint z * fint y - fint x * 2 ^ 1074| →
            fint z ≠ fint (fdiv x y) → (fdiv x y).getLsbD 0 = false)))

/-- The square root of a positive finite value is finite, positive, and nearest to the exact root: the exact root lies
on the result's side of the midpoint to every other value (00_scope.md R15). That a subnormal operand counts at its value
is PRESUMED from IEEE-754 (log 10). -/
def Obligations.SqrtRoundsToNearest : Prop :=
  ∀ x z : F64, isFinite x = true → 0 < fint x → isFinite z = true → 0 ≤ fint z →
    isFinite (fsqrt x) = true ∧ 0 < fint (fsqrt x) ∧
    (fint (fsqrt x) < fint z → 4 * (fint x * 2 ^ 1074) ≤ (fint (fsqrt x) + fint z) ^ 2) ∧
    (fint z < fint (fsqrt x) → (fint (fsqrt x) + fint z) ^ 2 ≤ 4 * (fint x * 2 ^ 1074))

/-! ### The host sequence -/

/-- The registry agrees with the slots (45_host_sequence.md R235, R246): no two keys are equal, no two entries share a
slot, its slots are exactly the valid ones, and each slot's `BIN` is its key. -/
def Sys2Proof.Claims.RegistryOk (y : System) : Prop :=
  (y.host.reg.map Prod.fst).Nodup ∧ (y.host.reg.map Prod.snd).Nodup ∧
  (∀ i, i < y.machine.nslots → ((y.machine.slot i).valid = true ↔ i ∈ y.host.reg.map Prod.snd)) ∧
  ∀ e ∈ y.host.reg, e.2 < y.machine.nslots ∧ (y.machine.slot e.2).bin.toNat = e.1

/-- The host's procedures keep the registry in agreement with the slots (45_host_sequence.md R235, R246): it is empty and
agrees after reset and after every `PLAN`, successful or not, and `PROCESS_CAPTURE` keeps the agreement, leaves the machine
idle and planned and within its invariant, so that captures can follow one another. The procedures are the MODEL's reading
of host software (log 17, DESIGN CHOICE): reads of the idle machine are taken as values and the wait for a command as its
completion; the statement holds whatever the host picks where the spec leaves the pick open. -/
def Obligations.ProcessCaptureKeepsRegistry : Prop :=
  (RegistryOk System.reset ∧ System.reset.host.reg = []) ∧
  (∀ y : System, Inv y.machine →
    (Inv (hostReset y).machine ∧ RegistryOk (hostReset y) ∧ (hostReset y).host.reg = []) ∧
    (Inv (hostResetInput y).machine ∧ RegistryOk (hostResetInput y) ∧ (hostResetInput y).host.reg = []) ∧
    (y.machine.status.busy = false →
      Inv (hostPlan y).machine ∧ (hostPlan y).machine.status.busy = false ∧ RegistryOk (hostPlan y) ∧
        (hostPlan y).host.reg = [])) ∧
  ∀ (h : HostChoices) (now : BitVec 64) (y : System),
    Inv y.machine → y.machine.status.busy = false → y.machine.status.planValid = true → RegistryOk y →
    Inv (processCapture h now y).machine ∧
    (processCapture h now y).machine.status.busy = false ∧
    (processCapture h now y).machine.status.planValid = true ∧
    RegistryOk (processCapture h now y)

/-- Property 4 of the source (45_host_sequence.md R245, R246): after `PROCESS_CAPTURE` no hypothesis in the registry was
last seen more than the maximum age before the capture's time. A hypothesis last seen after that time is not stale. The
procedure is the MODEL's reading of host software (log 17, DESIGN CHOICE). -/
def Obligations.NoStaleHypothesisAfterCapture : Prop :=
  ∀ (h : HostChoices) (now : BitVec 64) (y : System),
    Inv y.machine → y.machine.status.busy = false → y.machine.status.planValid = true → RegistryOk y →
    ∀ e ∈ (processCapture h now y).host.reg,
      ¬(((processCapture h now y).machine.slot e.2).lastSeenUs.toNat ≤ now.toNat ∧
        h.maxAgeUs.toNat < now.toNat - ((processCapture h now y).machine.slot e.2).lastSeenUs.toNat)
end

