-- ==== Sys2Proof/Laws/Decode.lean ====
section
/-! SUPPORT. The fields of a command word, and everything the decoder can answer. -/

namespace Sys2Proof.Laws

/-- Field `op` of an assembled word. -/
theorem opField_commandWord (op s p : Nat) : opField (commandWord op s p) = op % 2 ^ 8 := by
  have h : (commandWord op s p).extractLsb' 24 8 = BitVec.ofNat 8 op := by
    ext i hi
    rw [commandWord]
    simp only [BitVec.getElem_extractLsb', BitVec.getLsbD_append]
    have h1 : ¬24 + i < 16 := by omega
    have h2 : ¬24 + i - 16 < 8 := by omega
    have h3 : 24 + i - 16 - 8 = i := by omega
    simp [h1, h2, h3, hi]
  rw [opField, h, BitVec.toNat_ofNat]

/-- Field `slot` of an assembled word. -/
theorem slotField_commandWord (op s p : Nat) : slotField (commandWord op s p) = s % 2 ^ 8 := by
  have h : (commandWord op s p).extractLsb' 16 8 = BitVec.ofNat 8 s := by
    ext i hi
    rw [commandWord]
    simp only [BitVec.getElem_extractLsb', BitVec.getLsbD_append]
    have h1 : ¬16 + i < 16 := by omega
    have h2 : 16 + i - 16 = i := by omega
    simp [h1, h2, hi]
  rw [slotField, h, BitVec.toNat_ofNat]

/-- Field `peak` of an assembled word. -/
theorem peakField_commandWord (op s p : Nat) : peakField (commandWord op s p) = p % 2 ^ 16 := by
  have h : (commandWord op s p).extractLsb' 0 16 = BitVec.ofNat 16 p := by
    ext i hi
    rw [commandWord]
    simp only [BitVec.getElem_extractLsb', BitVec.getLsbD_append, Nat.zero_add]
    simp [hi]
  rw [peakField, h, BitVec.toNat_ofNat]

/-- Every word is assembled from its three fields. -/
theorem commandWord_fields (c : BitVec 32) : commandWord (opField c) (slotField c) (peakField c) = c := by
  simp only [commandWord, opField, slotField, peakField, BitVec.ofNat_toNat, BitVec.setWidth_eq]
  ext i hi
  simp only [BitVec.getElem_append, BitVec.getElem_extractLsb']
  split
  · rw [Nat.zero_add, BitVec.getLsbD_eq_getElem]
  · split
    · rw [show 16 + (i - 16) = i by omega, BitVec.getLsbD_eq_getElem]
    · rw [show 24 + (i - 16 - 8) = i by omega, BitVec.getLsbD_eq_getElem]

end Sys2Proof.Laws
end

