-- ==== Sys2Proof/Laws/Float.lean ====
section
/-! SUPPORT. What the one rounding function of the real operations does (00_scope.md R15): the magnitude it answers is
nearest to the exact quotient, and even on a tie. -/

namespace Sys2Proof.Laws

open Sys2Proof.Machine

/-- The magnitude a magnitude field stands for, in units of 2^-1074. -/
def magUnits (g : Nat) : Nat := if g / 2 ^ 52 = 0 then g else (g % 2 ^ 52 + 2 ^ 52) * 2 ^ (g / 2 ^ 52 - 1)

/-- The field of a significand at a scale: a significand of 53 bits, or any below that at scale 0. -/
theorem magUnits_scaled (scale q : Nat) (hq : q ≤ 2 ^ 53) (h : scale = 0 ∨ 2 ^ 52 ≤ q) :
    magUnits (scale * 2 ^ 52 + q) = q * 2 ^ scale := by
  rw [magUnits]
  by_cases h1 : q < 2 ^ 52
  · obtain rfl : scale = 0 := h.resolve_right (by omega)
    rw [Nat.zero_mul, Nat.zero_add, if_pos (Nat.div_eq_of_lt h1), pow_zero, Nat.mul_one]
  · by_cases h2 : q = 2 ^ 53
    · subst h2
      have e1 : (scale * 2 ^ 52 + 2 ^ 53) / 2 ^ 52 = scale + 2 := by omega
      have e2 : (scale * 2 ^ 52 + 2 ^ 53) % 2 ^ 52 = 0 := by omega
      rw [e1, e2, if_neg (by omega), show scale + 2 - 1 = scale + 1 by omega, pow_succ]
      ring
    · have e1 : (scale * 2 ^ 52 + q) / 2 ^ 52 = scale + 1 := by omega
      have e2 : (scale * 2 ^ 52 + q) % 2 ^ 52 = q - 2 ^ 52 := by omega
      rw [e1, e2, if_neg (by omega), show q - 2 ^ 52 + 2 ^ 52 = q by omega, Nat.add_sub_cancel]

/-- Every field is a significand at a scale. -/
theorem exists_scaled (g : Nat) : ∃ scale q, g = scale * 2 ^ 52 + q ∧ q < 2 ^ 53 ∧ (scale = 0 ∨ 2 ^ 52 ≤ q) := by
  by_cases h : g < 2 ^ 53
  · exact ⟨0, g, by omega, h, .inl rfl⟩
  · exact ⟨g / 2 ^ 52 - 1, g % 2 ^ 52 + 2 ^ 52, by omega, by omega, .inr (by omega)⟩

/-- The next field stands for a larger magnitude. -/
theorem magUnits_lt_succ (g : Nat) : magUnits g < magUnits (g + 1) := by
  obtain ⟨scale, q, rfl, hq, h⟩ := exists_scaled g
  rw [magUnits_scaled scale q (by omega) h, Nat.add_assoc, magUnits_scaled scale (q + 1) (by omega) (by omega)]
  exact Nat.mul_lt_mul_of_pos_right (by omega) (by positivity)

/-- Fields order magnitudes. -/
theorem magUnits_strictMono : StrictMono magUnits := strictMono_nat_of_lt_succ magUnits_lt_succ

/-- Rounding in terms of the significand below the exact quotient: the answer is it or the next one. -/
theorem roundUnits_scaled (n d : Nat) (hd : 0 < d) :
    ∃ scale q, q < 2 ^ 53 ∧ (scale = 0 ∨ 2 ^ 52 ≤ q) ∧ q * (d * 2 ^ scale) ≤ n ∧ n < (q + 1) * (d * 2 ^ scale) ∧
      roundUnits n d = scale * 2 ^ 52 +
        (if (2 * q + 1) * (d * 2 ^ scale) < 2 * n ∨ (2 * n = (2 * q + 1) * (d * 2 ^ scale) ∧ q % 2 = 1)
          then q + 1 else q) := by
  refine ⟨(n / d).log2 - 52, n / (d * 2 ^ ((n / d).log2 - 52)), ?_, ?_, ?_, ?_, ?_⟩
  · rw [← Nat.div_div_eq_div_mul, Nat.div_lt_iff_lt_mul (by positivity), ← pow_add]
    exact lt_of_lt_of_le Nat.lt_log2_self (Nat.pow_le_pow_right (by omega) (by omega))
  · by_cases h : (n / d).log2 ≤ 52
    · exact .inl (by omega)
    · refine .inr ?_
      rw [← Nat.div_div_eq_div_mul, Nat.le_div_iff_mul_le (by positivity), ← pow_add]
      have : n / d ≠ 0 := by
        rintro h0
        rw [h0] at h
        exact h (by decide)
      calc 2 ^ (52 + ((n / d).log2 - 52)) = 2 ^ (n / d).log2 := by rw [show 52 + ((n / d).log2 - 52) = (n / d).log2 by omega]
        _ ≤ n / d := Nat.log2_self_le this
  · exact Nat.div_mul_le_self n _
  · rw [mul_comm, ]
    exact Nat.lt_mul_div_succ n (by positivity)
  · have hr := Nat.div_add_mod n (d * 2 ^ ((n / d).log2 - 52))
    simp only [roundUnits]
    congr 1
    generalize d * 2 ^ ((n / d).log2 - 52) = D at *
    generalize n % D = r at *
    generalize n / D = q at *
    subst hr
    congr 1
    rw [eq_iff_iff]
    have e : (2 * q + 1) * D = 2 * (D * q) + D := by ring
    rw [e]
    constructor
    · rintro (h | ⟨h, hq⟩)
      · exact .inl (by omega)
      · exact .inr ⟨by omega, hq⟩
    · rintro (h | ⟨h, hq⟩)
      · exact .inl (by omega)
      · exact .inr ⟨by omega, hq⟩

/-- The rounded magnitude is nearest to `n / d` units: no other field's magnitude is nearer; and where another is as
near, the answer's lowest bit is 0. -/
theorem roundUnits_nearest (n d h : Nat) (hd : 0 < d) :
    |(magUnits (roundUnits n d) : Int) * d - n| ≤ |(magUnits h : Int) * d - n| ∧
    (|(magUnits (roundUnits n d) : Int) * d - n| = |(magUnits h : Int) * d - n| → magUnits h ≠ magUnits (roundUnits n d) →
      roundUnits n d % 2 = 0) := by
  obtain ⟨scale, q, hq, hs, hlo, hhi, he⟩ := roundUnits_scaled n d hd
  have v0 : magUnits (scale * 2 ^ 52 + q) * d = q * (d * 2 ^ scale) := by
    rw [magUnits_scaled scale q (by omega) hs]
    ring
  have v1 : magUnits (scale * 2 ^ 52 + (q + 1)) * d = (q + 1) * (d * 2 ^ scale) := by
    rw [magUnits_scaled scale (q + 1) (by omega) (by omega)]
    ring
  have hh : magUnits h * d ≤ q * (d * 2 ^ scale) ∨ (q + 1) * (d * 2 ^ scale) ≤ magUnits h * d := by
    rcases Nat.lt_or_ge (scale * 2 ^ 52 + q) h with hlt | hle
    · rw [← v1]
      exact .inr (Nat.mul_le_mul_right d (magUnits_strictMono.monotone (by omega)))
    · rw [← v0]
      exact .inl (Nat.mul_le_mul_right d (magUnits_strictMono.monotone hle))
  have hne : ∀ g, magUnits h ≠ magUnits g → magUnits h * d ≠ magUnits g * d :=
    fun g hg e => hg (Nat.eq_of_mul_eq_mul_right hd e)
  generalize d * 2 ^ scale = D at *
  have e2 : (2 * q + 1) * D = 2 * (q * D) + D := by ring
  have e3 : (q + 1) * D = q * D + D := by ring
  rw [e2] at he
  rw [e3] at hhi v1 hh
  generalize hA : q * D = A at *
  have hP : ((magUnits h : Int)) * d = ((magUnits h * d : Nat) : Int) := by push_cast; rfl
  have hR : ((magUnits (roundUnits n d) : Int)) * d = ((magUnits (roundUnits n d) * d : Nat) : Int) := by push_cast; rfl
  have hne' := hne (roundUnits n d)
  rw [hP, hR]
  generalize magUnits h * d = P at *
  simp only [abs_eq_max_neg]
  split at he
  · rw [show magUnits (roundUnits n d) * d = A + D by rw [he, v1]] at hne' ⊢
    refine ⟨by omega, fun ht hn => ?_⟩
    have := hne' hn
    omega
  · rw [show magUnits (roundUnits n d) * d = A by rw [he, v0]] at hne' ⊢
    refine ⟨by omega, fun ht hn => ?_⟩
    have := hne' hn
    omega

/-! ### Patterns -/

theorem fmag_lt (x : F64) : fmag x < 2 ^ 63 := (x.extractLsb' 0 63).isLt

/-- The exponent and the fraction are the two parts of the magnitude field. -/
theorem fmag_eq (x : F64) : fmag x = fexp x * 2 ^ 52 + ffrac x := by
  simp only [fmag, fexp, ffrac, BitVec.extractLsb'_toNat, Nat.shiftRight_eq_div_pow]
  omega

theorem ffrac_lt (x : F64) : ffrac x < 2 ^ 52 := (x.extractLsb' 0 52).isLt

/-- The magnitude of a pattern is that of its magnitude field. -/
theorem funits_eq (x : F64) : funits x = magUnits (fmag x) := by
  have h := ffrac_lt x
  have e1 : (fexp x * 2 ^ 52 + ffrac x) / 2 ^ 52 = fexp x := by omega
  have e2 : (fexp x * 2 ^ 52 + ffrac x) % 2 ^ 52 = ffrac x := by omega
  rw [funits, fmag_eq, magUnits, e1, e2]
  split
  · rename_i h0
    rw [h0]
    omega
  · rfl

@[simp] theorem fsign_fpack (sign : Bool) (g : Nat) : fsign (fpack sign g) = sign := by
  rw [fsign, fpack, BitVec.getLsbD_append]
  simp

@[simp] theorem fmag_fpack (sign : Bool) (g : Nat) : fmag (fpack sign g) = g % 2 ^ 63 := by
  have h : (fpack sign g).extractLsb' 0 63 = BitVec.ofNat 63 g := by
    ext i hi
    simp only [fpack, BitVec.getElem_extractLsb', BitVec.getLsbD_append, Nat.zero_add]
    simp [hi]
  rw [fmag, h, BitVec.toNat_ofNat]

/-- A pattern is finite exactly when its magnitude field lies below that of an infinity. -/
theorem isFinite_iff (x : F64) : isFinite x = true ↔ fmag x < 2047 * 2 ^ 52 := by
  have h := ffrac_lt x
  have h1 : fexp x < 2 ^ 11 := (x.extractLsb' 52 11).isLt
  rw [fmag_eq, isFinite, bne_iff_ne]
  omega

/-- Bit 0 of a pattern is the parity of its magnitude field. -/
theorem getLsbD_zero_eq (x : F64) : x.getLsbD 0 = decide (fmag x % 2 = 1) := by
  rw [← BitVec.testBit_toNat, Nat.testBit_zero]
  simp only [fmag, BitVec.extractLsb'_toNat, Nat.shiftRight_zero]
  congr 1
  rw [eq_iff_iff]
  omega

/-- A rounded value that is finite has the rounded magnitude as its field. -/
theorem fmag_fround {sign : Bool} {n d : Nat} (h : isFinite (fround sign n d) = true) :
    fmag (fround sign n d) = roundUnits n d ∧ fsign (fround sign n d) = sign := by
  rw [isFinite_iff] at h
  simp only [fround] at h ⊢
  split at h
  · simp [finf] at h
  · rw [if_neg (by assumption), fmag_fpack, fsign_fpack, Nat.mod_eq_of_lt (by omega)]
    exact ⟨rfl, rfl⟩

/-- Rounding stays below the field of an infinity exactly below half a step beyond the largest finite magnitude. -/
theorem roundUnits_lt_inf_iff (n d : Nat) (hd : 0 < d) :
    roundUnits n d < 2047 * 2 ^ 52 ↔ n < (2 ^ 54 - 1) * 2 ^ 2044 * d := by
  obtain ⟨scale, q, hq, hs, hlo, hhi, he⟩ := roundUnits_scaled n d hd
  have hp : 0 < d * 2 ^ 2044 := by positivity
  have e0 : (2 ^ 54 - 1) * 2 ^ 2044 * d = (2 ^ 54 - 1) * (d * 2 ^ 2044) := by
    rw [Nat.mul_assoc, Nat.mul_comm (2 ^ 2044) d]
  rw [he, e0]
  rcases Nat.lt_trichotomy scale 2045 with h | h | h
  · have h1 : (q + 1) * (d * 2 ^ scale) ≤ 2 ^ 53 * (d * 2 ^ 2044) :=
      Nat.mul_le_mul hq (Nat.mul_le_mul_left d (pow_le_pow_right₀ (by decide) (show scale ≤ 2044 by omega)))
    generalize d * 2 ^ 2044 = D at *
    refine iff_of_true ?_ ?_ <;> [split; skip] <;> omega
  · subst h
    have e1 : d * 2 ^ 2045 = 2 * (d * 2 ^ 2044) := by
      rw [show 2045 = 2044 + 1 from rfl, pow_succ, ← Nat.mul_assoc, Nat.mul_comm _ 2]
    rw [e1] at hlo hhi ⊢
    generalize d * 2 ^ 2044 = D at *
    by_cases h : q = 2 ^ 53 - 1
    · subst h
      split <;> omega
    · have h1 : (q + 1) * (2 * D) ≤ (2 ^ 53 - 1) * (2 * D) := Nat.mul_le_mul_right _ (by omega)
      refine iff_of_true ?_ ?_ <;> [split; skip] <;> omega
  · have h1 : 2 ^ 52 * (d * 2 ^ 2046) ≤ q * (d * 2 ^ scale) :=
      Nat.mul_le_mul (hs.resolve_left (by omega)) (Nat.mul_le_mul_left d (pow_le_pow_right₀ (by decide) h))
    have e1 : d * 2 ^ 2046 = 4 * (d * 2 ^ 2044) := by
      rw [show 2046 = 2044 + 2 from rfl, pow_add, ← Nat.mul_assoc, Nat.mul_comm _ (2 ^ 2)]
      rfl
    rw [e1] at h1
    generalize d * 2 ^ 2044 = D at *
    refine iff_of_false ?_ ?_ <;> [split; skip] <;> omega

/-- What rounding with a sign answers: from half a step beyond the largest finite magnitude on, the infinity of the sign;
below it, a finite value of the sign whose field is the rounded magnitude. -/
theorem fround_cases (sign : Bool) (n d : Nat) (hd : 0 < d) :
    ((2 ^ 54 - 1) * 2 ^ 2044 * d ≤ n ∧ fround sign n d = finf sign) ∨
    (n < (2 ^ 54 - 1) * 2 ^ 2044 * d ∧ isFinite (fround sign n d) = true ∧
      fmag (fround sign n d) = roundUnits n d ∧ fsign (fround sign n d) = sign) := by
  by_cases h : roundUnits n d < 2047 * 2 ^ 52
  · have hf : isFinite (fround sign n d) = true := by
      rw [isFinite_iff, fround, if_neg (by omega), fmag_fpack, Nat.mod_eq_of_lt (by omega)]
      exact h
    exact .inr ⟨(roundUnits_lt_inf_iff n d hd).1 h, hf, fmag_fround hf⟩
  · refine .inl ⟨Nat.le_of_not_lt (mt (roundUnits_lt_inf_iff n d hd).2 h), ?_⟩
    rw [fround, if_pos (by omega)]

/-- A free NaN pattern is a NaN, whatever the free value. -/
@[simp] theorem isNaN_nanOf (p : F64) : isNaN (nanOf p) = true := by
  rw [nanOf]
  split
  · assumption
  · decide

end Sys2Proof.Laws
end

