-- ==== Sys2Proof/Laws/Frame.lean ====
section
/-! SUPPORT. What `field` and the CRC register do, one bit at a time (43_crc16_frame.md R203, R205). -/

namespace Sys2Proof.Laws

open Sys2Proof.Machine

theorem bitNat_lt (b : Bool) : bitNat b < 2 := by
  cases b <;> decide

@[simp] theorem field_zero (bits : List Bool) (a : Nat) : field bits a 0 = 0 := rfl

/-- A field grows by one bit at its low end. -/
theorem field_succ (bits : List Bool) (a n : Nat) :
    field bits a (n + 1) = 2 * field bits a n + bitNat (bits.getD (a + n) false) := by
  simp [field, List.range_succ]

theorem field_lt (bits : List Bool) (a n : Nat) : field bits a n < 2 ^ n := by
  induction n with
  | zero => simp
  | succ n ih =>
    have h := bitNat_lt (bits.getD (a + n) false)
    rw [field_succ]
    omega

/-- The first bit of a field is its most significant one. -/
theorem testBit_field (bits : List Bool) (a n j : Nat) (h : j < n) :
    (field bits a n).testBit (n - 1 - j) = bits.getD (a + j) false := by
  induction n generalizing j with
  | zero => omega
  | succ n ih =>
    rw [field_succ]
    by_cases hj : j = n
    · subst hj
      rw [show j + 1 - 1 - j = 0 by omega]
      cases bits.getD (a + j) false <;> simp [bitNat, Nat.testBit_zero]
    · have hb := bitNat_lt (bits.getD (a + n) false)
      rw [show n + 1 - 1 - j = (n - 1 - j) + 1 by omega, Nat.testBit_succ, ← ih j (by omega)]
      congr 1
      omega

/-- Two adjacent fields make one. -/
theorem field_add (bits : List Bool) (a n k : Nat) :
    field bits a (n + k) = field bits a n * 2 ^ k + field bits (a + n) k := by
  induction k with
  | zero => simp
  | succ k ih =>
    rw [← Nat.add_assoc, field_succ, field_succ, ih, pow_succ, Nat.add_assoc a n k]
    ring

@[simp] theorem crc16_nil : crc16 [] = 0 := rfl

/-- The CRC goes on where it stopped. -/
theorem crc16_append (a b : List Bool) : crc16 (a ++ b) = b.foldl crcStep (crc16 a) := by
  simp [crc16]

end Sys2Proof.Laws
end

