-- ==== Sys2Proof/Laws/Memory.lean ====
section
/-! SUPPORT. What the memory operations do: reading after writing, and the canonical form. -/

namespace Sys2Proof.Laws

open Sys2Proof.Machine

/-! ### Bytes -/

theorem readByte_writeByte (m : List Host.Cell) (a x : Nat) (b : BitVec 8) :
    readByte (writeByte m a b) x = if x = a then some b else readByte m x := by
  induction m with
  | nil =>
    simp only [writeByte, readByte, eq_comm]
  | cons c rest ih =>
    obtain ⟨k, v⟩ := c
    simp only [writeByte]
    split
    · simp only [readByte, eq_comm]
    · split
      · rename_i h1 h2
        subst h2
        simp only [readByte, eq_comm]
        split <;> simp_all
      · simp only [readByte, ih]
        split
        · rename_i h
          subst h
          simp_all [eq_comm]
        · rfl

theorem risingFrom_mono {lo lo' : Nat} (h : lo' ≤ lo) {m : List Host.Cell} (hm : risingFrom lo m = true) :
    risingFrom lo' m = true := by
  cases m with
  | nil => rfl
  | cons c rest =>
    simp only [risingFrom, Bool.and_eq_true, decide_eq_true_eq] at hm ⊢
    exact ⟨le_trans h hm.1, hm.2⟩

theorem risingFrom_writeByte {lo : Nat} {m : List Host.Cell} (a : Nat) (b : BitVec 8) (ha : lo ≤ a)
    (hm : risingFrom lo m = true) : risingFrom lo (writeByte m a b) = true := by
  induction m generalizing lo with
  | nil => simp [writeByte, risingFrom, ha]
  | cons c rest ih =>
    obtain ⟨k, v⟩ := c
    simp only [risingFrom, Bool.and_eq_true, decide_eq_true_eq] at hm
    simp only [writeByte]
    split
    · simp only [risingFrom, Bool.and_eq_true, decide_eq_true_eq]
      exact ⟨ha, by omega, hm.2⟩
    · split
      · rename_i h1 h2
        subst h2
        simp only [risingFrom, Bool.and_eq_true, decide_eq_true_eq]
        exact hm
      · simp only [risingFrom, Bool.and_eq_true, decide_eq_true_eq]
        exact ⟨hm.1, ih (by omega) hm.2⟩

/-- A byte write keeps the canonical form. -/
theorem memoryWf_writeByte {m : List Host.Cell} (a : Nat) (b : BitVec 8) (hm : memoryWf m = true) :
    memoryWf (writeByte m a b) = true := risingFrom_writeByte a b (Nat.zero_le a) hm

theorem readByte_below {lo x : Nat} {m : List Host.Cell} (hm : risingFrom lo m = true) (hx : x < lo) :
    readByte m x = none := by
  induction m generalizing lo with
  | nil => rfl
  | cons c rest ih =>
    obtain ⟨k, v⟩ := c
    simp only [risingFrom, Bool.and_eq_true, decide_eq_true_eq] at hm
    simp only [readByte]
    rw [if_neg (by omega)]
    exact ih hm.2 (by omega)

theorem eq_of_readByte_eq_from {lo : Nat} {m m' : List Host.Cell} (h : risingFrom lo m = true)
    (h' : risingFrom lo m' = true) (heq : ∀ x, readByte m x = readByte m' x) : m = m' := by
  induction m generalizing lo m' with
  | nil =>
    cases m' with
    | nil => rfl
    | cons c rest => have := heq c.1; simp [readByte] at this
  | cons c rest ih =>
    obtain ⟨k, v⟩ := c
    simp only [risingFrom, Bool.and_eq_true, decide_eq_true_eq] at h
    cases m' with
    | nil => have := heq k; simp [readByte] at this
    | cons c' rest' =>
      obtain ⟨k', v'⟩ := c'
      simp only [risingFrom, Bool.and_eq_true, decide_eq_true_eq] at h'
      have hk : k = k' := by
        rcases Nat.lt_trichotomy k k' with hlt | he | hlt
        · have := heq k
          rw [readByte, if_pos rfl, readByte, if_neg (by omega), readByte_below h'.2 (by omega)] at this
          cases this
        · exact he
        · have := heq k'
          rw [readByte, if_neg (by omega), readByte_below h.2 (by omega), readByte, if_pos rfl] at this
          cases this
      subst hk
      have hv : v = v' := by
        have := heq k
        simpa [readByte] using this
      subst hv
      have hrest : rest = rest' := by
        refine ih h.2 h'.2 fun x => ?_
        by_cases hx : x < k + 1
        · rw [readByte_below h.2 hx, readByte_below h'.2 hx]
        · have := heq x
          rwa [readByte, if_neg (by omega), readByte, if_neg (by omega)] at this
      rw [hrest]

/-- Equal memories in canonical form are equal data. -/
theorem eq_of_readByte_eq {m m' : List Host.Cell} (h : memoryWf m = true) (h' : memoryWf m' = true)
    (heq : ∀ x, readByte m x = readByte m' x) : m = m' := eq_of_readByte_eq_from h h' heq

theorem mem_writeByte {m : List Host.Cell} {a : Nat} {b : BitVec 8} {c : Host.Cell} (h : c ∈ writeByte m a b) :
    c = (a, b) ∨ c ∈ m := by
  induction m with
  | nil => simpa [writeByte] using h
  | cons d rest ih =>
    obtain ⟨k, v⟩ := d
    simp only [writeByte] at h
    split at h
    · simpa using h
    · split at h
      · rename_i h2
        rcases List.mem_cons.1 h with h | h
        · exact .inl h
        · exact .inr (List.mem_cons_of_mem _ h)
      · rcases List.mem_cons.1 h with h | h
        · exact .inr (h ▸ List.mem_cons_self)
        · exact (ih h).imp_right (List.mem_cons_of_mem _)

/-! ### Words -/

theorem readByte_writeLanes (m : List Host.Cell) (a : Nat) (v : Word) (count x : Nat) :
    readByte (writeLanes m a v count) x =
      if a ≤ x ∧ x < a + count then some (lane v (x - a)) else readByte m x := by
  induction count with
  | zero => rw [writeLanes, if_neg (by omega)]
  | succ n ih =>
    rw [writeLanes, readByte_writeByte, ih]
    by_cases h : x = a + n
    · subst h
      rw [if_pos rfl, if_pos (by omega)]
      congr 2
      omega
    · rw [if_neg h]
      by_cases h2 : a ≤ x ∧ x < a + n
      · rw [if_pos h2, if_pos (by omega)]
      · rw [if_neg h2, if_neg (by omega)]

/-- Every byte after a word write: the word's lanes, and everything else as before. -/
theorem readByte_writeWord (m : List Host.Cell) (a : Nat) (v : Word) (x : Nat) :
    readByte (writeWord m a v) x = if a ≤ x ∧ x < a + 8 then some (lane v (x - a)) else readByte m x :=
  readByte_writeLanes m a v 8 x

theorem memoryWf_writeLanes {m : List Host.Cell} (a : Nat) (v : Word) (count : Nat) (hm : memoryWf m = true) :
    memoryWf (writeLanes m a v count) = true := by
  induction count with
  | zero => exact hm
  | succ n ih => exact memoryWf_writeByte _ _ ih

/-- A word write keeps the canonical form. -/
theorem memoryWf_writeWord {m : List Host.Cell} (a : Nat) (v : Word) (hm : memoryWf m = true) :
    memoryWf (writeWord m a v) = true := memoryWf_writeLanes a v 8 hm

theorem mem_writeLanes {m : List Host.Cell} {a : Nat} {v : Word} {count : Nat} {c : Host.Cell}
    (h : c ∈ writeLanes m a v count) : (a ≤ c.1 ∧ c.1 < a + count) ∨ c ∈ m := by
  induction count with
  | zero => exact .inr h
  | succ n ih =>
    rcases mem_writeByte h with h | h
    · subst h
      exact .inl ⟨by simp, by simp⟩
    · rcases ih h with h | h
      · exact .inl ⟨h.1, by omega⟩
      · exact .inr h

theorem lanes_append (v : Word) :
    lane v 7 ++ lane v 6 ++ lane v 5 ++ lane v 4 ++ lane v 3 ++ lane v 2 ++ lane v 1 ++ lane v 0 = v := by
  ext i hi
  simp only [lane, BitVec.getElem_append, BitVec.getElem_extractLsb']
  repeat' split
  all_goals
    rw [BitVec.getLsbD_eq_getElem (by omega)]
    congr 1
    omega

theorem readWord_writeWord_same (m : List Host.Cell) (a : Nat) (v : Word) :
    readWord (writeWord m a v) a = some v := by
  simp only [readWord, readByte_writeWord]
  simp only [show ∀ k, k < 8 → (a ≤ a + k ∧ a + k < a + 8) from fun k hk => by omega, le_refl, true_and,
    show a < a + 8 from by omega, if_true, Nat.add_sub_cancel_left, Nat.sub_self, Nat.reduceLT]
  simp only [Option.bind_eq_bind, Option.bind_some, Option.some.injEq]
  exact lanes_append v

theorem readWord_congr {m m' : List Host.Cell} {b : Nat}
    (h : ∀ x, b ≤ x → x < b + 8 → readByte m x = readByte m' x) : readWord m b = readWord m' b := by
  simp only [readWord]
  rw [h b (by omega) (by omega), h (b + 1) (by omega) (by omega), h (b + 2) (by omega) (by omega),
    h (b + 3) (by omega) (by omega), h (b + 4) (by omega) (by omega), h (b + 5) (by omega) (by omega),
    h (b + 6) (by omega) (by omega), h (b + 7) (by omega) (by omega)]

theorem readWord_writeWord_other (m : List Host.Cell) (a b : Nat) (v : Word) (h : b + 8 ≤ a ∨ a + 8 ≤ b) :
    readWord (writeWord m a v) b = readWord m b := by
  refine readWord_congr fun x h1 h2 => ?_
  rw [readByte_writeWord, if_neg (by omega)]

/-! ### Regions -/

@[simp] theorem put_cells (r : Region) (off : Nat) (v : Word) : (r.put off v).cells = writeWord r.cells off v := rfl
@[simp] theorem put_stamp (r : Region) (off : Nat) (v : Word) : (r.put off v).stamp = r.stamp := rfl
@[simp] theorem restamp_cells (r : Region) (d : Nat) : (r.restamp d).cells = r.cells := rfl
@[simp] theorem restamp_stamp (r : Region) (d : Nat) : (r.restamp d).stamp = d := rfl
@[simp] theorem unwritten_cells (d : Nat) : (Region.unwritten d).cells = [] := rfl
@[simp] theorem unwritten_stamp (d : Nat) : (Region.unwritten d).stamp = d := rfl

@[simp] theorem word_put_same (r : Region) (base off : Nat) (v : Word) : (r.put off v).word base off = v := by
  simp [Region.word, readWord_writeWord_same]

theorem word_put_other (r : Region) (base off off' : Nat) (v : Word) (h : off' + 8 ≤ off ∨ off + 8 ≤ off') :
    (r.put off v).word base off' = r.word base off' := by
  simp [Region.word, readWord_writeWord_other _ _ _ _ h]

theorem mem_put {r : Region} {off : Nat} {v : Word} {c : Host.Cell} (h : c ∈ (r.put off v).cells) :
    (off ≤ c.1 ∧ c.1 < off + 8) ∨ c ∈ r.cells := mem_writeLanes (count := 8) h

theorem memoryWf_put {r : Region} (off : Nat) (v : Word) (h : memoryWf r.cells = true) :
    memoryWf (r.put off v).cells = true := memoryWf_writeWord off v h

theorem putC64_c64_same (r : Region) (base i : Nat) (x : C64) : (r.putC64 i x).c64 base i = x := by
  simp only [Region.c64, Region.putC64, word_put_same]
  rw [word_put_other _ _ _ _ _ (by omega), word_put_same]

theorem putC64_c64_other (r : Region) (base i j : Nat) (x : C64) (h : j ≠ i) :
    (r.putC64 i x).c64 base j = r.c64 base j := by
  simp only [Region.c64, Region.putC64]
  rw [word_put_other _ _ _ _ _ (by omega), word_put_other _ _ _ _ _ (by omega),
    word_put_other _ _ _ _ _ (by omega), word_put_other _ _ _ _ _ (by omega)]

theorem readByte_putC64 (r : Region) (i : Nat) (x : C64) (a : Nat) (h : a < 16 * i ∨ 16 * (i + 1) ≤ a) :
    readByte (r.putC64 i x).cells a = readByte r.cells a := by
  simp only [Region.putC64, put_cells, readByte_writeWord]
  rw [if_neg (by omega), if_neg (by omega)]

@[simp] theorem putC64_stamp (r : Region) (i : Nat) (x : C64) : (r.putC64 i x).stamp = r.stamp := by
  rw [Region.putC64]
  simp only [put_stamp]

@[simp] theorem putC64s_stamp (r : Region) (i : Nat) (xs : List C64) : (r.putC64s i xs).stamp = r.stamp := by
  induction xs generalizing r i with
  | nil => rfl
  | cons x xs ih => rw [Region.putC64s, ih, putC64_stamp]

theorem putC64s_c64_outside (r : Region) (base i j : Nat) (xs : List C64) (h : j < i ∨ i + xs.length ≤ j) :
    (r.putC64s i xs).c64 base j = r.c64 base j := by
  induction xs generalizing r i with
  | nil => rfl
  | cons x xs ih =>
    rw [List.length_cons] at h
    rw [Region.putC64s, ih _ _ (by omega), putC64_c64_other _ _ _ _ _ (by omega)]

/-- Every entry stored by a bulk write reads back. -/
theorem putC64s_c64 (r : Region) (base i k : Nat) (xs : List C64) (h : k < xs.length) :
    (r.putC64s i xs).c64 base (i + k) = xs[k] := by
  induction xs generalizing r i k with
  | nil => simp at h
  | cons x xs ih =>
    rw [Region.putC64s]
    cases k with
    | zero =>
      rw [putC64s_c64_outside _ _ _ _ _ (by omega)]
      exact putC64_c64_same r base i x
    | succ k =>
      rw [List.length_cons] at h
      rw [show i + (k + 1) = i + 1 + k from by omega, ih _ _ _ (by omega)]
      rfl

/-- A bulk write changes no byte outside its entries. -/
theorem readByte_putC64s (r : Region) (i : Nat) (xs : List C64) (a : Nat)
    (h : a < 16 * i ∨ 16 * (i + xs.length) ≤ a) : readByte (r.putC64s i xs).cells a = readByte r.cells a := by
  induction xs generalizing r i with
  | nil => rfl
  | cons x xs ih =>
    rw [List.length_cons] at h
    rw [Region.putC64s, ih _ _ (by omega), readByte_putC64 _ _ _ _ (by omega)]

theorem memoryWf_putC64 {r : Region} (i : Nat) (x : C64) (h : memoryWf r.cells = true) :
    memoryWf (r.putC64 i x).cells = true := by
  rw [Region.putC64]
  exact memoryWf_put _ _ (memoryWf_put _ _ h)

/-- A bulk write keeps the canonical form. -/
theorem memoryWf_putC64s {r : Region} (i : Nat) (xs : List C64) (h : memoryWf r.cells = true) :
    memoryWf (r.putC64s i xs).cells = true := by
  induction xs generalizing r i with
  | nil => exact h
  | cons x xs ih =>
    rw [Region.putC64s]
    exact ih _ (memoryWf_putC64 i x h)

theorem mem_putC64 {r : Region} {i : Nat} {x : C64} {c : Host.Cell} (h : c ∈ (r.putC64 i x).cells) :
    (16 * i ≤ c.1 ∧ c.1 < 16 * (i + 1)) ∨ c ∈ r.cells := by
  rw [Region.putC64] at h
  rcases mem_put h with h | h
  · exact .inl ⟨by omega, by omega⟩
  rcases mem_put h with h | h
  · exact .inl ⟨by omega, by omega⟩
  exact .inr h

/-- A listed byte after a bulk write was stored by it or was listed before. -/
theorem mem_putC64s {r : Region} {i : Nat} {xs : List C64} {c : Host.Cell} (h : c ∈ (r.putC64s i xs).cells) :
    (16 * i ≤ c.1 ∧ c.1 < 16 * (i + xs.length)) ∨ c ∈ r.cells := by
  induction xs generalizing r i with
  | nil => exact .inr h
  | cons x xs ih =>
    rw [List.length_cons]
    rw [Region.putC64s] at h
    rcases ih h with h | h
    · exact .inl ⟨by omega, by omega⟩
    · rcases mem_putC64 h with h | h
      · exact .inl ⟨by omega, by omega⟩
      · exact .inr h

/-! ### The peak list -/

/-- The entry a region holds at index `p` (20_memory.md R85). -/
def peakOf (r : Region) (base p : Nat) : PeakEntry where
  bin := (r.word base (32 * p)).setWidth 32
  freq := r.word base (32 * p + 8)
  value := ⟨r.word base (32 * p + 16), r.word base (32 * p + 24)⟩

theorem peakAt_eq (s : State) (p : Nat) : s.peakAt p = peakOf s.peak RegionId.peak.base p := rfl

theorem putPeak_same (r : Region) (base p : Nat) (x : PeakEntry) : peakOf (r.putPeak p x) base p = x := by
  simp only [peakOf, Region.putPeak]
  rw [word_put_other _ _ _ _ _ (by omega), word_put_other _ _ _ _ _ (by omega),
    word_put_other _ _ _ _ _ (by omega), word_put_same, word_put_other _ _ _ _ _ (by omega),
    word_put_other _ _ _ _ _ (by omega), word_put_same, word_put_other _ _ _ _ _ (by omega), word_put_same,
    word_put_same]
  cases x
  simp

theorem putPeak_other (r : Region) (base p q : Nat) (x : PeakEntry) (h : q ≠ p) :
    peakOf (r.putPeak p x) base q = peakOf r base q := by
  simp only [peakOf, Region.putPeak]
  simp (disch := omega) only [word_put_other]

theorem readByte_putPeak (r : Region) (p : Nat) (x : PeakEntry) (a : Nat) (h : a < 32 * p ∨ 32 * (p + 1) ≤ a) :
    readByte (r.putPeak p x).cells a = readByte r.cells a := by
  simp only [Region.putPeak, put_cells, readByte_writeWord]
  simp (disch := omega) only [if_neg]

theorem memoryWf_putPeak {r : Region} (p : Nat) (x : PeakEntry) (h : memoryWf r.cells = true) :
    memoryWf (r.putPeak p x).cells = true := by
  rw [Region.putPeak]
  exact memoryWf_put _ _ (memoryWf_put _ _ (memoryWf_put _ _ (memoryWf_put _ _ h)))

theorem mem_putPeak {r : Region} {p : Nat} {x : PeakEntry} {c : Host.Cell} (h : c ∈ (r.putPeak p x).cells) :
    (32 * p ≤ c.1 ∧ c.1 < 32 * (p + 1)) ∨ c ∈ r.cells := by
  rw [Region.putPeak] at h
  rcases mem_put h with h | h
  · exact .inl ⟨by omega, by omega⟩
  rcases mem_put h with h | h
  · exact .inl ⟨by omega, by omega⟩
  rcases mem_put h with h | h
  · exact .inl ⟨by omega, by omega⟩
  rcases mem_put h with h | h
  · exact .inl ⟨by omega, by omega⟩
  exact .inr h

@[simp] theorem putPeak_stamp (r : Region) (p : Nat) (x : PeakEntry) : (r.putPeak p x).stamp = r.stamp := by
  rw [Region.putPeak]
  simp only [put_stamp]

@[simp] theorem putPeaks_stamp (r : Region) (p : Nat) (xs : List PeakEntry) :
    (r.putPeaks p xs).stamp = r.stamp := by
  induction xs generalizing r p with
  | nil => rfl
  | cons x xs ih => rw [Region.putPeaks, ih, putPeak_stamp]

theorem putPeaks_outside (r : Region) (base p q : Nat) (xs : List PeakEntry) (h : q < p ∨ p + xs.length ≤ q) :
    peakOf (r.putPeaks p xs) base q = peakOf r base q := by
  induction xs generalizing r p with
  | nil => rfl
  | cons x xs ih =>
    rw [List.length_cons] at h
    rw [Region.putPeaks, ih _ _ (by omega), putPeak_other _ _ _ _ _ (by omega)]

/-- Every peak entry stored by a bulk write reads back. -/
theorem putPeaks_entry (r : Region) (base p k : Nat) (xs : List PeakEntry) (h : k < xs.length) :
    peakOf (r.putPeaks p xs) base (p + k) = xs[k] := by
  induction xs generalizing r p k with
  | nil => simp at h
  | cons x xs ih =>
    rw [Region.putPeaks]
    cases k with
    | zero =>
      rw [putPeaks_outside _ _ _ _ _ (by omega)]
      exact putPeak_same r base p x
    | succ k =>
      rw [List.length_cons] at h
      rw [show p + (k + 1) = p + 1 + k from by omega, ih _ _ _ (by omega)]
      rfl

theorem readByte_putPeaks (r : Region) (p : Nat) (xs : List PeakEntry) (a : Nat)
    (h : a < 32 * p ∨ 32 * (p + xs.length) ≤ a) : readByte (r.putPeaks p xs).cells a = readByte r.cells a := by
  induction xs generalizing r p with
  | nil => rfl
  | cons x xs ih =>
    rw [List.length_cons] at h
    rw [Region.putPeaks, ih _ _ (by omega), readByte_putPeak _ _ _ _ (by omega)]

theorem memoryWf_putPeaks {r : Region} (p : Nat) (xs : List PeakEntry) (h : memoryWf r.cells = true) :
    memoryWf (r.putPeaks p xs).cells = true := by
  induction xs generalizing r p with
  | nil => exact h
  | cons x xs ih =>
    rw [Region.putPeaks]
    exact ih _ (memoryWf_putPeak p x h)

theorem mem_putPeaks {r : Region} {p : Nat} {xs : List PeakEntry} {c : Host.Cell}
    (h : c ∈ (r.putPeaks p xs).cells) : (32 * p ≤ c.1 ∧ c.1 < 32 * (p + xs.length)) ∨ c ∈ r.cells := by
  induction xs generalizing r p with
  | nil => exact .inr h
  | cons x xs ih =>
    rw [List.length_cons]
    rw [Region.putPeaks] at h
    rcases ih h with h | h
    · exact .inl ⟨by omega, by omega⟩
    · rcases mem_putPeak h with h | h
      · exact .inl ⟨by omega, by omega⟩
      · exact .inr h

end Sys2Proof.Laws
end

