-- ==== Sys2Proof/Laws/Num.lean ====
section
/-! SUPPORT. What the record `NUM` does at zeros, NaNs and infinities, whatever its free values (00_scope.md R20, R22,
R24). -/

namespace Sys2Proof.Laws

open Sys2Proof.Machine

/-! ### Finite and not -/

/-- A value is finite, a NaN or an infinity. -/
theorem isFinite_eq (x : F64) : isFinite x = (!isNaN x && !isInf x) := by
  simp only [isFinite, isNaN, isInf, bne]
  cases fexp x == 2047 <;> cases ffrac x == 0 <;> rfl

/-- A NaN is not finite. -/
theorem not_finite_of_isNaN {x : F64} (h : isNaN x = true) : isFinite x = false := by simp [isFinite_eq, h]

@[simp] theorem isFinite_nanOf (p : F64) : isFinite (nanOf p) = false := not_finite_of_isNaN (isNaN_nanOf p)

@[simp] theorem c64HasNaN_keepNaN (y : C64) : c64HasNaN (keepNaN y) = true := by
  rw [keepNaN]
  split
  · assumption
  · simp [c64HasNaN]

@[simp] theorem c64NonFinite_keepNonFinite (y : C64) : c64NonFinite (keepNonFinite y) = true := by
  rw [keepNonFinite]
  split
  · assumption
  · simp [c64NonFinite]

/-- A NaN component is a non-finite one. -/
theorem c64NonFinite_of_hasNaN {x : C64} (h : c64HasNaN x = true) : c64NonFinite x = true := by
  rw [c64HasNaN, Bool.or_eq_true] at h
  rw [c64NonFinite]
  rcases h with h | h <;> simp [not_finite_of_isNaN h]

/-- A zero is no non-finite value. -/
theorem c64NonFinite_of_isZero {x : C64} (h : c64IsZero x = true) : c64NonFinite x = false := by
  have key : ∀ z : F64, isZero z = true → isFinite z = true := fun z hz => by
    rw [isFinite_iff, show fmag z = 0 by simpa [isZero] using hz]
    decide
  rw [c64IsZero, Bool.and_eq_true] at h
  simp [c64NonFinite, key _ h.1, key _ h.2]

/-! ### The exponential and the transform -/

/-- What the exponential is where the spec fixes it (00_scope.md R20, R24). -/
theorem cisFree_zero {theta : F64} (h : isZero theta = true) :
    (cisFree theta).re = fone ∧ ∃ sign, (cisFree theta).im = fzero sign := by
  rw [cisFree, if_pos h]
  exact ⟨rfl, _, rfl⟩

theorem cisFree_nonFinite {theta : F64} (h : isFinite theta = false) :
    isNaN (cisFree theta).re = true ∧ isNaN (cisFree theta).im = true := by
  have hz : ¬isZero theta = true := fun hz => by
    have : isFinite theta = true := by
      rw [isFinite_iff, show fmag theta = 0 by simpa [isZero] using hz]
      decide
    rw [h] at this
    cases this
  rw [cisFree, if_neg hz, if_neg (by simp [h])]
  exact ⟨isNaN_nanOf _, isNaN_nanOf _⟩

/-- A NaN sample reaches every element of the transform (00_scope.md R24, 40_fft.md R136). -/
theorem fftBin_hasNaN {len : Nat} {x : List C64} (k : Nat) (h : x.any c64HasNaN = true) :
    c64HasNaN (fftBin len x k) = true := by
  obtain ⟨z, hz, hn⟩ := List.any_eq_true.1 h
  have h0 : ¬x.all c64IsZero = true := fun ha => by
    have := c64NonFinite_of_isZero (List.all_eq_true.1 ha z hz)
    rw [c64NonFinite_of_hasNaN hn] at this
    cases this
  rw [fftBin, if_neg h0, if_pos h]
  exact c64HasNaN_keepNaN _

/-- A non-finite sample reaches every element of the transform (00_scope.md R24, 40_fft.md R136). -/
theorem fftBin_nonFinite {len : Nat} {x : List C64} (k : Nat) (h : x.any c64NonFinite = true) :
    c64NonFinite (fftBin len x k) = true := by
  by_cases hn : x.any c64HasNaN = true
  · exact c64NonFinite_of_hasNaN (fftBin_hasNaN k hn)
  · obtain ⟨z, hz, hf⟩ := List.any_eq_true.1 h
    have h0 : ¬x.all c64IsZero = true := fun ha => by
      have := c64NonFinite_of_isZero (List.all_eq_true.1 ha z hz)
      rw [hf] at this
      cases this
    rw [fftBin, if_neg h0, if_neg hn, if_pos h]
    exact c64NonFinite_keepNonFinite _

/-! ### The magnitude -/

/-- Neither a finite value nor `-inf`: what the magnitude of a non-finite value is. -/
def noneAbove (x : F64) : Prop := isNaN x = true ∨ x = finf false

/-- No value exceeds another such one (00_scope.md R15, R24). -/
theorem fgt_noneAbove {x : F64} (y : F64) (h : noneAbove x) : fgt y x = false := by
  rcases h with h | rfl
  · simp [fgt, h]
  · cases hy : isNaN y
    · have hk : fkey y ≤ fkey (finf false) := by
        have hm : ¬2047 * 2 ^ 52 < fmag y := fun hm => by
          have hf := ffrac_lt y
          have he : fexp y < 2 ^ 11 := (y.extractLsb' 52 11).isLt
          rw [fmag_eq] at hm
          have h1 : fexp y = 2047 := by omega
          have h2 : ffrac y ≠ 0 := by omega
          simp [isNaN, h1, h2] at hy
        rw [fkey, fkey, finf, fsign_fpack, fmag_fpack]
        split
        · simp
        · simp
          omega
      simp only [fgt, hy, decide_eq_false (not_lt.2 hk), Bool.and_false]
    · simp [fgt, hy]

/-- A square is a NaN, `+inf` or a finite value that is not negative. -/
theorem fmul_self_cases (x : F64) :
    (isFinite x = false ∧ noneAbove (fmul x x)) ∨
    (isFinite x = true ∧ (fmul x x = finf false ∨ isFinite (fmul x x) = true)) := by
  cases hn : isNaN x
  · cases hi : isInf x
    · have hf : isFinite x = true := by simp [isFinite_eq, hn, hi]
      have hd : 0 < 2 ^ 1074 := by positivity
      have e : fmul x x = fround false (funits x * funits x) (2 ^ 1074) := by
        simp only [fmul, hn, hi, Bool.or_self, Bool.false_eq_true, if_false, bne_self_eq_false]
      refine .inr ⟨hf, ?_⟩
      rcases fround_cases false (funits x * funits x) _ hd with ⟨-, h⟩ | ⟨-, h, -⟩
      · exact .inl (e.trans h)
      · exact .inr (by rw [e]; exact h)
    · have hz : isZero x = false := by
        rw [isInf, Bool.and_eq_true, beq_iff_eq] at hi
        rw [isZero, beq_eq_false_iff_ne, fmag_eq, hi.1]
        omega
      refine .inl ⟨by simp [isFinite_eq, hi], .inr ?_⟩
      simp [fmul, hn, hi, hz]
  · exact .inl ⟨not_finite_of_isNaN hn, .inl (by simp [fmul, hn])⟩

/-- The sum of a value with none above it and a square has none above it. -/
theorem fadd_noneAbove {x y : F64} (hx : noneAbove x) (hy : noneAbove y ∨ isFinite y = true) :
    noneAbove (fadd x y) ∧ noneAbove (fadd y x) := by
  have hi : isInf (finf false) = true ∧ isNaN (finf false) = false ∧ fsign (finf false) = false := by decide
  have hfin : ∀ z, isFinite z = true → isNaN z = false ∧ isInf z = false := fun z hz => by
    simpa [isFinite_eq] using hz
  rcases hx with hx | rfl
  · exact ⟨.inl (by simp [fadd, faddAs, hx]), .inl (by simp [fadd, faddAs, hx])⟩
  · rcases hy with (hy | rfl) | hy
    · exact ⟨.inl (by simp [fadd, faddAs, hy]), .inl (by simp [fadd, faddAs, hy])⟩
    · exact ⟨.inr (by simp [fadd, faddAs, hi]), .inr (by simp [fadd, faddAs, hi])⟩
    · exact ⟨.inr (by simp [fadd, faddAs, hi, hfin y hy]), .inr (by simp [fadd, faddAs, hi, hfin y hy])⟩

/-- The magnitude of a non-finite value is a NaN or `+inf` (00_scope.md R19, R24): no magnitude exceeds it. -/
theorem cabs_nonFinite {x : C64} (h : c64NonFinite x = true) : noneAbove (cabsDefault x) := by
  have hs : ∀ z, noneAbove z → noneAbove (fsqrt z) := by
    rintro z (hz | rfl)
    · exact .inl (by simp [fsqrt, hz])
    · exact .inr (by decide)
  refine hs _ ?_
  have hw : ∀ z, noneAbove (fmul z z) ∨ isFinite (fmul z z) = true := fun z => by
    rcases fmul_self_cases z with ⟨-, h⟩ | ⟨-, h | h⟩
    · exact .inl h
    · exact .inl (.inr h)
    · exact .inr h
  rw [c64NonFinite, Bool.or_eq_true, Bool.not_eq_true', Bool.not_eq_true'] at h
  rcases h with h | h
  · rcases fmul_self_cases x.re with ⟨-, hm⟩ | ⟨hf, -⟩
    · exact (fadd_noneAbove hm (hw x.im)).1
    · rw [h] at hf
      cases hf
  · rcases fmul_self_cases x.im with ⟨-, hm⟩ | ⟨hf, -⟩
    · exact (fadd_noneAbove hm (hw x.re)).2
    · rw [h] at hf
      cases hf

end Sys2Proof.Laws
end

