-- ==== Sys2Proof/Laws/State.lean ====
section
/-! SUPPORT. One lemma per field per update of the state: what the shared operations and the effects of the commands
leave in every field. No later proof unfolds a record update. -/

namespace Sys2Proof.Laws

open Sys2Proof.Machine

/-! ### `finish` -/

@[simp] theorem finish_log2NMax (s : State) : (finish s).log2NMax = s.log2NMax := rfl
@[simp] theorem finish_cmd (s : State) : (finish s).cmd = s.cmd := rfl
@[simp] theorem finish_ie (s : State) : (finish s).ie = s.ie := rfl
@[simp] theorem finish_sampleRate (s : State) : (finish s).sampleRate = s.sampleRate := rfl
@[simp] theorem finish_intervalUs (s : State) : (finish s).intervalUs = s.intervalUs := rfl
@[simp] theorem finish_timeUs (s : State) : (finish s).timeUs = s.timeUs := rfl
@[simp] theorem finish_m (s : State) : (finish s).m = s.m := rfl
@[simp] theorem finish_n (s : State) : (finish s).n = s.n := rfl
@[simp] theorem finish_spb (s : State) : (finish s).spb = s.spb := rfl
@[simp] theorem finish_dt (s : State) : (finish s).dt = s.dt := rfl
@[simp] theorem finish_fs (s : State) : (finish s).fs = s.fs := rfl
@[simp] theorem finish_npeaks (s : State) : (finish s).npeaks = s.npeaks := rfl
@[simp] theorem finish_slots (s : State) : (finish s).slots = s.slots := rfl
@[simp] theorem finish_ibuf (s : State) : (finish s).ibuf = s.ibuf := rfl
@[simp] theorem finish_fvec (s : State) : (finish s).fvec = s.fvec := rfl
@[simp] theorem finish_peak (s : State) : (finish s).peak = s.peak := rfl
@[simp] theorem finish_resp (s : State) : (finish s).resp = s.resp := rfl
@[simp] theorem finish_draw (s : State) : (finish s).draw = s.draw := rfl
@[simp] theorem finish_schedule (s : State) : (finish s).schedule = s.schedule := rfl
@[simp] theorem finish_busy (s : State) : (finish s).status.busy = false := rfl
@[simp] theorem finish_done (s : State) : (finish s).status.done = true := rfl
@[simp] theorem finish_err (s : State) : (finish s).status.err = s.status.err := rfl
@[simp] theorem finish_ovr (s : State) : (finish s).status.ovr = s.status.ovr := rfl
@[simp] theorem finish_planValid (s : State) : (finish s).status.planValid = s.status.planValid := rfl
@[simp] theorem finish_fvecValid (s : State) : (finish s).status.fvecValid = s.status.fvecValid := rfl
@[simp] theorem finish_peaksValid (s : State) : (finish s).status.peaksValid = s.status.peaksValid := rfl
@[simp] theorem finish_result (s : State) : (finish s).status.result = s.status.result := rfl
@[simp] theorem finish_errcode (s : State) : (finish s).status.errcode = s.status.errcode := rfl

/-! ### `clearErr` -/

@[simp] theorem clearErr_log2NMax (s : State) : (clearErr s).log2NMax = s.log2NMax := rfl
@[simp] theorem clearErr_cmd (s : State) : (clearErr s).cmd = s.cmd := rfl
@[simp] theorem clearErr_ie (s : State) : (clearErr s).ie = s.ie := rfl
@[simp] theorem clearErr_sampleRate (s : State) : (clearErr s).sampleRate = s.sampleRate := rfl
@[simp] theorem clearErr_intervalUs (s : State) : (clearErr s).intervalUs = s.intervalUs := rfl
@[simp] theorem clearErr_timeUs (s : State) : (clearErr s).timeUs = s.timeUs := rfl
@[simp] theorem clearErr_m (s : State) : (clearErr s).m = s.m := rfl
@[simp] theorem clearErr_n (s : State) : (clearErr s).n = s.n := rfl
@[simp] theorem clearErr_spb (s : State) : (clearErr s).spb = s.spb := rfl
@[simp] theorem clearErr_dt (s : State) : (clearErr s).dt = s.dt := rfl
@[simp] theorem clearErr_fs (s : State) : (clearErr s).fs = s.fs := rfl
@[simp] theorem clearErr_npeaks (s : State) : (clearErr s).npeaks = s.npeaks := rfl
@[simp] theorem clearErr_slots (s : State) : (clearErr s).slots = s.slots := rfl
@[simp] theorem clearErr_ibuf (s : State) : (clearErr s).ibuf = s.ibuf := rfl
@[simp] theorem clearErr_fvec (s : State) : (clearErr s).fvec = s.fvec := rfl
@[simp] theorem clearErr_peak (s : State) : (clearErr s).peak = s.peak := rfl
@[simp] theorem clearErr_resp (s : State) : (clearErr s).resp = s.resp := rfl
@[simp] theorem clearErr_draw (s : State) : (clearErr s).draw = s.draw := rfl
@[simp] theorem clearErr_schedule (s : State) : (clearErr s).schedule = s.schedule := rfl
@[simp] theorem clearErr_busy (s : State) : (clearErr s).status.busy = s.status.busy := rfl
@[simp] theorem clearErr_done (s : State) : (clearErr s).status.done = s.status.done := rfl
@[simp] theorem clearErr_err (s : State) : (clearErr s).status.err = false := rfl
@[simp] theorem clearErr_ovr (s : State) : (clearErr s).status.ovr = s.status.ovr := rfl
@[simp] theorem clearErr_planValid (s : State) : (clearErr s).status.planValid = s.status.planValid := rfl
@[simp] theorem clearErr_fvecValid (s : State) : (clearErr s).status.fvecValid = s.status.fvecValid := rfl
@[simp] theorem clearErr_peaksValid (s : State) : (clearErr s).status.peaksValid = s.status.peaksValid := rfl
@[simp] theorem clearErr_result (s : State) : (clearErr s).status.result = s.status.result := rfl
@[simp] theorem clearErr_errcode (s : State) : (clearErr s).status.errcode = 0 := rfl

/-! ### `acceptCommand` -/

@[simp] theorem acceptCommand_log2NMax (c : BitVec 32) (s : State) : (acceptCommand c s).log2NMax = s.log2NMax := rfl
@[simp] theorem acceptCommand_cmd (c : BitVec 32) (s : State) : (acceptCommand c s).cmd = c := rfl
@[simp] theorem acceptCommand_ie (c : BitVec 32) (s : State) : (acceptCommand c s).ie = s.ie := rfl
@[simp] theorem acceptCommand_sampleRate (c : BitVec 32) (s : State) :
    (acceptCommand c s).sampleRate = s.sampleRate := rfl
@[simp] theorem acceptCommand_intervalUs (c : BitVec 32) (s : State) :
    (acceptCommand c s).intervalUs = s.intervalUs := rfl
@[simp] theorem acceptCommand_timeUs (c : BitVec 32) (s : State) : (acceptCommand c s).timeUs = s.timeUs := rfl
@[simp] theorem acceptCommand_m (c : BitVec 32) (s : State) : (acceptCommand c s).m = s.m := rfl
@[simp] theorem acceptCommand_n (c : BitVec 32) (s : State) : (acceptCommand c s).n = s.n := rfl
@[simp] theorem acceptCommand_spb (c : BitVec 32) (s : State) : (acceptCommand c s).spb = s.spb := rfl
@[simp] theorem acceptCommand_dt (c : BitVec 32) (s : State) : (acceptCommand c s).dt = s.dt := rfl
@[simp] theorem acceptCommand_fs (c : BitVec 32) (s : State) : (acceptCommand c s).fs = s.fs := rfl
@[simp] theorem acceptCommand_npeaks (c : BitVec 32) (s : State) : (acceptCommand c s).npeaks = s.npeaks := rfl
@[simp] theorem acceptCommand_slots (c : BitVec 32) (s : State) : (acceptCommand c s).slots = s.slots := rfl
@[simp] theorem acceptCommand_ibuf (c : BitVec 32) (s : State) : (acceptCommand c s).ibuf = s.ibuf := rfl
@[simp] theorem acceptCommand_fvec (c : BitVec 32) (s : State) : (acceptCommand c s).fvec = s.fvec := rfl
@[simp] theorem acceptCommand_peak (c : BitVec 32) (s : State) : (acceptCommand c s).peak = s.peak := rfl
@[simp] theorem acceptCommand_resp (c : BitVec 32) (s : State) : (acceptCommand c s).resp = s.resp := rfl
@[simp] theorem acceptCommand_draw (c : BitVec 32) (s : State) : (acceptCommand c s).draw = s.draw := rfl
@[simp] theorem acceptCommand_schedule (c : BitVec 32) (s : State) : (acceptCommand c s).schedule = s.schedule := rfl
@[simp] theorem acceptCommand_busy (c : BitVec 32) (s : State) : (acceptCommand c s).status.busy = true := rfl
@[simp] theorem acceptCommand_done (c : BitVec 32) (s : State) : (acceptCommand c s).status.done = false := rfl
@[simp] theorem acceptCommand_err (c : BitVec 32) (s : State) : (acceptCommand c s).status.err = s.status.err := rfl
@[simp] theorem acceptCommand_ovr (c : BitVec 32) (s : State) : (acceptCommand c s).status.ovr = s.status.ovr := rfl
@[simp] theorem acceptCommand_planValid (c : BitVec 32) (s : State) :
    (acceptCommand c s).status.planValid = s.status.planValid := rfl
@[simp] theorem acceptCommand_fvecValid (c : BitVec 32) (s : State) :
    (acceptCommand c s).status.fvecValid = s.status.fvecValid := rfl
@[simp] theorem acceptCommand_peaksValid (c : BitVec 32) (s : State) :
    (acceptCommand c s).status.peaksValid = s.status.peaksValid := rfl
@[simp] theorem acceptCommand_result (c : BitVec 32) (s : State) : (acceptCommand c s).status.result = false := rfl
@[simp] theorem acceptCommand_errcode (c : BitVec 32) (s : State) :
    (acceptCommand c s).status.errcode = s.status.errcode := rfl

/-! ### `setSlot` -/

@[simp] theorem setSlot_log2NMax (i : Nat) (x : Slot) (s : State) : (s.setSlot i x).log2NMax = s.log2NMax := rfl
@[simp] theorem setSlot_cmd (i : Nat) (x : Slot) (s : State) : (s.setSlot i x).cmd = s.cmd := rfl
@[simp] theorem setSlot_ie (i : Nat) (x : Slot) (s : State) : (s.setSlot i x).ie = s.ie := rfl
@[simp] theorem setSlot_sampleRate (i : Nat) (x : Slot) (s : State) : (s.setSlot i x).sampleRate = s.sampleRate := rfl
@[simp] theorem setSlot_intervalUs (i : Nat) (x : Slot) (s : State) : (s.setSlot i x).intervalUs = s.intervalUs := rfl
@[simp] theorem setSlot_timeUs (i : Nat) (x : Slot) (s : State) : (s.setSlot i x).timeUs = s.timeUs := rfl
@[simp] theorem setSlot_m (i : Nat) (x : Slot) (s : State) : (s.setSlot i x).m = s.m := rfl
@[simp] theorem setSlot_n (i : Nat) (x : Slot) (s : State) : (s.setSlot i x).n = s.n := rfl
@[simp] theorem setSlot_spb (i : Nat) (x : Slot) (s : State) : (s.setSlot i x).spb = s.spb := rfl
@[simp] theorem setSlot_dt (i : Nat) (x : Slot) (s : State) : (s.setSlot i x).dt = s.dt := rfl
@[simp] theorem setSlot_fs (i : Nat) (x : Slot) (s : State) : (s.setSlot i x).fs = s.fs := rfl
@[simp] theorem setSlot_npeaks (i : Nat) (x : Slot) (s : State) : (s.setSlot i x).npeaks = s.npeaks := rfl
@[simp] theorem setSlot_slots (i : Nat) (x : Slot) (s : State) : (s.setSlot i x).slots = s.slots.set i x := rfl
@[simp] theorem setSlot_ibuf (i : Nat) (x : Slot) (s : State) : (s.setSlot i x).ibuf = s.ibuf := rfl
@[simp] theorem setSlot_fvec (i : Nat) (x : Slot) (s : State) : (s.setSlot i x).fvec = s.fvec := rfl
@[simp] theorem setSlot_peak (i : Nat) (x : Slot) (s : State) : (s.setSlot i x).peak = s.peak := rfl
@[simp] theorem setSlot_resp (i : Nat) (x : Slot) (s : State) : (s.setSlot i x).resp = s.resp := rfl
@[simp] theorem setSlot_draw (i : Nat) (x : Slot) (s : State) : (s.setSlot i x).draw = s.draw := rfl
@[simp] theorem setSlot_schedule (i : Nat) (x : Slot) (s : State) : (s.setSlot i x).schedule = s.schedule := rfl
@[simp] theorem setSlot_status (i : Nat) (x : Slot) (s : State) : (s.setSlot i x).status = s.status := rfl

/-! ### `bumpDraw` -/

@[simp] theorem bumpDraw_log2NMax (s : State) : (s.bumpDraw).log2NMax = s.log2NMax := rfl
@[simp] theorem bumpDraw_cmd (s : State) : (s.bumpDraw).cmd = s.cmd := rfl
@[simp] theorem bumpDraw_ie (s : State) : (s.bumpDraw).ie = s.ie := rfl
@[simp] theorem bumpDraw_sampleRate (s : State) : (s.bumpDraw).sampleRate = s.sampleRate := rfl
@[simp] theorem bumpDraw_intervalUs (s : State) : (s.bumpDraw).intervalUs = s.intervalUs := rfl
@[simp] theorem bumpDraw_timeUs (s : State) : (s.bumpDraw).timeUs = s.timeUs := rfl
@[simp] theorem bumpDraw_m (s : State) : (s.bumpDraw).m = s.m := rfl
@[simp] theorem bumpDraw_n (s : State) : (s.bumpDraw).n = s.n := rfl
@[simp] theorem bumpDraw_spb (s : State) : (s.bumpDraw).spb = s.spb := rfl
@[simp] theorem bumpDraw_dt (s : State) : (s.bumpDraw).dt = s.dt := rfl
@[simp] theorem bumpDraw_fs (s : State) : (s.bumpDraw).fs = s.fs := rfl
@[simp] theorem bumpDraw_npeaks (s : State) : (s.bumpDraw).npeaks = s.npeaks := rfl
@[simp] theorem bumpDraw_slots (s : State) : (s.bumpDraw).slots = s.slots := rfl
@[simp] theorem bumpDraw_ibuf (s : State) : (s.bumpDraw).ibuf = s.ibuf := rfl
@[simp] theorem bumpDraw_fvec (s : State) : (s.bumpDraw).fvec = s.fvec := rfl
@[simp] theorem bumpDraw_peak (s : State) : (s.bumpDraw).peak = s.peak := rfl
@[simp] theorem bumpDraw_resp (s : State) : (s.bumpDraw).resp = s.resp := rfl
@[simp] theorem bumpDraw_draw (s : State) : (s.bumpDraw).draw = s.draw + 1 := rfl
@[simp] theorem bumpDraw_schedule (s : State) : (s.bumpDraw).schedule = s.schedule := rfl
@[simp] theorem bumpDraw_status (s : State) : (s.bumpDraw).status = s.status := rfl

/-! ### `freeSlot` -/

@[simp] theorem freeSlot_log2NMax (i : Nat) (s : State) : (freeSlot i s).log2NMax = s.log2NMax := rfl
@[simp] theorem freeSlot_cmd (i : Nat) (s : State) : (freeSlot i s).cmd = s.cmd := rfl
@[simp] theorem freeSlot_ie (i : Nat) (s : State) : (freeSlot i s).ie = s.ie := rfl
@[simp] theorem freeSlot_sampleRate (i : Nat) (s : State) : (freeSlot i s).sampleRate = s.sampleRate := rfl
@[simp] theorem freeSlot_intervalUs (i : Nat) (s : State) : (freeSlot i s).intervalUs = s.intervalUs := rfl
@[simp] theorem freeSlot_timeUs (i : Nat) (s : State) : (freeSlot i s).timeUs = s.timeUs := rfl
@[simp] theorem freeSlot_m (i : Nat) (s : State) : (freeSlot i s).m = s.m := rfl
@[simp] theorem freeSlot_n (i : Nat) (s : State) : (freeSlot i s).n = s.n := rfl
@[simp] theorem freeSlot_spb (i : Nat) (s : State) : (freeSlot i s).spb = s.spb := rfl
@[simp] theorem freeSlot_dt (i : Nat) (s : State) : (freeSlot i s).dt = s.dt := rfl
@[simp] theorem freeSlot_fs (i : Nat) (s : State) : (freeSlot i s).fs = s.fs := rfl
@[simp] theorem freeSlot_npeaks (i : Nat) (s : State) : (freeSlot i s).npeaks = s.npeaks := rfl
@[simp] theorem freeSlot_slots (i : Nat) (s : State) :
    (freeSlot i s).slots = s.slots.set i ((s.slot i).freed s.draw) := rfl
@[simp] theorem freeSlot_ibuf (i : Nat) (s : State) : (freeSlot i s).ibuf = s.ibuf := rfl
@[simp] theorem freeSlot_fvec (i : Nat) (s : State) : (freeSlot i s).fvec = s.fvec := rfl
@[simp] theorem freeSlot_peak (i : Nat) (s : State) : (freeSlot i s).peak = s.peak := rfl
@[simp] theorem freeSlot_resp (i : Nat) (s : State) : (freeSlot i s).resp = s.resp := rfl
@[simp] theorem freeSlot_draw (i : Nat) (s : State) : (freeSlot i s).draw = s.draw + 1 := rfl
@[simp] theorem freeSlot_schedule (i : Nat) (s : State) : (freeSlot i s).schedule = s.schedule := rfl
@[simp] theorem freeSlot_status (i : Nat) (s : State) : (freeSlot i s).status = s.status := rfl

/-! ### `freeAllSlots` -/

@[simp] theorem freeAllSlots_log2NMax (s : State) : (freeAllSlots s).log2NMax = s.log2NMax := rfl
@[simp] theorem freeAllSlots_cmd (s : State) : (freeAllSlots s).cmd = s.cmd := rfl
@[simp] theorem freeAllSlots_ie (s : State) : (freeAllSlots s).ie = s.ie := rfl
@[simp] theorem freeAllSlots_sampleRate (s : State) : (freeAllSlots s).sampleRate = s.sampleRate := rfl
@[simp] theorem freeAllSlots_intervalUs (s : State) : (freeAllSlots s).intervalUs = s.intervalUs := rfl
@[simp] theorem freeAllSlots_timeUs (s : State) : (freeAllSlots s).timeUs = s.timeUs := rfl
@[simp] theorem freeAllSlots_m (s : State) : (freeAllSlots s).m = s.m := rfl
@[simp] theorem freeAllSlots_n (s : State) : (freeAllSlots s).n = s.n := rfl
@[simp] theorem freeAllSlots_spb (s : State) : (freeAllSlots s).spb = s.spb := rfl
@[simp] theorem freeAllSlots_dt (s : State) : (freeAllSlots s).dt = s.dt := rfl
@[simp] theorem freeAllSlots_fs (s : State) : (freeAllSlots s).fs = s.fs := rfl
@[simp] theorem freeAllSlots_npeaks (s : State) : (freeAllSlots s).npeaks = s.npeaks := rfl
@[simp] theorem freeAllSlots_slots (s : State) :
    (freeAllSlots s).slots = s.slots.map fun x => Slot.freed x s.draw := rfl
@[simp] theorem freeAllSlots_ibuf (s : State) : (freeAllSlots s).ibuf = s.ibuf := rfl
@[simp] theorem freeAllSlots_fvec (s : State) : (freeAllSlots s).fvec = s.fvec := rfl
@[simp] theorem freeAllSlots_peak (s : State) : (freeAllSlots s).peak = s.peak := rfl
@[simp] theorem freeAllSlots_resp (s : State) : (freeAllSlots s).resp = s.resp := rfl
@[simp] theorem freeAllSlots_draw (s : State) : (freeAllSlots s).draw = s.draw + 1 := rfl
@[simp] theorem freeAllSlots_schedule (s : State) : (freeAllSlots s).schedule = s.schedule := rfl
@[simp] theorem freeAllSlots_status (s : State) : (freeAllSlots s).status = s.status := rfl

/-! ### `setOvr` -/

@[simp] theorem setOvr_log2NMax (s : State) : (setOvr s).log2NMax = s.log2NMax := rfl
@[simp] theorem setOvr_cmd (s : State) : (setOvr s).cmd = s.cmd := rfl
@[simp] theorem setOvr_ie (s : State) : (setOvr s).ie = s.ie := rfl
@[simp] theorem setOvr_sampleRate (s : State) : (setOvr s).sampleRate = s.sampleRate := rfl
@[simp] theorem setOvr_intervalUs (s : State) : (setOvr s).intervalUs = s.intervalUs := rfl
@[simp] theorem setOvr_timeUs (s : State) : (setOvr s).timeUs = s.timeUs := rfl
@[simp] theorem setOvr_m (s : State) : (setOvr s).m = s.m := rfl
@[simp] theorem setOvr_n (s : State) : (setOvr s).n = s.n := rfl
@[simp] theorem setOvr_spb (s : State) : (setOvr s).spb = s.spb := rfl
@[simp] theorem setOvr_dt (s : State) : (setOvr s).dt = s.dt := rfl
@[simp] theorem setOvr_fs (s : State) : (setOvr s).fs = s.fs := rfl
@[simp] theorem setOvr_npeaks (s : State) : (setOvr s).npeaks = s.npeaks := rfl
@[simp] theorem setOvr_slots (s : State) : (setOvr s).slots = s.slots := rfl
@[simp] theorem setOvr_ibuf (s : State) : (setOvr s).ibuf = s.ibuf := rfl
@[simp] theorem setOvr_fvec (s : State) : (setOvr s).fvec = s.fvec := rfl
@[simp] theorem setOvr_peak (s : State) : (setOvr s).peak = s.peak := rfl
@[simp] theorem setOvr_resp (s : State) : (setOvr s).resp = s.resp := rfl
@[simp] theorem setOvr_draw (s : State) : (setOvr s).draw = s.draw := rfl
@[simp] theorem setOvr_schedule (s : State) : (setOvr s).schedule = s.schedule := rfl
@[simp] theorem setOvr_busy (s : State) : (setOvr s).status.busy = s.status.busy := rfl
@[simp] theorem setOvr_done (s : State) : (setOvr s).status.done = s.status.done := rfl
@[simp] theorem setOvr_err (s : State) : (setOvr s).status.err = s.status.err := rfl
@[simp] theorem setOvr_ovr (s : State) : (setOvr s).status.ovr = true := rfl
@[simp] theorem setOvr_planValid (s : State) : (setOvr s).status.planValid = s.status.planValid := rfl
@[simp] theorem setOvr_fvecValid (s : State) : (setOvr s).status.fvecValid = s.status.fvecValid := rfl
@[simp] theorem setOvr_peaksValid (s : State) : (setOvr s).status.peaksValid = s.status.peaksValid := rfl
@[simp] theorem setOvr_result (s : State) : (setOvr s).status.result = s.status.result := rfl
@[simp] theorem setOvr_errcode (s : State) : (setOvr s).status.errcode = s.status.errcode := rfl

/-! ### `clearPeaks` -/

@[simp] theorem clearPeaks_log2NMax (s : State) : (clearPeaks s).log2NMax = s.log2NMax := rfl
@[simp] theorem clearPeaks_cmd (s : State) : (clearPeaks s).cmd = s.cmd := rfl
@[simp] theorem clearPeaks_ie (s : State) : (clearPeaks s).ie = s.ie := rfl
@[simp] theorem clearPeaks_sampleRate (s : State) : (clearPeaks s).sampleRate = s.sampleRate := rfl
@[simp] theorem clearPeaks_intervalUs (s : State) : (clearPeaks s).intervalUs = s.intervalUs := rfl
@[simp] theorem clearPeaks_timeUs (s : State) : (clearPeaks s).timeUs = s.timeUs := rfl
@[simp] theorem clearPeaks_m (s : State) : (clearPeaks s).m = s.m := rfl
@[simp] theorem clearPeaks_n (s : State) : (clearPeaks s).n = s.n := rfl
@[simp] theorem clearPeaks_spb (s : State) : (clearPeaks s).spb = s.spb := rfl
@[simp] theorem clearPeaks_dt (s : State) : (clearPeaks s).dt = s.dt := rfl
@[simp] theorem clearPeaks_fs (s : State) : (clearPeaks s).fs = s.fs := rfl
@[simp] theorem clearPeaks_npeaks (s : State) : (clearPeaks s).npeaks = 0 := rfl
@[simp] theorem clearPeaks_slots (s : State) : (clearPeaks s).slots = s.slots := rfl
@[simp] theorem clearPeaks_ibuf (s : State) : (clearPeaks s).ibuf = s.ibuf := rfl
@[simp] theorem clearPeaks_fvec (s : State) : (clearPeaks s).fvec = s.fvec := rfl
@[simp] theorem clearPeaks_peak (s : State) : (clearPeaks s).peak = s.peak := rfl
@[simp] theorem clearPeaks_resp (s : State) : (clearPeaks s).resp = s.resp := rfl
@[simp] theorem clearPeaks_draw (s : State) : (clearPeaks s).draw = s.draw := rfl
@[simp] theorem clearPeaks_schedule (s : State) : (clearPeaks s).schedule = s.schedule := rfl
@[simp] theorem clearPeaks_busy (s : State) : (clearPeaks s).status.busy = s.status.busy := rfl
@[simp] theorem clearPeaks_done (s : State) : (clearPeaks s).status.done = s.status.done := rfl
@[simp] theorem clearPeaks_err (s : State) : (clearPeaks s).status.err = s.status.err := rfl
@[simp] theorem clearPeaks_ovr (s : State) : (clearPeaks s).status.ovr = s.status.ovr := rfl
@[simp] theorem clearPeaks_planValid (s : State) : (clearPeaks s).status.planValid = s.status.planValid := rfl
@[simp] theorem clearPeaks_fvecValid (s : State) : (clearPeaks s).status.fvecValid = s.status.fvecValid := rfl
@[simp] theorem clearPeaks_peaksValid (s : State) : (clearPeaks s).status.peaksValid = false := rfl
@[simp] theorem clearPeaks_result (s : State) : (clearPeaks s).status.result = s.status.result := rfl
@[simp] theorem clearPeaks_errcode (s : State) : (clearPeaks s).status.errcode = s.status.errcode := rfl

/-! ### `clearDerived` -/

@[simp] theorem clearDerived_log2NMax (s : State) : (clearDerived s).log2NMax = s.log2NMax := rfl
@[simp] theorem clearDerived_cmd (s : State) : (clearDerived s).cmd = s.cmd := rfl
@[simp] theorem clearDerived_ie (s : State) : (clearDerived s).ie = s.ie := rfl
@[simp] theorem clearDerived_sampleRate (s : State) : (clearDerived s).sampleRate = s.sampleRate := rfl
@[simp] theorem clearDerived_intervalUs (s : State) : (clearDerived s).intervalUs = s.intervalUs := rfl
@[simp] theorem clearDerived_timeUs (s : State) : (clearDerived s).timeUs = s.timeUs := rfl
@[simp] theorem clearDerived_m (s : State) : (clearDerived s).m = s.m := rfl
@[simp] theorem clearDerived_n (s : State) : (clearDerived s).n = s.n := rfl
@[simp] theorem clearDerived_spb (s : State) : (clearDerived s).spb = s.spb := rfl
@[simp] theorem clearDerived_dt (s : State) : (clearDerived s).dt = s.dt := rfl
@[simp] theorem clearDerived_fs (s : State) : (clearDerived s).fs = s.fs := rfl
@[simp] theorem clearDerived_npeaks (s : State) : (clearDerived s).npeaks = 0 := rfl
@[simp] theorem clearDerived_slots (s : State) : (clearDerived s).slots = s.slots := rfl
@[simp] theorem clearDerived_ibuf (s : State) : (clearDerived s).ibuf = s.ibuf := rfl
@[simp] theorem clearDerived_fvec (s : State) : (clearDerived s).fvec = s.fvec := rfl
@[simp] theorem clearDerived_peak (s : State) : (clearDerived s).peak = s.peak := rfl
@[simp] theorem clearDerived_resp (s : State) : (clearDerived s).resp = s.resp := rfl
@[simp] theorem clearDerived_draw (s : State) : (clearDerived s).draw = s.draw := rfl
@[simp] theorem clearDerived_schedule (s : State) : (clearDerived s).schedule = s.schedule := rfl
@[simp] theorem clearDerived_busy (s : State) : (clearDerived s).status.busy = s.status.busy := rfl
@[simp] theorem clearDerived_done (s : State) : (clearDerived s).status.done = s.status.done := rfl
@[simp] theorem clearDerived_err (s : State) : (clearDerived s).status.err = s.status.err := rfl
@[simp] theorem clearDerived_ovr (s : State) : (clearDerived s).status.ovr = s.status.ovr := rfl
@[simp] theorem clearDerived_planValid (s : State) : (clearDerived s).status.planValid = s.status.planValid := rfl
@[simp] theorem clearDerived_fvecValid (s : State) : (clearDerived s).status.fvecValid = false := rfl
@[simp] theorem clearDerived_peaksValid (s : State) : (clearDerived s).status.peaksValid = false := rfl
@[simp] theorem clearDerived_result (s : State) : (clearDerived s).status.result = s.status.result := rfl
@[simp] theorem clearDerived_errcode (s : State) : (clearDerived s).status.errcode = s.status.errcode := rfl

/-! ### `setResult` -/

@[simp] theorem setResult_log2NMax (b : Bool) (s : State) : (setResult b s).log2NMax = s.log2NMax := rfl
@[simp] theorem setResult_cmd (b : Bool) (s : State) : (setResult b s).cmd = s.cmd := rfl
@[simp] theorem setResult_ie (b : Bool) (s : State) : (setResult b s).ie = s.ie := rfl
@[simp] theorem setResult_sampleRate (b : Bool) (s : State) : (setResult b s).sampleRate = s.sampleRate := rfl
@[simp] theorem setResult_intervalUs (b : Bool) (s : State) : (setResult b s).intervalUs = s.intervalUs := rfl
@[simp] theorem setResult_timeUs (b : Bool) (s : State) : (setResult b s).timeUs = s.timeUs := rfl
@[simp] theorem setResult_m (b : Bool) (s : State) : (setResult b s).m = s.m := rfl
@[simp] theorem setResult_n (b : Bool) (s : State) : (setResult b s).n = s.n := rfl
@[simp] theorem setResult_spb (b : Bool) (s : State) : (setResult b s).spb = s.spb := rfl
@[simp] theorem setResult_dt (b : Bool) (s : State) : (setResult b s).dt = s.dt := rfl
@[simp] theorem setResult_fs (b : Bool) (s : State) : (setResult b s).fs = s.fs := rfl
@[simp] theorem setResult_npeaks (b : Bool) (s : State) : (setResult b s).npeaks = s.npeaks := rfl
@[simp] theorem setResult_slots (b : Bool) (s : State) : (setResult b s).slots = s.slots := rfl
@[simp] theorem setResult_ibuf (b : Bool) (s : State) : (setResult b s).ibuf = s.ibuf := rfl
@[simp] theorem setResult_fvec (b : Bool) (s : State) : (setResult b s).fvec = s.fvec := rfl
@[simp] theorem setResult_peak (b : Bool) (s : State) : (setResult b s).peak = s.peak := rfl
@[simp] theorem setResult_resp (b : Bool) (s : State) : (setResult b s).resp = s.resp := rfl
@[simp] theorem setResult_draw (b : Bool) (s : State) : (setResult b s).draw = s.draw := rfl
@[simp] theorem setResult_schedule (b : Bool) (s : State) : (setResult b s).schedule = s.schedule := rfl
@[simp] theorem setResult_busy (b : Bool) (s : State) : (setResult b s).status.busy = s.status.busy := rfl
@[simp] theorem setResult_done (b : Bool) (s : State) : (setResult b s).status.done = s.status.done := rfl
@[simp] theorem setResult_err (b : Bool) (s : State) : (setResult b s).status.err = s.status.err := rfl
@[simp] theorem setResult_ovr (b : Bool) (s : State) : (setResult b s).status.ovr = s.status.ovr := rfl
@[simp] theorem setResult_planValid (b : Bool) (s : State) :
    (setResult b s).status.planValid = s.status.planValid := rfl
@[simp] theorem setResult_fvecValid (b : Bool) (s : State) :
    (setResult b s).status.fvecValid = s.status.fvecValid := rfl
@[simp] theorem setResult_peaksValid (b : Bool) (s : State) :
    (setResult b s).status.peaksValid = s.status.peaksValid := rfl
@[simp] theorem setResult_result (b : Bool) (s : State) : (setResult b s).status.result = b := rfl
@[simp] theorem setResult_errcode (b : Bool) (s : State) : (setResult b s).status.errcode = s.status.errcode := rfl

/-! ### `respond` -/

@[simp] theorem respond_log2NMax (ok : Bool) (d : Option Word) (s : State) :
    (respond ok d s).log2NMax = s.log2NMax := rfl
@[simp] theorem respond_cmd (ok : Bool) (d : Option Word) (s : State) : (respond ok d s).cmd = s.cmd := rfl
@[simp] theorem respond_ie (ok : Bool) (d : Option Word) (s : State) : (respond ok d s).ie = s.ie := rfl
@[simp] theorem respond_sampleRate (ok : Bool) (d : Option Word) (s : State) :
    (respond ok d s).sampleRate = s.sampleRate := rfl
@[simp] theorem respond_intervalUs (ok : Bool) (d : Option Word) (s : State) :
    (respond ok d s).intervalUs = s.intervalUs := rfl
@[simp] theorem respond_timeUs (ok : Bool) (d : Option Word) (s : State) : (respond ok d s).timeUs = s.timeUs := rfl
@[simp] theorem respond_m (ok : Bool) (d : Option Word) (s : State) : (respond ok d s).m = s.m := rfl
@[simp] theorem respond_n (ok : Bool) (d : Option Word) (s : State) : (respond ok d s).n = s.n := rfl
@[simp] theorem respond_spb (ok : Bool) (d : Option Word) (s : State) : (respond ok d s).spb = s.spb := rfl
@[simp] theorem respond_dt (ok : Bool) (d : Option Word) (s : State) : (respond ok d s).dt = s.dt := rfl
@[simp] theorem respond_fs (ok : Bool) (d : Option Word) (s : State) : (respond ok d s).fs = s.fs := rfl
@[simp] theorem respond_npeaks (ok : Bool) (d : Option Word) (s : State) : (respond ok d s).npeaks = s.npeaks := rfl
@[simp] theorem respond_slots (ok : Bool) (d : Option Word) (s : State) : (respond ok d s).slots = s.slots := rfl
@[simp] theorem respond_ibuf (ok : Bool) (d : Option Word) (s : State) : (respond ok d s).ibuf = s.ibuf := rfl
@[simp] theorem respond_fvec (ok : Bool) (d : Option Word) (s : State) : (respond ok d s).fvec = s.fvec := rfl
@[simp] theorem respond_peak (ok : Bool) (d : Option Word) (s : State) : (respond ok d s).peak = s.peak := rfl
@[simp] theorem respond_resp (ok : Bool) (d : Option Word) (s : State) : (respond ok d s).resp = some ⟨ok, d⟩ := rfl
@[simp] theorem respond_draw (ok : Bool) (d : Option Word) (s : State) : (respond ok d s).draw = s.draw := rfl
@[simp] theorem respond_schedule (ok : Bool) (d : Option Word) (s : State) :
    (respond ok d s).schedule = s.schedule := rfl
@[simp] theorem respond_status (ok : Bool) (d : Option Word) (s : State) : (respond ok d s).status = s.status := rfl

/-! ### `respondUnspecified` -/

@[simp] theorem respondUnspecified_log2NMax (ok : Bool) (a : BitVec 32) (s : State) :
    (respondUnspecified ok a s).log2NMax = s.log2NMax := rfl
@[simp] theorem respondUnspecified_cmd (ok : Bool) (a : BitVec 32) (s : State) :
    (respondUnspecified ok a s).cmd = s.cmd := rfl
@[simp] theorem respondUnspecified_ie (ok : Bool) (a : BitVec 32) (s : State) :
    (respondUnspecified ok a s).ie = s.ie := rfl
@[simp] theorem respondUnspecified_sampleRate (ok : Bool) (a : BitVec 32) (s : State) :
    (respondUnspecified ok a s).sampleRate = s.sampleRate := rfl
@[simp] theorem respondUnspecified_intervalUs (ok : Bool) (a : BitVec 32) (s : State) :
    (respondUnspecified ok a s).intervalUs = s.intervalUs := rfl
@[simp] theorem respondUnspecified_timeUs (ok : Bool) (a : BitVec 32) (s : State) :
    (respondUnspecified ok a s).timeUs = s.timeUs := rfl
@[simp] theorem respondUnspecified_m (ok : Bool) (a : BitVec 32) (s : State) :
    (respondUnspecified ok a s).m = s.m := rfl
@[simp] theorem respondUnspecified_n (ok : Bool) (a : BitVec 32) (s : State) :
    (respondUnspecified ok a s).n = s.n := rfl
@[simp] theorem respondUnspecified_spb (ok : Bool) (a : BitVec 32) (s : State) :
    (respondUnspecified ok a s).spb = s.spb := rfl
@[simp] theorem respondUnspecified_dt (ok : Bool) (a : BitVec 32) (s : State) :
    (respondUnspecified ok a s).dt = s.dt := rfl
@[simp] theorem respondUnspecified_fs (ok : Bool) (a : BitVec 32) (s : State) :
    (respondUnspecified ok a s).fs = s.fs := rfl
@[simp] theorem respondUnspecified_npeaks (ok : Bool) (a : BitVec 32) (s : State) :
    (respondUnspecified ok a s).npeaks = s.npeaks := rfl
@[simp] theorem respondUnspecified_slots (ok : Bool) (a : BitVec 32) (s : State) :
    (respondUnspecified ok a s).slots = s.slots := rfl
@[simp] theorem respondUnspecified_ibuf (ok : Bool) (a : BitVec 32) (s : State) :
    (respondUnspecified ok a s).ibuf = s.ibuf := rfl
@[simp] theorem respondUnspecified_fvec (ok : Bool) (a : BitVec 32) (s : State) :
    (respondUnspecified ok a s).fvec = s.fvec := rfl
@[simp] theorem respondUnspecified_peak (ok : Bool) (a : BitVec 32) (s : State) :
    (respondUnspecified ok a s).peak = s.peak := rfl
@[simp] theorem respondUnspecified_resp (ok : Bool) (a : BitVec 32) (s : State) :
    (respondUnspecified ok a s).resp = some ⟨ok, some (Config.unspecifiedWord s.draw a.toNat)⟩ := rfl
@[simp] theorem respondUnspecified_draw (ok : Bool) (a : BitVec 32) (s : State) :
    (respondUnspecified ok a s).draw = s.draw + 1 := rfl
@[simp] theorem respondUnspecified_schedule (ok : Bool) (a : BitVec 32) (s : State) :
    (respondUnspecified ok a s).schedule = s.schedule := rfl
@[simp] theorem respondUnspecified_status (ok : Bool) (a : BitVec 32) (s : State) :
    (respondUnspecified ok a s).status = s.status := rfl

/-! ### `writeIbuf` -/

@[simp] theorem writeIbuf_log2NMax (off : Nat) (v : Word) (s : State) :
    (writeIbuf off v s).log2NMax = s.log2NMax := rfl
@[simp] theorem writeIbuf_cmd (off : Nat) (v : Word) (s : State) : (writeIbuf off v s).cmd = s.cmd := rfl
@[simp] theorem writeIbuf_ie (off : Nat) (v : Word) (s : State) : (writeIbuf off v s).ie = s.ie := rfl
@[simp] theorem writeIbuf_sampleRate (off : Nat) (v : Word) (s : State) :
    (writeIbuf off v s).sampleRate = s.sampleRate := rfl
@[simp] theorem writeIbuf_intervalUs (off : Nat) (v : Word) (s : State) :
    (writeIbuf off v s).intervalUs = s.intervalUs := rfl
@[simp] theorem writeIbuf_timeUs (off : Nat) (v : Word) (s : State) : (writeIbuf off v s).timeUs = s.timeUs := rfl
@[simp] theorem writeIbuf_m (off : Nat) (v : Word) (s : State) : (writeIbuf off v s).m = s.m := rfl
@[simp] theorem writeIbuf_n (off : Nat) (v : Word) (s : State) : (writeIbuf off v s).n = s.n := rfl
@[simp] theorem writeIbuf_spb (off : Nat) (v : Word) (s : State) : (writeIbuf off v s).spb = s.spb := rfl
@[simp] theorem writeIbuf_dt (off : Nat) (v : Word) (s : State) : (writeIbuf off v s).dt = s.dt := rfl
@[simp] theorem writeIbuf_fs (off : Nat) (v : Word) (s : State) : (writeIbuf off v s).fs = s.fs := rfl
@[simp] theorem writeIbuf_npeaks (off : Nat) (v : Word) (s : State) : (writeIbuf off v s).npeaks = 0 := rfl
@[simp] theorem writeIbuf_slots (off : Nat) (v : Word) (s : State) : (writeIbuf off v s).slots = s.slots := rfl
@[simp] theorem writeIbuf_ibuf (off : Nat) (v : Word) (s : State) : (writeIbuf off v s).ibuf = s.ibuf.put off v := rfl
@[simp] theorem writeIbuf_fvec (off : Nat) (v : Word) (s : State) : (writeIbuf off v s).fvec = s.fvec := rfl
@[simp] theorem writeIbuf_peak (off : Nat) (v : Word) (s : State) : (writeIbuf off v s).peak = s.peak := rfl
@[simp] theorem writeIbuf_resp (off : Nat) (v : Word) (s : State) : (writeIbuf off v s).resp = s.resp := rfl
@[simp] theorem writeIbuf_draw (off : Nat) (v : Word) (s : State) : (writeIbuf off v s).draw = s.draw := rfl
@[simp] theorem writeIbuf_schedule (off : Nat) (v : Word) (s : State) :
    (writeIbuf off v s).schedule = s.schedule := rfl
@[simp] theorem writeIbuf_busy (off : Nat) (v : Word) (s : State) :
    (writeIbuf off v s).status.busy = s.status.busy := rfl
@[simp] theorem writeIbuf_done (off : Nat) (v : Word) (s : State) :
    (writeIbuf off v s).status.done = s.status.done := rfl
@[simp] theorem writeIbuf_err (off : Nat) (v : Word) (s : State) :
    (writeIbuf off v s).status.err = s.status.err := rfl
@[simp] theorem writeIbuf_ovr (off : Nat) (v : Word) (s : State) :
    (writeIbuf off v s).status.ovr = s.status.ovr := rfl
@[simp] theorem writeIbuf_planValid (off : Nat) (v : Word) (s : State) :
    (writeIbuf off v s).status.planValid = s.status.planValid := rfl
@[simp] theorem writeIbuf_fvecValid (off : Nat) (v : Word) (s : State) :
    (writeIbuf off v s).status.fvecValid = false := rfl
@[simp] theorem writeIbuf_peaksValid (off : Nat) (v : Word) (s : State) :
    (writeIbuf off v s).status.peaksValid = false := rfl
@[simp] theorem writeIbuf_result (off : Nat) (v : Word) (s : State) :
    (writeIbuf off v s).status.result = s.status.result := rfl
@[simp] theorem writeIbuf_errcode (off : Nat) (v : Word) (s : State) :
    (writeIbuf off v s).status.errcode = s.status.errcode := rfl

/-! ### `planClear` -/

@[simp] theorem planClear_log2NMax (s : State) : (planClear s).log2NMax = s.log2NMax := rfl
@[simp] theorem planClear_cmd (s : State) : (planClear s).cmd = s.cmd := rfl
@[simp] theorem planClear_ie (s : State) : (planClear s).ie = s.ie := rfl
@[simp] theorem planClear_sampleRate (s : State) : (planClear s).sampleRate = s.sampleRate := rfl
@[simp] theorem planClear_intervalUs (s : State) : (planClear s).intervalUs = s.intervalUs := rfl
@[simp] theorem planClear_timeUs (s : State) : (planClear s).timeUs = s.timeUs := rfl
@[simp] theorem planClear_m (s : State) : (planClear s).m = s.m := rfl
@[simp] theorem planClear_n (s : State) : (planClear s).n = s.n := rfl
@[simp] theorem planClear_spb (s : State) : (planClear s).spb = s.spb := rfl
@[simp] theorem planClear_dt (s : State) : (planClear s).dt = s.dt := rfl
@[simp] theorem planClear_fs (s : State) : (planClear s).fs = s.fs := rfl
@[simp] theorem planClear_npeaks (s : State) : (planClear s).npeaks = 0 := rfl
@[simp] theorem planClear_slots (s : State) : (planClear s).slots = s.slots.map fun x => Slot.freed x s.draw := rfl
@[simp] theorem planClear_ibuf (s : State) : (planClear s).ibuf = s.ibuf := rfl
@[simp] theorem planClear_fvec (s : State) : (planClear s).fvec = s.fvec := rfl
@[simp] theorem planClear_peak (s : State) : (planClear s).peak = s.peak := rfl
@[simp] theorem planClear_resp (s : State) : (planClear s).resp = s.resp := rfl
@[simp] theorem planClear_draw (s : State) : (planClear s).draw = s.draw + 1 := rfl
@[simp] theorem planClear_schedule (s : State) : (planClear s).schedule = s.schedule := rfl
@[simp] theorem planClear_busy (s : State) : (planClear s).status.busy = s.status.busy := rfl
@[simp] theorem planClear_done (s : State) : (planClear s).status.done = s.status.done := rfl
@[simp] theorem planClear_err (s : State) : (planClear s).status.err = s.status.err := rfl
@[simp] theorem planClear_ovr (s : State) : (planClear s).status.ovr = s.status.ovr := rfl
@[simp] theorem planClear_planValid (s : State) : (planClear s).status.planValid = s.status.planValid := rfl
@[simp] theorem planClear_fvecValid (s : State) : (planClear s).status.fvecValid = false := rfl
@[simp] theorem planClear_peaksValid (s : State) : (planClear s).status.peaksValid = false := rfl
@[simp] theorem planClear_result (s : State) : (planClear s).status.result = s.status.result := rfl
@[simp] theorem planClear_errcode (s : State) : (planClear s).status.errcode = s.status.errcode := rfl

/-! ### `planLatch` -/

@[simp] theorem planLatch_log2NMax (s : State) : (planLatch s).log2NMax = s.log2NMax := rfl
@[simp] theorem planLatch_cmd (s : State) : (planLatch s).cmd = s.cmd := rfl
@[simp] theorem planLatch_ie (s : State) : (planLatch s).ie = s.ie := rfl
@[simp] theorem planLatch_sampleRate (s : State) : (planLatch s).sampleRate = s.sampleRate := rfl
@[simp] theorem planLatch_intervalUs (s : State) : (planLatch s).intervalUs = s.intervalUs := rfl
@[simp] theorem planLatch_timeUs (s : State) : (planLatch s).timeUs = s.timeUs := rfl
@[simp] theorem planLatch_m (s : State) :
    (planLatch s).m = BitVec.ofNat 32 (planM s.sampleRate.toNat s.intervalUs.toNat) := rfl
@[simp] theorem planLatch_n (s : State) :
    (planLatch s).n = BitVec.ofNat 32 (nextPow2 (planM s.sampleRate.toNat s.intervalUs.toNat)) := rfl
@[simp] theorem planLatch_spb (s : State) : (planLatch s).spb = BitVec.ofNat 32 (planSpb s.sampleRate.toNat) := rfl
@[simp] theorem planLatch_dt (s : State) :
    (planLatch s).dt = planDt s.intervalUs.toNat (planM s.sampleRate.toNat s.intervalUs.toNat) := rfl
@[simp] theorem planLatch_fs (s : State) : (planLatch s).fs = s.sampleRate := rfl
@[simp] theorem planLatch_npeaks (s : State) : (planLatch s).npeaks = 0 := rfl
@[simp] theorem planLatch_slots (s : State) : (planLatch s).slots = s.slots.map fun x => Slot.freed x s.draw := rfl
@[simp] theorem planLatch_ibuf (s : State) : (planLatch s).ibuf = s.ibuf := rfl
@[simp] theorem planLatch_fvec (s : State) : (planLatch s).fvec = s.fvec := rfl
@[simp] theorem planLatch_peak (s : State) : (planLatch s).peak = s.peak := rfl
@[simp] theorem planLatch_resp (s : State) : (planLatch s).resp = s.resp := rfl
@[simp] theorem planLatch_draw (s : State) : (planLatch s).draw = s.draw + 1 := rfl
@[simp] theorem planLatch_schedule (s : State) : (planLatch s).schedule = s.schedule := rfl
@[simp] theorem planLatch_busy (s : State) : (planLatch s).status.busy = s.status.busy := rfl
@[simp] theorem planLatch_done (s : State) : (planLatch s).status.done = s.status.done := rfl
@[simp] theorem planLatch_err (s : State) : (planLatch s).status.err = s.status.err := rfl
@[simp] theorem planLatch_ovr (s : State) : (planLatch s).status.ovr = s.status.ovr := rfl
@[simp] theorem planLatch_planValid (s : State) : (planLatch s).status.planValid = true := rfl
@[simp] theorem planLatch_fvecValid (s : State) : (planLatch s).status.fvecValid = false := rfl
@[simp] theorem planLatch_peaksValid (s : State) : (planLatch s).status.peaksValid = false := rfl
@[simp] theorem planLatch_result (s : State) : (planLatch s).status.result = s.status.result := rfl
@[simp] theorem planLatch_errcode (s : State) : (planLatch s).status.errcode = s.status.errcode := rfl

/-! ### `planUnlatch` -/

@[simp] theorem planUnlatch_log2NMax (s : State) : (planUnlatch s).log2NMax = s.log2NMax := rfl
@[simp] theorem planUnlatch_cmd (s : State) : (planUnlatch s).cmd = s.cmd := rfl
@[simp] theorem planUnlatch_ie (s : State) : (planUnlatch s).ie = s.ie := rfl
@[simp] theorem planUnlatch_sampleRate (s : State) : (planUnlatch s).sampleRate = s.sampleRate := rfl
@[simp] theorem planUnlatch_intervalUs (s : State) : (planUnlatch s).intervalUs = s.intervalUs := rfl
@[simp] theorem planUnlatch_timeUs (s : State) : (planUnlatch s).timeUs = s.timeUs := rfl
@[simp] theorem planUnlatch_m (s : State) : (planUnlatch s).m = 0 := rfl
@[simp] theorem planUnlatch_n (s : State) : (planUnlatch s).n = 0 := rfl
@[simp] theorem planUnlatch_spb (s : State) : (planUnlatch s).spb = 0 := rfl
@[simp] theorem planUnlatch_dt (s : State) : (planUnlatch s).dt = 0 := rfl
@[simp] theorem planUnlatch_fs (s : State) : (planUnlatch s).fs = 0 := rfl
@[simp] theorem planUnlatch_npeaks (s : State) : (planUnlatch s).npeaks = 0 := rfl
@[simp] theorem planUnlatch_slots (s : State) :
    (planUnlatch s).slots = s.slots.map fun x => Slot.freed x s.draw := rfl
@[simp] theorem planUnlatch_ibuf (s : State) : (planUnlatch s).ibuf = s.ibuf := rfl
@[simp] theorem planUnlatch_fvec (s : State) : (planUnlatch s).fvec = s.fvec := rfl
@[simp] theorem planUnlatch_peak (s : State) : (planUnlatch s).peak = s.peak := rfl
@[simp] theorem planUnlatch_resp (s : State) : (planUnlatch s).resp = s.resp := rfl
@[simp] theorem planUnlatch_draw (s : State) : (planUnlatch s).draw = s.draw + 1 := rfl
@[simp] theorem planUnlatch_schedule (s : State) : (planUnlatch s).schedule = s.schedule := rfl
@[simp] theorem planUnlatch_busy (s : State) : (planUnlatch s).status.busy = s.status.busy := rfl
@[simp] theorem planUnlatch_done (s : State) : (planUnlatch s).status.done = s.status.done := rfl
@[simp] theorem planUnlatch_err (s : State) : (planUnlatch s).status.err = s.status.err := rfl
@[simp] theorem planUnlatch_ovr (s : State) : (planUnlatch s).status.ovr = s.status.ovr := rfl
@[simp] theorem planUnlatch_planValid (s : State) : (planUnlatch s).status.planValid = false := rfl
@[simp] theorem planUnlatch_fvecValid (s : State) : (planUnlatch s).status.fvecValid = false := rfl
@[simp] theorem planUnlatch_peaksValid (s : State) : (planUnlatch s).status.peaksValid = false := rfl
@[simp] theorem planUnlatch_result (s : State) : (planUnlatch s).status.result = s.status.result := rfl
@[simp] theorem planUnlatch_errcode (s : State) : (planUnlatch s).status.errcode = s.status.errcode := rfl

/-! ### `fftEffect` -/

@[simp] theorem fftEffect_log2NMax (s : State) : (fftEffect s).log2NMax = s.log2NMax := rfl
@[simp] theorem fftEffect_cmd (s : State) : (fftEffect s).cmd = s.cmd := rfl
@[simp] theorem fftEffect_ie (s : State) : (fftEffect s).ie = s.ie := rfl
@[simp] theorem fftEffect_sampleRate (s : State) : (fftEffect s).sampleRate = s.sampleRate := rfl
@[simp] theorem fftEffect_intervalUs (s : State) : (fftEffect s).intervalUs = s.intervalUs := rfl
@[simp] theorem fftEffect_timeUs (s : State) : (fftEffect s).timeUs = s.timeUs := rfl
@[simp] theorem fftEffect_m (s : State) : (fftEffect s).m = s.m := rfl
@[simp] theorem fftEffect_n (s : State) : (fftEffect s).n = s.n := rfl
@[simp] theorem fftEffect_spb (s : State) : (fftEffect s).spb = s.spb := rfl
@[simp] theorem fftEffect_dt (s : State) : (fftEffect s).dt = s.dt := rfl
@[simp] theorem fftEffect_fs (s : State) : (fftEffect s).fs = s.fs := rfl
@[simp] theorem fftEffect_npeaks (s : State) : (fftEffect s).npeaks = 0 := rfl
@[simp] theorem fftEffect_slots (s : State) : (fftEffect s).slots = s.slots := rfl
@[simp] theorem fftEffect_ibuf (s : State) : (fftEffect s).ibuf = s.ibuf := rfl
@[simp] theorem fftEffect_fvec (s : State) :
    (fftEffect s).fvec = (s.fvec.restamp s.draw).putC64s 0 (NUM.fft s.n.toNat (fftInput s)) := rfl
@[simp] theorem fftEffect_peak (s : State) : (fftEffect s).peak = s.peak := rfl
@[simp] theorem fftEffect_resp (s : State) : (fftEffect s).resp = s.resp := rfl
@[simp] theorem fftEffect_draw (s : State) : (fftEffect s).draw = s.draw + 1 := rfl
@[simp] theorem fftEffect_schedule (s : State) : (fftEffect s).schedule = s.schedule := rfl
@[simp] theorem fftEffect_busy (s : State) : (fftEffect s).status.busy = s.status.busy := rfl
@[simp] theorem fftEffect_done (s : State) : (fftEffect s).status.done = s.status.done := rfl
@[simp] theorem fftEffect_err (s : State) : (fftEffect s).status.err = s.status.err := rfl
@[simp] theorem fftEffect_ovr (s : State) : (fftEffect s).status.ovr = s.status.ovr := rfl
@[simp] theorem fftEffect_planValid (s : State) : (fftEffect s).status.planValid = s.status.planValid := rfl
@[simp] theorem fftEffect_fvecValid (s : State) : (fftEffect s).status.fvecValid = true := rfl
@[simp] theorem fftEffect_peaksValid (s : State) : (fftEffect s).status.peaksValid = false := rfl
@[simp] theorem fftEffect_result (s : State) : (fftEffect s).status.result = s.status.result := rfl
@[simp] theorem fftEffect_errcode (s : State) : (fftEffect s).status.errcode = s.status.errcode := rfl

/-! ### `peaksEffect` -/

@[simp] theorem peaksEffect_log2NMax (s : State) : (peaksEffect s).log2NMax = s.log2NMax := rfl
@[simp] theorem peaksEffect_cmd (s : State) : (peaksEffect s).cmd = s.cmd := rfl
@[simp] theorem peaksEffect_ie (s : State) : (peaksEffect s).ie = s.ie := rfl
@[simp] theorem peaksEffect_sampleRate (s : State) : (peaksEffect s).sampleRate = s.sampleRate := rfl
@[simp] theorem peaksEffect_intervalUs (s : State) : (peaksEffect s).intervalUs = s.intervalUs := rfl
@[simp] theorem peaksEffect_timeUs (s : State) : (peaksEffect s).timeUs = s.timeUs := rfl
@[simp] theorem peaksEffect_m (s : State) : (peaksEffect s).m = s.m := rfl
@[simp] theorem peaksEffect_n (s : State) : (peaksEffect s).n = s.n := rfl
@[simp] theorem peaksEffect_spb (s : State) : (peaksEffect s).spb = s.spb := rfl
@[simp] theorem peaksEffect_dt (s : State) : (peaksEffect s).dt = s.dt := rfl
@[simp] theorem peaksEffect_fs (s : State) : (peaksEffect s).fs = s.fs := rfl
@[simp] theorem peaksEffect_npeaks (s : State) : (peaksEffect s).npeaks = BitVec.ofNat 32 (peakBins s).length := rfl
@[simp] theorem peaksEffect_slots (s : State) : (peaksEffect s).slots = s.slots := rfl
@[simp] theorem peaksEffect_ibuf (s : State) : (peaksEffect s).ibuf = s.ibuf := rfl
@[simp] theorem peaksEffect_fvec (s : State) : (peaksEffect s).fvec = s.fvec := rfl
@[simp] theorem peaksEffect_peak (s : State) :
    (peaksEffect s).peak = (s.peak.restamp s.draw).putPeaks 0 ((peakBins s).map (peakEntry s)) := rfl
@[simp] theorem peaksEffect_resp (s : State) : (peaksEffect s).resp = s.resp := rfl
@[simp] theorem peaksEffect_draw (s : State) : (peaksEffect s).draw = s.draw + 1 := rfl
@[simp] theorem peaksEffect_schedule (s : State) : (peaksEffect s).schedule = s.schedule := rfl
@[simp] theorem peaksEffect_busy (s : State) : (peaksEffect s).status.busy = s.status.busy := rfl
@[simp] theorem peaksEffect_done (s : State) : (peaksEffect s).status.done = s.status.done := rfl
@[simp] theorem peaksEffect_err (s : State) : (peaksEffect s).status.err = s.status.err := rfl
@[simp] theorem peaksEffect_ovr (s : State) : (peaksEffect s).status.ovr = s.status.ovr := rfl
@[simp] theorem peaksEffect_planValid (s : State) : (peaksEffect s).status.planValid = s.status.planValid := rfl
@[simp] theorem peaksEffect_fvecValid (s : State) : (peaksEffect s).status.fvecValid = s.status.fvecValid := rfl
@[simp] theorem peaksEffect_peaksValid (s : State) : (peaksEffect s).status.peaksValid = true := rfl
@[simp] theorem peaksEffect_result (s : State) : (peaksEffect s).status.result = s.status.result := rfl
@[simp] theorem peaksEffect_errcode (s : State) : (peaksEffect s).status.errcode = s.status.errcode := rfl

/-! ### `ctxinitEffect` -/

@[simp] theorem ctxinitEffect_log2NMax (i p : Nat) (s : State) : (ctxinitEffect i p s).log2NMax = s.log2NMax := rfl
@[simp] theorem ctxinitEffect_cmd (i p : Nat) (s : State) : (ctxinitEffect i p s).cmd = s.cmd := rfl
@[simp] theorem ctxinitEffect_ie (i p : Nat) (s : State) : (ctxinitEffect i p s).ie = s.ie := rfl
@[simp] theorem ctxinitEffect_sampleRate (i p : Nat) (s : State) :
    (ctxinitEffect i p s).sampleRate = s.sampleRate := rfl
@[simp] theorem ctxinitEffect_intervalUs (i p : Nat) (s : State) :
    (ctxinitEffect i p s).intervalUs = s.intervalUs := rfl
@[simp] theorem ctxinitEffect_timeUs (i p : Nat) (s : State) : (ctxinitEffect i p s).timeUs = s.timeUs := rfl
@[simp] theorem ctxinitEffect_m (i p : Nat) (s : State) : (ctxinitEffect i p s).m = s.m := rfl
@[simp] theorem ctxinitEffect_n (i p : Nat) (s : State) : (ctxinitEffect i p s).n = s.n := rfl
@[simp] theorem ctxinitEffect_spb (i p : Nat) (s : State) : (ctxinitEffect i p s).spb = s.spb := rfl
@[simp] theorem ctxinitEffect_dt (i p : Nat) (s : State) : (ctxinitEffect i p s).dt = s.dt := rfl
@[simp] theorem ctxinitEffect_fs (i p : Nat) (s : State) : (ctxinitEffect i p s).fs = s.fs := rfl
@[simp] theorem ctxinitEffect_npeaks (i p : Nat) (s : State) : (ctxinitEffect i p s).npeaks = s.npeaks := rfl
@[simp] theorem ctxinitEffect_slots (i p : Nat) (s : State) :
    (ctxinitEffect i p s).slots = s.slots.set i (claimedSlot (s.slot i) (s.peakAt p) s.m.toNat s.dt s.draw) := rfl
@[simp] theorem ctxinitEffect_ibuf (i p : Nat) (s : State) : (ctxinitEffect i p s).ibuf = s.ibuf := rfl
@[simp] theorem ctxinitEffect_fvec (i p : Nat) (s : State) : (ctxinitEffect i p s).fvec = s.fvec := rfl
@[simp] theorem ctxinitEffect_peak (i p : Nat) (s : State) : (ctxinitEffect i p s).peak = s.peak := rfl
@[simp] theorem ctxinitEffect_resp (i p : Nat) (s : State) : (ctxinitEffect i p s).resp = s.resp := rfl
@[simp] theorem ctxinitEffect_draw (i p : Nat) (s : State) : (ctxinitEffect i p s).draw = s.draw + 1 := rfl
@[simp] theorem ctxinitEffect_schedule (i p : Nat) (s : State) : (ctxinitEffect i p s).schedule = s.schedule := rfl
@[simp] theorem ctxinitEffect_status (i p : Nat) (s : State) : (ctxinitEffect i p s).status = s.status := rfl

/-! ### `resetEffect` -/

@[simp] theorem resetEffect_log2NMax (s : State) : (resetEffect s).log2NMax = s.log2NMax := rfl
@[simp] theorem resetEffect_cmd (s : State) : (resetEffect s).cmd = 0 := rfl
@[simp] theorem resetEffect_ie (s : State) : (resetEffect s).ie = IntEnable.zero := rfl
@[simp] theorem resetEffect_sampleRate (s : State) : (resetEffect s).sampleRate = 0 := rfl
@[simp] theorem resetEffect_intervalUs (s : State) : (resetEffect s).intervalUs = 0 := rfl
@[simp] theorem resetEffect_timeUs (s : State) : (resetEffect s).timeUs = 0 := rfl
@[simp] theorem resetEffect_m (s : State) : (resetEffect s).m = 0 := rfl
@[simp] theorem resetEffect_n (s : State) : (resetEffect s).n = 0 := rfl
@[simp] theorem resetEffect_spb (s : State) : (resetEffect s).spb = 0 := rfl
@[simp] theorem resetEffect_dt (s : State) : (resetEffect s).dt = 0 := rfl
@[simp] theorem resetEffect_fs (s : State) : (resetEffect s).fs = 0 := rfl
@[simp] theorem resetEffect_npeaks (s : State) : (resetEffect s).npeaks = 0 := rfl
@[simp] theorem resetEffect_slots (s : State) :
    (resetEffect s).slots = s.slots.map fun _ => Slot.empty (Region.unwritten s.draw) (Region.unwritten s.draw) := rfl
@[simp] theorem resetEffect_ibuf (s : State) : (resetEffect s).ibuf = Region.unwritten s.draw := rfl
@[simp] theorem resetEffect_fvec (s : State) : (resetEffect s).fvec = Region.unwritten s.draw := rfl
@[simp] theorem resetEffect_peak (s : State) : (resetEffect s).peak = Region.unwritten s.draw := rfl
@[simp] theorem resetEffect_resp (s : State) : (resetEffect s).resp = s.resp := rfl
@[simp] theorem resetEffect_draw (s : State) : (resetEffect s).draw = s.draw + 1 := rfl
@[simp] theorem resetEffect_schedule (s : State) : (resetEffect s).schedule = s.schedule := rfl
@[simp] theorem resetEffect_status (s : State) : (resetEffect s).status = Status.zero := rfl

/-! ### `recordErr` -/

@[simp] theorem recordErr_log2NMax (c : ErrCode) (s : State) : (recordErr c s).log2NMax = s.log2NMax := by
  rw [recordErr]; split <;> simp_all
@[simp] theorem recordErr_cmd (c : ErrCode) (s : State) : (recordErr c s).cmd = s.cmd := by
  rw [recordErr]; split <;> simp_all
@[simp] theorem recordErr_ie (c : ErrCode) (s : State) : (recordErr c s).ie = s.ie := by
  rw [recordErr]; split <;> simp_all
@[simp] theorem recordErr_sampleRate (c : ErrCode) (s : State) : (recordErr c s).sampleRate = s.sampleRate := by
  rw [recordErr]; split <;> simp_all
@[simp] theorem recordErr_intervalUs (c : ErrCode) (s : State) : (recordErr c s).intervalUs = s.intervalUs := by
  rw [recordErr]; split <;> simp_all
@[simp] theorem recordErr_timeUs (c : ErrCode) (s : State) : (recordErr c s).timeUs = s.timeUs := by
  rw [recordErr]; split <;> simp_all
@[simp] theorem recordErr_m (c : ErrCode) (s : State) : (recordErr c s).m = s.m := by
  rw [recordErr]; split <;> simp_all
@[simp] theorem recordErr_n (c : ErrCode) (s : State) : (recordErr c s).n = s.n := by
  rw [recordErr]; split <;> simp_all
@[simp] theorem recordErr_spb (c : ErrCode) (s : State) : (recordErr c s).spb = s.spb := by
  rw [recordErr]; split <;> simp_all
@[simp] theorem recordErr_dt (c : ErrCode) (s : State) : (recordErr c s).dt = s.dt := by
  rw [recordErr]; split <;> simp_all
@[simp] theorem recordErr_fs (c : ErrCode) (s : State) : (recordErr c s).fs = s.fs := by
  rw [recordErr]; split <;> simp_all
@[simp] theorem recordErr_npeaks (c : ErrCode) (s : State) : (recordErr c s).npeaks = s.npeaks := by
  rw [recordErr]; split <;> simp_all
@[simp] theorem recordErr_slots (c : ErrCode) (s : State) : (recordErr c s).slots = s.slots := by
  rw [recordErr]; split <;> simp_all
@[simp] theorem recordErr_ibuf (c : ErrCode) (s : State) : (recordErr c s).ibuf = s.ibuf := by
  rw [recordErr]; split <;> simp_all
@[simp] theorem recordErr_fvec (c : ErrCode) (s : State) : (recordErr c s).fvec = s.fvec := by
  rw [recordErr]; split <;> simp_all
@[simp] theorem recordErr_peak (c : ErrCode) (s : State) : (recordErr c s).peak = s.peak := by
  rw [recordErr]; split <;> simp_all
@[simp] theorem recordErr_resp (c : ErrCode) (s : State) : (recordErr c s).resp = s.resp := by
  rw [recordErr]; split <;> simp_all
@[simp] theorem recordErr_draw (c : ErrCode) (s : State) : (recordErr c s).draw = s.draw := by
  rw [recordErr]; split <;> simp_all
@[simp] theorem recordErr_schedule (c : ErrCode) (s : State) : (recordErr c s).schedule = s.schedule := by
  rw [recordErr]; split <;> simp_all
@[simp] theorem recordErr_busy (c : ErrCode) (s : State) : (recordErr c s).status.busy = s.status.busy := by
  rw [recordErr]; split <;> simp_all
@[simp] theorem recordErr_done (c : ErrCode) (s : State) : (recordErr c s).status.done = s.status.done := by
  rw [recordErr]; split <;> simp_all
@[simp] theorem recordErr_err (c : ErrCode) (s : State) : (recordErr c s).status.err = true := by
  rw [recordErr]; split <;> simp_all
@[simp] theorem recordErr_ovr (c : ErrCode) (s : State) : (recordErr c s).status.ovr = s.status.ovr := by
  rw [recordErr]; split <;> simp_all
@[simp] theorem recordErr_planValid (c : ErrCode) (s : State) :
    (recordErr c s).status.planValid = s.status.planValid := by
  rw [recordErr]; split <;> simp_all
@[simp] theorem recordErr_fvecValid (c : ErrCode) (s : State) :
    (recordErr c s).status.fvecValid = s.status.fvecValid := by
  rw [recordErr]; split <;> simp_all
@[simp] theorem recordErr_peaksValid (c : ErrCode) (s : State) :
    (recordErr c s).status.peaksValid = s.status.peaksValid := by
  rw [recordErr]; split <;> simp_all
@[simp] theorem recordErr_result (c : ErrCode) (s : State) : (recordErr c s).status.result = s.status.result := by
  rw [recordErr]; split <;> simp_all
@[simp] theorem recordErr_errcode (c : ErrCode) (s : State) :
    (recordErr c s).status.errcode = if s.status.err then s.status.errcode else c.code := by
  rw [recordErr]; split <;> simp_all

/-! ### `raiseErr` -/

@[simp] theorem raiseErr_log2NMax (c : ErrCode) (s : State) : (raiseErr c s).log2NMax = s.log2NMax := by
  simp [raiseErr]
@[simp] theorem raiseErr_cmd (c : ErrCode) (s : State) : (raiseErr c s).cmd = s.cmd := by
  simp [raiseErr]
@[simp] theorem raiseErr_ie (c : ErrCode) (s : State) : (raiseErr c s).ie = s.ie := by
  simp [raiseErr]
@[simp] theorem raiseErr_sampleRate (c : ErrCode) (s : State) : (raiseErr c s).sampleRate = s.sampleRate := by
  simp [raiseErr]
@[simp] theorem raiseErr_intervalUs (c : ErrCode) (s : State) : (raiseErr c s).intervalUs = s.intervalUs := by
  simp [raiseErr]
@[simp] theorem raiseErr_timeUs (c : ErrCode) (s : State) : (raiseErr c s).timeUs = s.timeUs := by
  simp [raiseErr]
@[simp] theorem raiseErr_m (c : ErrCode) (s : State) : (raiseErr c s).m = s.m := by
  simp [raiseErr]
@[simp] theorem raiseErr_n (c : ErrCode) (s : State) : (raiseErr c s).n = s.n := by
  simp [raiseErr]
@[simp] theorem raiseErr_spb (c : ErrCode) (s : State) : (raiseErr c s).spb = s.spb := by
  simp [raiseErr]
@[simp] theorem raiseErr_dt (c : ErrCode) (s : State) : (raiseErr c s).dt = s.dt := by
  simp [raiseErr]
@[simp] theorem raiseErr_fs (c : ErrCode) (s : State) : (raiseErr c s).fs = s.fs := by
  simp [raiseErr]
@[simp] theorem raiseErr_npeaks (c : ErrCode) (s : State) : (raiseErr c s).npeaks = s.npeaks := by
  simp [raiseErr]
@[simp] theorem raiseErr_slots (c : ErrCode) (s : State) : (raiseErr c s).slots = s.slots := by
  simp [raiseErr]
@[simp] theorem raiseErr_ibuf (c : ErrCode) (s : State) : (raiseErr c s).ibuf = s.ibuf := by
  simp [raiseErr]
@[simp] theorem raiseErr_fvec (c : ErrCode) (s : State) : (raiseErr c s).fvec = s.fvec := by
  simp [raiseErr]
@[simp] theorem raiseErr_peak (c : ErrCode) (s : State) : (raiseErr c s).peak = s.peak := by
  simp [raiseErr]
@[simp] theorem raiseErr_resp (c : ErrCode) (s : State) : (raiseErr c s).resp = s.resp := by
  simp [raiseErr]
@[simp] theorem raiseErr_draw (c : ErrCode) (s : State) : (raiseErr c s).draw = s.draw := by
  simp [raiseErr]
@[simp] theorem raiseErr_schedule (c : ErrCode) (s : State) : (raiseErr c s).schedule = s.schedule := by
  simp [raiseErr]
@[simp] theorem raiseErr_busy (c : ErrCode) (s : State) : (raiseErr c s).status.busy = false := by
  simp [raiseErr]
@[simp] theorem raiseErr_done (c : ErrCode) (s : State) : (raiseErr c s).status.done = true := by
  simp [raiseErr]
@[simp] theorem raiseErr_err (c : ErrCode) (s : State) : (raiseErr c s).status.err = true := by
  simp [raiseErr]
@[simp] theorem raiseErr_ovr (c : ErrCode) (s : State) : (raiseErr c s).status.ovr = s.status.ovr := by
  simp [raiseErr]
@[simp] theorem raiseErr_planValid (c : ErrCode) (s : State) :
    (raiseErr c s).status.planValid = s.status.planValid := by
  simp [raiseErr]
@[simp] theorem raiseErr_fvecValid (c : ErrCode) (s : State) :
    (raiseErr c s).status.fvecValid = s.status.fvecValid := by
  simp [raiseErr]
@[simp] theorem raiseErr_peaksValid (c : ErrCode) (s : State) :
    (raiseErr c s).status.peaksValid = s.status.peaksValid := by
  simp [raiseErr]
@[simp] theorem raiseErr_result (c : ErrCode) (s : State) : (raiseErr c s).status.result = s.status.result := by
  simp [raiseErr]
@[simp] theorem raiseErr_errcode (c : ErrCode) (s : State) :
    (raiseErr c s).status.errcode = if s.status.err then s.status.errcode else c.code := by
  simp [raiseErr]

/-! ### `writeStatus` -/

@[simp] theorem writeStatus_log2NMax (v : Word) (s : State) : (writeStatus v s).log2NMax = s.log2NMax := by
  rw [writeStatus]; cases v.getLsbD 2 <;> rfl
@[simp] theorem writeStatus_cmd (v : Word) (s : State) : (writeStatus v s).cmd = s.cmd := by
  rw [writeStatus]; cases v.getLsbD 2 <;> rfl
@[simp] theorem writeStatus_ie (v : Word) (s : State) : (writeStatus v s).ie = s.ie := by
  rw [writeStatus]; cases v.getLsbD 2 <;> rfl
@[simp] theorem writeStatus_sampleRate (v : Word) (s : State) : (writeStatus v s).sampleRate = s.sampleRate := by
  rw [writeStatus]; cases v.getLsbD 2 <;> rfl
@[simp] theorem writeStatus_intervalUs (v : Word) (s : State) : (writeStatus v s).intervalUs = s.intervalUs := by
  rw [writeStatus]; cases v.getLsbD 2 <;> rfl
@[simp] theorem writeStatus_timeUs (v : Word) (s : State) : (writeStatus v s).timeUs = s.timeUs := by
  rw [writeStatus]; cases v.getLsbD 2 <;> rfl
@[simp] theorem writeStatus_m (v : Word) (s : State) : (writeStatus v s).m = s.m := by
  rw [writeStatus]; cases v.getLsbD 2 <;> rfl
@[simp] theorem writeStatus_n (v : Word) (s : State) : (writeStatus v s).n = s.n := by
  rw [writeStatus]; cases v.getLsbD 2 <;> rfl
@[simp] theorem writeStatus_spb (v : Word) (s : State) : (writeStatus v s).spb = s.spb := by
  rw [writeStatus]; cases v.getLsbD 2 <;> rfl
@[simp] theorem writeStatus_dt (v : Word) (s : State) : (writeStatus v s).dt = s.dt := by
  rw [writeStatus]; cases v.getLsbD 2 <;> rfl
@[simp] theorem writeStatus_fs (v : Word) (s : State) : (writeStatus v s).fs = s.fs := by
  rw [writeStatus]; cases v.getLsbD 2 <;> rfl
@[simp] theorem writeStatus_npeaks (v : Word) (s : State) : (writeStatus v s).npeaks = s.npeaks := by
  rw [writeStatus]; cases v.getLsbD 2 <;> rfl
@[simp] theorem writeStatus_slots (v : Word) (s : State) : (writeStatus v s).slots = s.slots := by
  rw [writeStatus]; cases v.getLsbD 2 <;> rfl
@[simp] theorem writeStatus_ibuf (v : Word) (s : State) : (writeStatus v s).ibuf = s.ibuf := by
  rw [writeStatus]; cases v.getLsbD 2 <;> rfl
@[simp] theorem writeStatus_fvec (v : Word) (s : State) : (writeStatus v s).fvec = s.fvec := by
  rw [writeStatus]; cases v.getLsbD 2 <;> rfl
@[simp] theorem writeStatus_peak (v : Word) (s : State) : (writeStatus v s).peak = s.peak := by
  rw [writeStatus]; cases v.getLsbD 2 <;> rfl
@[simp] theorem writeStatus_resp (v : Word) (s : State) : (writeStatus v s).resp = s.resp := by
  rw [writeStatus]; cases v.getLsbD 2 <;> rfl
@[simp] theorem writeStatus_draw (v : Word) (s : State) : (writeStatus v s).draw = s.draw := by
  rw [writeStatus]; cases v.getLsbD 2 <;> rfl
@[simp] theorem writeStatus_schedule (v : Word) (s : State) : (writeStatus v s).schedule = s.schedule := by
  rw [writeStatus]; cases v.getLsbD 2 <;> rfl
@[simp] theorem writeStatus_busy (v : Word) (s : State) : (writeStatus v s).status.busy = s.status.busy := by
  rw [writeStatus]; cases v.getLsbD 2 <;> rfl
@[simp] theorem writeStatus_done (v : Word) (s : State) :
    (writeStatus v s).status.done = (s.status.done && !v.getLsbD 1) := by
  rw [writeStatus]; cases v.getLsbD 2 <;> rfl
@[simp] theorem writeStatus_err (v : Word) (s : State) :
    (writeStatus v s).status.err = if v.getLsbD 2 then false else s.status.err := by
  rw [writeStatus]; cases v.getLsbD 2 <;> rfl
@[simp] theorem writeStatus_ovr (v : Word) (s : State) :
    (writeStatus v s).status.ovr = (s.status.ovr && !v.getLsbD 3) := by
  rw [writeStatus]; cases v.getLsbD 2 <;> rfl
@[simp] theorem writeStatus_planValid (v : Word) (s : State) :
    (writeStatus v s).status.planValid = s.status.planValid := by
  rw [writeStatus]; cases v.getLsbD 2 <;> rfl
@[simp] theorem writeStatus_fvecValid (v : Word) (s : State) :
    (writeStatus v s).status.fvecValid = s.status.fvecValid := by
  rw [writeStatus]; cases v.getLsbD 2 <;> rfl
@[simp] theorem writeStatus_peaksValid (v : Word) (s : State) :
    (writeStatus v s).status.peaksValid = s.status.peaksValid := by
  rw [writeStatus]; cases v.getLsbD 2 <;> rfl
@[simp] theorem writeStatus_result (v : Word) (s : State) : (writeStatus v s).status.result = s.status.result := by
  rw [writeStatus]; cases v.getLsbD 2 <;> rfl
@[simp] theorem writeStatus_errcode (v : Word) (s : State) :
    (writeStatus v s).status.errcode = if v.getLsbD 2 then 0 else s.status.errcode := by
  rw [writeStatus]; cases v.getLsbD 2 <;> rfl

/-! ### `accumEffect` -/

@[simp] theorem accumEffect_log2NMax (i p : Nat) (s : State) : (accumEffect i p s).log2NMax = s.log2NMax := by
  rw [accumEffect]; split <;> simp_all
@[simp] theorem accumEffect_cmd (i p : Nat) (s : State) : (accumEffect i p s).cmd = s.cmd := by
  rw [accumEffect]; split <;> simp_all
@[simp] theorem accumEffect_ie (i p : Nat) (s : State) : (accumEffect i p s).ie = s.ie := by
  rw [accumEffect]; split <;> simp_all
@[simp] theorem accumEffect_sampleRate (i p : Nat) (s : State) : (accumEffect i p s).sampleRate = s.sampleRate := by
  rw [accumEffect]; split <;> simp_all
@[simp] theorem accumEffect_intervalUs (i p : Nat) (s : State) : (accumEffect i p s).intervalUs = s.intervalUs := by
  rw [accumEffect]; split <;> simp_all
@[simp] theorem accumEffect_timeUs (i p : Nat) (s : State) : (accumEffect i p s).timeUs = s.timeUs := by
  rw [accumEffect]; split <;> simp_all
@[simp] theorem accumEffect_m (i p : Nat) (s : State) : (accumEffect i p s).m = s.m := by
  rw [accumEffect]; split <;> simp_all
@[simp] theorem accumEffect_n (i p : Nat) (s : State) : (accumEffect i p s).n = s.n := by
  rw [accumEffect]; split <;> simp_all
@[simp] theorem accumEffect_spb (i p : Nat) (s : State) : (accumEffect i p s).spb = s.spb := by
  rw [accumEffect]; split <;> simp_all
@[simp] theorem accumEffect_dt (i p : Nat) (s : State) : (accumEffect i p s).dt = s.dt := by
  rw [accumEffect]; split <;> simp_all
@[simp] theorem accumEffect_fs (i p : Nat) (s : State) : (accumEffect i p s).fs = s.fs := by
  rw [accumEffect]; split <;> simp_all
@[simp] theorem accumEffect_npeaks (i p : Nat) (s : State) : (accumEffect i p s).npeaks = s.npeaks := by
  rw [accumEffect]; split <;> simp_all
@[simp] theorem accumEffect_slots (i p : Nat) (s : State) :
    (accumEffect i p s).slots = if (s.slot i).decoded then s.slots else s.slots.set i (accumulatedSlot i p s) := by
  rw [accumEffect]; split <;> simp_all
@[simp] theorem accumEffect_ibuf (i p : Nat) (s : State) : (accumEffect i p s).ibuf = s.ibuf := by
  rw [accumEffect]; split <;> simp_all
@[simp] theorem accumEffect_fvec (i p : Nat) (s : State) : (accumEffect i p s).fvec = s.fvec := by
  rw [accumEffect]; split <;> simp_all
@[simp] theorem accumEffect_peak (i p : Nat) (s : State) : (accumEffect i p s).peak = s.peak := by
  rw [accumEffect]; split <;> simp_all
@[simp] theorem accumEffect_resp (i p : Nat) (s : State) : (accumEffect i p s).resp = s.resp := by
  rw [accumEffect]; split <;> simp_all
@[simp] theorem accumEffect_draw (i p : Nat) (s : State) :
    (accumEffect i p s).draw = if (s.slot i).decoded then s.draw else s.draw + 1 := by
  rw [accumEffect]; split <;> simp_all
@[simp] theorem accumEffect_schedule (i p : Nat) (s : State) : (accumEffect i p s).schedule = s.schedule := by
  rw [accumEffect]; split <;> simp_all
@[simp] theorem accumEffect_status (i p : Nat) (s : State) : (accumEffect i p s).status = s.status := by
  rw [accumEffect]; split <;> simp_all

/-! ### `decodeEffect` -/

@[simp] theorem decodeEffect_log2NMax (i : Nat) (s : State) : (decodeEffect i s).log2NMax = s.log2NMax := by
  rw [decodeEffect]; split <;> simp_all
@[simp] theorem decodeEffect_cmd (i : Nat) (s : State) : (decodeEffect i s).cmd = s.cmd := by
  rw [decodeEffect]; split <;> simp_all
@[simp] theorem decodeEffect_ie (i : Nat) (s : State) : (decodeEffect i s).ie = s.ie := by
  rw [decodeEffect]; split <;> simp_all
@[simp] theorem decodeEffect_sampleRate (i : Nat) (s : State) : (decodeEffect i s).sampleRate = s.sampleRate := by
  rw [decodeEffect]; split <;> simp_all
@[simp] theorem decodeEffect_intervalUs (i : Nat) (s : State) : (decodeEffect i s).intervalUs = s.intervalUs := by
  rw [decodeEffect]; split <;> simp_all
@[simp] theorem decodeEffect_timeUs (i : Nat) (s : State) : (decodeEffect i s).timeUs = s.timeUs := by
  rw [decodeEffect]; split <;> simp_all
@[simp] theorem decodeEffect_m (i : Nat) (s : State) : (decodeEffect i s).m = s.m := by
  rw [decodeEffect]; split <;> simp_all
@[simp] theorem decodeEffect_n (i : Nat) (s : State) : (decodeEffect i s).n = s.n := by
  rw [decodeEffect]; split <;> simp_all
@[simp] theorem decodeEffect_spb (i : Nat) (s : State) : (decodeEffect i s).spb = s.spb := by
  rw [decodeEffect]; split <;> simp_all
@[simp] theorem decodeEffect_dt (i : Nat) (s : State) : (decodeEffect i s).dt = s.dt := by
  rw [decodeEffect]; split <;> simp_all
@[simp] theorem decodeEffect_fs (i : Nat) (s : State) : (decodeEffect i s).fs = s.fs := by
  rw [decodeEffect]; split <;> simp_all
@[simp] theorem decodeEffect_npeaks (i : Nat) (s : State) : (decodeEffect i s).npeaks = s.npeaks := by
  rw [decodeEffect]; split <;> simp_all
@[simp] theorem decodeEffect_slots (i : Nat) (s : State) :
    (decodeEffect i s).slots = if (s.slot i).decoded then s.slots else s.slots.set i (decodedSlot (s.slot i) (decodedBits i s)) := by
  rw [decodeEffect]; split <;> simp_all
@[simp] theorem decodeEffect_ibuf (i : Nat) (s : State) : (decodeEffect i s).ibuf = s.ibuf := by
  rw [decodeEffect]; split <;> simp_all
@[simp] theorem decodeEffect_fvec (i : Nat) (s : State) : (decodeEffect i s).fvec = s.fvec := by
  rw [decodeEffect]; split <;> simp_all
@[simp] theorem decodeEffect_peak (i : Nat) (s : State) : (decodeEffect i s).peak = s.peak := by
  rw [decodeEffect]; split <;> simp_all
@[simp] theorem decodeEffect_resp (i : Nat) (s : State) : (decodeEffect i s).resp = s.resp := by
  rw [decodeEffect]; split <;> simp_all
@[simp] theorem decodeEffect_draw (i : Nat) (s : State) : (decodeEffect i s).draw = s.draw := by
  rw [decodeEffect]; split <;> simp_all
@[simp] theorem decodeEffect_schedule (i : Nat) (s : State) : (decodeEffect i s).schedule = s.schedule := by
  rw [decodeEffect]; split <;> simp_all
@[simp] theorem decodeEffect_busy (i : Nat) (s : State) : (decodeEffect i s).status.busy = s.status.busy := by
  rw [decodeEffect]; split <;> simp_all
@[simp] theorem decodeEffect_done (i : Nat) (s : State) : (decodeEffect i s).status.done = s.status.done := by
  rw [decodeEffect]; split <;> simp_all
@[simp] theorem decodeEffect_err (i : Nat) (s : State) : (decodeEffect i s).status.err = s.status.err := by
  rw [decodeEffect]; split <;> simp_all
@[simp] theorem decodeEffect_ovr (i : Nat) (s : State) : (decodeEffect i s).status.ovr = s.status.ovr := by
  rw [decodeEffect]; split <;> simp_all
@[simp] theorem decodeEffect_planValid (i : Nat) (s : State) :
    (decodeEffect i s).status.planValid = s.status.planValid := by
  rw [decodeEffect]; split <;> simp_all
@[simp] theorem decodeEffect_fvecValid (i : Nat) (s : State) :
    (decodeEffect i s).status.fvecValid = s.status.fvecValid := by
  rw [decodeEffect]; split <;> simp_all
@[simp] theorem decodeEffect_peaksValid (i : Nat) (s : State) :
    (decodeEffect i s).status.peaksValid = s.status.peaksValid := by
  rw [decodeEffect]; split <;> simp_all
@[simp] theorem decodeEffect_result (i : Nat) (s : State) :
    (decodeEffect i s).status.result = if (s.slot i).decoded then true else (decodedSlot (s.slot i) (decodedBits i s)).decoded := by
  rw [decodeEffect]; split <;> simp_all
@[simp] theorem decodeEffect_errcode (i : Nat) (s : State) :
    (decodeEffect i s).status.errcode = s.status.errcode := by
  rw [decodeEffect]; split <;> simp_all

end Sys2Proof.Laws
end

