-- ==== Sys2Proof/Laws/Ops.lean ====
section
/-! SUPPORT. What each shared operation can do, said once: the completion step, errors, slots, the address map, and the
one-step inversion of the machine. -/

namespace Sys2Proof.Laws

open Sys2Proof.Machine

/-! ### Slots -/

@[simp] theorem slot_setSlot_same (s : State) (i : Nat) (x : Slot) (h : i < s.nslots) : (s.setSlot i x).slot i = x := by
  simp only [State.nslots] at h
  simp [State.slot, h]

theorem slot_setSlot_other (s : State) (i j : Nat) (x : Slot) (h : j ≠ i) : (s.setSlot i x).slot j = s.slot j := by
  simp [State.slot, h.symm]

@[simp] theorem nslots_setSlot (s : State) (i : Nat) (x : Slot) : (s.setSlot i x).nslots = s.nslots := by
  simp [State.nslots]

/-- A slot number in range names a slot of the list. -/
theorem slot_mem (s : State) (i : Nat) (h : i < s.nslots) : s.slot i ∈ s.slots := by
  simp only [State.nslots] at h
  simp [State.slot, h]

/-- Every slot of the list has a number in range. -/
theorem exists_slot_of_mem (s : State) (x : Slot) (h : x ∈ s.slots) : ∃ i, i < s.nslots ∧ s.slot i = x := by
  obtain ⟨i, hi, rfl⟩ := List.getElem_of_mem h
  exact ⟨i, hi, by simp [State.slot, hi]⟩

/-- `State.slot` depends on the slot list alone. -/
theorem slot_congr {s t : State} (h : t.slots = s.slots) (i : Nat) : t.slot i = s.slot i := by
  rw [State.slot, State.slot, h]

/-- Beyond `NSLOTS` there is no slot. -/
theorem slot_beyond (s : State) (i : Nat) (h : s.nslots ≤ i) :
    s.slot i = Slot.empty (Region.unwritten 0) (Region.unwritten 0) := by
  simp only [State.nslots] at h
  simp [State.slot, h]

/-- A freed slot's registers all read 0. -/
theorem freed_eq_empty (x : Slot) (d : Nat) : ∃ r q, x.freed d = Slot.empty r q := by
  rw [Slot.freed]
  split
  · exact ⟨_, _, rfl⟩
  · exact ⟨_, _, rfl⟩

@[simp] theorem freed_valid (x : Slot) (d : Nat) : (x.freed d).valid = false := by
  rw [Slot.freed]
  split <;> rfl

theorem slot_freeAllSlots (s : State) (i : Nat) (h : i < s.nslots) :
    (freeAllSlots s).slot i = (s.slot i).freed s.draw := by
  simp only [State.nslots] at h
  simp [State.slot, h]

theorem slot_freeSlot_same (s : State) (i : Nat) (h : i < s.nslots) :
    (freeSlot i s).slot i = (s.slot i).freed s.draw := by
  simp only [State.nslots] at h
  simp [State.slot, h]

/-! ### Checks and completion -/

theorem firstError_cons (b : Bool) (c : ErrCode) (rest : List (Bool × ErrCode)) :
    firstError ((b, c) :: rest) = if b then some c else firstError rest := rfl

@[simp] theorem firstError_nil : firstError [] = none := rfl

/-- No error: every check passes. -/
theorem firstError_eq_none (l : List (Bool × ErrCode)) : firstError l = none ↔ ∀ c ∈ l, c.1 = false := by
  induction l with
  | nil => simp
  | cons c rest ih =>
    obtain ⟨b, e⟩ := c
    rw [firstError_cons]
    cases b <;> simp [ih]

/-- Everything a completion step can do: raise the first error, or perform the effect and end. -/
theorem completeWith_cases (checks : List (Bool × ErrCode)) (effect : State → State) (s : State) :
    (∃ c, firstError checks = some c ∧ completeWith checks effect s = raiseErr c s) ∨
    (firstError checks = none ∧ completeWith checks effect s = finish (effect s)) := by
  rw [completeWith]
  cases h : firstError checks with
  | none => exact .inr ⟨rfl, rfl⟩
  | some c => exact .inl ⟨c, rfl, rfl⟩

/-- With every check passing, the effect is performed. -/
theorem completeWith_ok {checks : List (Bool × ErrCode)} (effect : State → State) (s : State)
    (h : ∀ c ∈ checks, c.1 = false) : completeWith checks effect s = finish (effect s) := by
  rw [completeWith, (firstError_eq_none checks).2 h]

/-- With a first failing check, its error is raised. -/
theorem completeWith_err {checks : List (Bool × ErrCode)} {c : ErrCode} (effect : State → State) (s : State)
    (h : firstError checks = some c) : completeWith checks effect s = raiseErr c s := by
  rw [completeWith, h]

/-- Everything `PLAN` can do. -/
theorem execPlan_cases (s : State) :
    (planConfigBad s.sampleRate.toNat s.intervalUs.toNat = true ∧ execPlan s = .next (planFail .config s)) ∨
    (planConfigBad s.sampleRate.toNat s.intervalUs.toNat = false ∧
      planTooLong s.sampleRate.toNat s.intervalUs.toNat s.nMax = true ∧ execPlan s = .next (planFail .plan s)) ∨
    (planConfigBad s.sampleRate.toNat s.intervalUs.toNat = false ∧
      planTooLong s.sampleRate.toNat s.intervalUs.toNat s.nMax = false ∧
      execPlan s = .next (finish (planLatch s))) := by
  rw [execPlan]
  split
  · exact .inl ⟨by assumption, rfl⟩
  · split
    · exact .inr (.inl ⟨by simp_all, by assumption, rfl⟩)
    · exact .inr (.inr ⟨by simp_all, by simp_all, rfl⟩)

/-- Everything a command can do: `PLAN` fails and clears, a command raises an error, or it performs its effect. -/
theorem exec_cases (i : Instr) (s : State) :
    (∃ c, i = .plan ∧ exec i s = .next (planFail c s)) ∨
    (∃ c, exec i s = .next (raiseErr c s)) ∨
    (i = .nop ∧ exec i s = .next (finish s)) ∨
    (i = .plan ∧ planConfigBad s.sampleRate.toNat s.intervalUs.toNat = false ∧
      planTooLong s.sampleRate.toNat s.intervalUs.toNat s.nMax = false ∧ exec i s = .next (finish (planLatch s))) ∨
    (i = .fft ∧ s.status.planValid = true ∧ exec i s = .next (finish (fftEffect s))) ∨
    (i = .peaks ∧ s.status.planValid = true ∧ s.status.fvecValid = true ∧
      exec i s = .next (finish (peaksEffect s))) ∨
    (∃ k p, i = .ctxinit k p ∧ s.status.planValid = true ∧ s.status.peaksValid = true ∧ k < s.nslots ∧
      p < s.npeaks.toNat ∧ (s.slot k).valid = false ∧ exec i s = .next (finish (ctxinitEffect k p s))) ∨
    (∃ k p, i = .accum k p ∧ s.status.planValid = true ∧ s.status.peaksValid = true ∧ k < s.nslots ∧
      p < s.npeaks.toNat ∧ (s.slot k).valid = true ∧ (s.peakAt p).bin = (s.slot k).bin ∧
      exec i s = .next (finish (accumEffect k p s))) ∨
    (∃ k, i = .decode k ∧ s.status.planValid = true ∧ k < s.nslots ∧ (s.slot k).valid = true ∧
      exec i s = .next (finish (decodeEffect k s))) ∨
    (∃ k, i = .ctxfree k ∧ k < s.nslots ∧ exec i s = .next (finish (freeSlot k s))) := by
  cases i with
  | nop => exact .inr (.inr (.inl ⟨rfl, rfl⟩))
  | plan =>
    rcases execPlan_cases s with ⟨-, h⟩ | ⟨-, -, h⟩ | ⟨h1, h2, h⟩
    · exact .inl ⟨_, rfl, h⟩
    · exact .inl ⟨_, rfl, h⟩
    · exact .inr (.inr (.inr (.inl ⟨rfl, h1, h2, h⟩)))
  | fft =>
    rcases completeWith_cases [checkPlan s] fftEffect s with ⟨c, -, h⟩ | ⟨h1, h⟩
    · exact .inr (.inl ⟨c, congrArg _ h⟩)
    · rw [firstError_eq_none] at h1
      refine .inr (.inr (.inr (.inr (.inl ⟨rfl, ?_, congrArg _ h⟩))))
      simpa [checkPlan] using h1
  | peaks =>
    rcases completeWith_cases [checkPlan s, checkFvec s] peaksEffect s with ⟨c, -, h⟩ | ⟨h1, h⟩
    · exact .inr (.inl ⟨c, congrArg _ h⟩)
    · rw [firstError_eq_none] at h1
      simp only [checkPlan, checkFvec, List.mem_cons, List.not_mem_nil, or_false, forall_eq_or_imp, forall_eq,
        Bool.not_eq_false'] at h1
      exact .inr (.inr (.inr (.inr (.inr (.inl ⟨rfl, h1.1, h1.2, congrArg _ h⟩)))))
  | ctxinit k p =>
    rcases completeWith_cases [checkPlan s, checkPeaks s, checkSlotIdx k s, checkPeakIdx p s, checkSlotFree k s]
      (ctxinitEffect k p) s with ⟨c, -, h⟩ | ⟨h1, h⟩
    · exact .inr (.inl ⟨c, congrArg _ h⟩)
    · rw [firstError_eq_none] at h1
      simp only [checkPlan, checkPeaks, checkSlotIdx, checkPeakIdx, checkSlotFree, List.mem_cons, List.not_mem_nil,
        or_false, forall_eq_or_imp, forall_eq, Bool.not_eq_false', decide_eq_false_iff_not, not_le] at h1
      obtain ⟨h1, h2, h3, h4, h5⟩ := h1
      exact .inr (.inr (.inr (.inr (.inr (.inr (.inl ⟨k, p, rfl, h1, h2, h3, h4, h5, congrArg _ h⟩))))))
  | accum k p =>
    rcases completeWith_cases
      [checkPlan s, checkPeaks s, checkSlotIdx k s, checkPeakIdx p s, checkSlotValid k s, checkBin k p s]
      (accumEffect k p) s with ⟨c, -, h⟩ | ⟨h1, h⟩
    · exact .inr (.inl ⟨c, congrArg _ h⟩)
    · rw [firstError_eq_none] at h1
      simp only [checkPlan, checkPeaks, checkSlotIdx, checkPeakIdx, checkSlotValid, checkBin, List.mem_cons,
        List.not_mem_nil, or_false, forall_eq_or_imp, forall_eq, Bool.not_eq_false', decide_eq_false_iff_not, not_le,
        bne_eq_false_iff_eq] at h1
      obtain ⟨h1, h2, h3, h4, h5, h6⟩ := h1
      exact .inr (.inr (.inr (.inr (.inr (.inr (.inr (.inl ⟨k, p, rfl, h1, h2, h3, h4, h5, h6, congrArg _ h⟩)))))))
  | decode k =>
    rcases completeWith_cases [checkPlan s, checkSlotIdx k s, checkSlotValid k s] (decodeEffect k) s with
      ⟨c, -, h⟩ | ⟨h1, h⟩
    · exact .inr (.inl ⟨c, congrArg _ h⟩)
    · rw [firstError_eq_none] at h1
      simp only [checkPlan, checkSlotIdx, checkSlotValid, List.mem_cons, List.not_mem_nil, or_false,
        forall_eq_or_imp, forall_eq, Bool.not_eq_false', decide_eq_false_iff_not, not_le] at h1
      obtain ⟨h1, h2, h3⟩ := h1
      exact .inr (.inr (.inr (.inr (.inr (.inr (.inr (.inr (.inl ⟨k, rfl, h1, h2, h3, congrArg _ h⟩))))))))
  | ctxfree k =>
    rcases completeWith_cases [checkSlotIdx k s] (freeSlot k) s with ⟨c, -, h⟩ | ⟨h1, h⟩
    · exact .inr (.inl ⟨c, congrArg _ h⟩)
    · rw [firstError_eq_none] at h1
      refine .inr (.inr (.inr (.inr (.inr (.inr (.inr (.inr (.inr ⟨k, rfl, ?_, congrArg _ h⟩))))))))
      simpa [checkSlotIdx] using h1

/-! ### The host port -/

/-- A host read changes at most `OVR`, the port's response and the draw counter. -/
theorem hostRead_cases (addr : BitVec 32) (size : Nat) (s : State) :
    (locate s addr size = none ∧ hostRead addr size s = respondUnspecified false addr s) ∨
    (∃ id off, locate s addr size = some (.memory id off) ∧ s.status.busy = true ∧
      hostRead addr size s = setOvr (respondUnspecified true addr s)) ∨
    (∃ v, hostRead addr size s = respond true (some v) s) := by
  rw [hostRead]
  split
  · exact .inl ⟨by assumption, rfl⟩
  · exact .inr (.inr ⟨_, rfl⟩)
  · exact .inr (.inr ⟨_, rfl⟩)
  · split
    · exact .inr (.inl ⟨_, _, by assumption, by assumption, rfl⟩)
    · exact .inr (.inr ⟨_, rfl⟩)

/-- Everything a host write can do. -/
theorem hostWrite_cases (addr : BitVec 32) (size : Nat) (v : Word) (s : State) :
    (locate s addr size = none ∧ hostWrite addr size v s = respond false none s) ∨
    (∃ loc, locate s addr size = some loc ∧ s.status.busy = true ∧ writableWhileBusy loc = false ∧
      hostWrite addr size v s = setOvr (respond true none s)) ∨
    (∃ loc, locate s addr size = some loc ∧ (s.status.busy = true → writableWhileBusy loc = true) ∧
      hostWrite addr size v s = respond true none (writeLocation loc v s)) := by
  rw [hostWrite]
  split
  · exact .inl ⟨by assumption, rfl⟩
  · split
    · rename_i loc hl h
      simp only [Bool.and_eq_true, Bool.not_eq_true'] at h
      exact .inr (.inl ⟨_, by assumption, h.1, h.2, rfl⟩)
    · rename_i loc hl h
      refine .inr (.inr ⟨_, by assumption, fun hb => ?_, rfl⟩)
      simpa [hb] using h

/-- Everything the write of a location can do to the state. -/
theorem writeLocation_cases (loc : Location) (v : Word) (s : State) :
    writeLocation loc v s = s ∨
    (loc = .global .cmd ∧ writeLocation loc v s = acceptCommand (v.setWidth 32) s) ∨
    (loc = .global .status ∧ writeLocation loc v s = writeStatus v s) ∨
    (loc = .global .ctrl ∧ writeLocation loc v s = resetEffect s) ∨
    (∃ off, loc = .memory .ibuf off ∧ writeLocation loc v s = writeIbuf off v s) ∨
    (∃ ie sr iv tm, writeLocation loc v s =
      { s with ie := ie, sampleRate := sr, intervalUs := iv, timeUs := tm }) := by
  cases loc with
  | global r =>
    cases r
    case cmd => exact .inr (.inl ⟨rfl, rfl⟩)
    case status => exact .inr (.inr (.inl ⟨rfl, rfl⟩))
    case ctrl =>
      simp only [writeLocation, writeGlobal]
      split
      · exact .inr (.inr (.inr (.inl ⟨trivial, rfl⟩)))
      · exact .inl rfl
    case ie => exact .inr (.inr (.inr (.inr (.inr ⟨_, s.sampleRate, s.intervalUs, s.timeUs, rfl⟩))))
    case sampleRate => exact .inr (.inr (.inr (.inr (.inr ⟨s.ie, _, s.intervalUs, s.timeUs, rfl⟩))))
    case intervalUs => exact .inr (.inr (.inr (.inr (.inr ⟨s.ie, s.sampleRate, _, s.timeUs, rfl⟩))))
    case timeUs => exact .inr (.inr (.inr (.inr (.inr ⟨s.ie, s.sampleRate, s.intervalUs, _, rfl⟩))))
    all_goals exact .inl rfl
  | slot i r => exact .inl rfl
  | memory id off =>
    cases id
    case ibuf => exact .inr (.inr (.inr (.inr (.inl ⟨off, rfl, rfl⟩))))
    all_goals exact .inl rfl

/-! ### One step -/

/-- What the engine's turn can do. -/
theorem engineTurn_cases (s : State) :
    (s.status.busy = false ∧ engineTurn s = .next s) ∨
    (s.status.busy = true ∧ ∃ i, decode s.cmd = .ok i ∧ engineTurn s = exec i s) ∨
    (s.status.busy = true ∧ ∃ e, decode s.cmd = .error e ∧ engineTurn s = .next (raiseErr .illCmd s)) := by
  rw [engineTurn]
  split
  · rw [completePending]
    split
    · exact .inr (.inl ⟨by assumption, _, by assumption, rfl⟩)
    · exact .inr (.inr ⟨by assumption, _, by assumption, rfl⟩)
  · exact .inl ⟨by simp_all, rfl⟩

/-- What one step of the machine can do: the engine's turn, a host read, a host write, or reset. -/
theorem step_cases (s : State) :
    (∃ rest, step s = engineTurn { s with schedule := rest }) ∨
    (∃ rest a n, step s = .next (hostRead a n { s with schedule := rest })) ∨
    (∃ rest a n v, step s = .next (hostWrite a n v { s with schedule := rest })) ∨
    (∃ rest, step s = .next (resetEffect { s with schedule := rest })) := by
  rw [step, advance]
  split
  · rename_i h
    refine .inl ⟨[], ?_⟩
    rw [← h]
  · rename_i e rest h
    cases e with
    | read a n => exact .inr (.inl ⟨rest, a, n, rfl⟩)
    | write a n v => exact .inr (.inr (.inl ⟨rest, a, n, v, rfl⟩))
    | engine => exact .inl ⟨rest, rfl⟩
    | resetInput => exact .inr (.inr (.inr ⟨rest, rfl⟩))

/-- A property that the schedule does not touch, and that every operation of a step keeps, is kept by every step. -/
theorem step_induction {P : State → Prop}
    (hschedule : ∀ s rest, P s → P { s with schedule := rest })
    (hexec : ∀ i s t, P s → exec i s = .next t → P t)
    (hill : ∀ s, P s → P (raiseErr .illCmd s))
    (hread : ∀ a n s, P s → P (hostRead a n s))
    (hwrite : ∀ a n v s, P s → P (hostWrite a n v s))
    (hreset : ∀ s, P s → P (resetEffect s))
    {s t : State} (hs : P s) (h : step s = .next t) : P t := by
  rcases step_cases s with ⟨rest, hr⟩ | ⟨rest, a, n, hr⟩ | ⟨rest, a, n, v, hr⟩ | ⟨rest, hr⟩
  · have hP := hschedule s rest hs
    rcases engineTurn_cases { s with schedule := rest } with ⟨-, he⟩ | ⟨-, i, -, he⟩ | ⟨-, e, -, he⟩
    · rw [hr, he] at h
      cases h
      exact hP
    · rw [hr, he] at h
      exact hexec i _ t hP h
    · rw [hr, he] at h
      cases h
      exact hill _ hP
  · rw [hr] at h
    cases h
    exact hread _ _ _ (hschedule s rest hs)
  · rw [hr] at h
    cases h
    exact hwrite _ _ _ _ (hschedule s rest hs)
  · rw [hr] at h
    cases h
    exact hreset _ (hschedule s rest hs)

end Sys2Proof.Laws
end

