-- ==== Sys2Proof/Laws/PerInstr.lean ====
section
/-! SUPPORT. The families of lemmas with one member per command. -/

namespace Sys2Proof.Laws

/-- The fields of the encoding of a well-formed command are those of its row of the opcode map (30_encoding.md
R113): its opcode and its operands, zero where the format has none. -/
def HasFields.Statement (i : Instr) : Prop :=
  i.WellFormed →
    (opField (encode i), slotField (encode i), peakField (encode i)) =
      match i with
      | .nop => (0x00, 0, 0)
      | .plan => (0x01, 0, 0)
      | .fft => (0x02, 0, 0)
      | .peaks => (0x03, 0, 0)
      | .ctxinit s p => (0x10, s, p)
      | .accum s p => (0x11, s, p)
      | .decode s => (0x12, s, 0)
      | .ctxfree s => (0x13, s, 0)

/-- The fields of an assembled word whose operands fit. -/
theorem fields_commandWord {op s p : Nat} (ho : op < 2 ^ 8) (hs : s < 2 ^ 8) (hp : p < 2 ^ 16) :
    (opField (commandWord op s p), slotField (commandWord op s p), peakField (commandWord op s p)) = (op, s, p) := by
  rw [opField_commandWord, slotField_commandWord, peakField_commandWord, Nat.mod_eq_of_lt ho, Nat.mod_eq_of_lt hs,
    Nat.mod_eq_of_lt hp]

theorem HasFields.nop : HasFields.Statement .nop := fun _ => rfl

theorem HasFields.plan : HasFields.Statement .plan := fun _ => rfl

theorem HasFields.fft : HasFields.Statement .fft := fun _ => rfl

theorem HasFields.peaks : HasFields.Statement .peaks := fun _ => rfl

theorem HasFields.ctxinit (s p : Nat) : HasFields.Statement (.ctxinit s p) := by
  intro h
  rw [Instr.WellFormed, Instr.wellFormed, Bool.and_eq_true, decide_eq_true_iff, decide_eq_true_iff] at h
  exact fields_commandWord (by decide) h.1 h.2

theorem HasFields.accum (s p : Nat) : HasFields.Statement (.accum s p) := by
  intro h
  rw [Instr.WellFormed, Instr.wellFormed, Bool.and_eq_true, decide_eq_true_iff, decide_eq_true_iff] at h
  exact fields_commandWord (by decide) h.1 h.2

theorem HasFields.decode (s : Nat) : HasFields.Statement (.decode s) := by
  intro h
  rw [Instr.WellFormed, Instr.wellFormed, decide_eq_true_iff] at h
  exact fields_commandWord (by decide) h (by decide)

theorem HasFields.ctxfree (s : Nat) : HasFields.Statement (.ctxfree s) := by
  intro h
  rw [Instr.WellFormed, Instr.wellFormed, decide_eq_true_iff] at h
  exact fields_commandWord (by decide) h (by decide)

end Sys2Proof.Laws
end

