-- ==== Sys2Proof/Laws/Sequence.lean ====
section
/-! SUPPORT. What the host's moves do on an idle machine (30_encoding.md R118), and what each part of `PROCESS_CAPTURE` can
do (45_host_sequence.md R236). -/

namespace Sys2Proof.Laws

open Sys2Proof.Machine

/-- `RUN` on an idle machine accepts the word and completes the command. -/
theorem run_eq {i : Instr} {s t : State} (hi : decode (encode i) = .ok i) (hb : s.status.busy = false)
    (h : exec i (respond true none (acceptCommand (encode i) s)) = .next t) : run i s = t := by
  have hw : wrGlobal 0 ((encode i).setWidth 64) s = respond true none (acceptCommand (encode i) s) := by
    simp [wrGlobal, perform, runEvent, hostWrite, locate, addressMap, globalAt, hb, writeLocation, writeGlobal]
  rw [run, runWord, hw]
  simp [perform, runEvent, engineTurn, completePending, hi, h]

/-- `WR TIME_US` on an idle machine. -/
theorem wrTime_eq {s : State} (v : Word) (hb : s.status.busy = false) :
    wrGlobal 0x030 v s = respond true none { s with timeUs := v } := by
  simp [wrGlobal, perform, runEvent, hostWrite, locate, addressMap, globalAt, hb, writeLocation, writeGlobal]

/-! ### The host's choices -/

/-- The slot the host picks exists and holds no hypothesis, whatever it names. -/
theorem chooseSlot_free {h : HostChoices} {s : State} {i : Nat} (hi : chooseSlot h s = some i) :
    i < s.nslots ∧ (s.slot i).valid = false := by
  have hm : i ∈ freeSlots s := by
    rw [chooseSlot] at hi
    split at hi
    · cases hi
      assumption
    · exact List.mem_of_head? hi
  simpa [freeSlots] using hm

/-- The host finds no slot exactly when every slot holds a hypothesis (45_host_sequence.md R239). -/
theorem chooseSlot_eq_none {h : HostChoices} {s : State} (hi : chooseSlot h s = none) :
    ∀ i, i < s.nslots → (s.slot i).valid = true := by
  have hm : freeSlots s = [] := by
    rw [chooseSlot] at hi
    split at hi
    · cases hi
    · simpa using hi
  intro i hlt
  by_contra hv
  rw [Bool.not_eq_true] at hv
  have : i ∈ freeSlots s := by simp [freeSlots, hlt, hv]
  rw [hm] at this
  cases this

/-- The reap pass visits every entry of the registry once, in whatever order the host names. -/
theorem reapList_perm (h : HostChoices) (reg : List (Nat × Nat)) : (reapList h reg).Perm reg := by
  rw [reapList]
  split
  · rename_i hp
    exact List.isPerm_iff.1 hp
  · exact .refl _

/-! ### The registry -/

@[simp] theorem forget_reg (h : HostSide) : h.forget.reg = [] := rfl
@[simp] theorem forget_sink (h : HostSide) : h.forget.sink = h.sink := rfl
@[simp] theorem emit_reg (h : HostSide) (r : PassRecord) : (h.emit r).reg = h.reg := rfl
@[simp] theorem emit_sink (h : HostSide) (r : PassRecord) : (h.emit r).sink = h.sink ++ [r] := rfl
@[simp] theorem drop_sink (h : HostSide) (b : Nat) : (h.drop b).sink = h.sink := rfl

theorem mem_drop_reg (h : HostSide) (b : Nat) (e : Nat × Nat) : e ∈ (h.drop b).reg ↔ e ∈ h.reg ∧ e.1 ≠ b := by
  simp [HostSide.drop]

@[simp] theorem release_host (b i : Nat) (y : System) : (release b i y).host = y.host.drop b := rfl
@[simp] theorem release_machine (b i : Nat) (y : System) : (release b i y).machine = run (.ctxfree i) y.machine := rfl
@[simp] theorem attemptDecode_reg (h : HostChoices) (i : Nat) (y : System) :
    (attemptDecode h i y).host.reg = y.host.reg := by
  simp only [attemptDecode]
  split <;> rfl
@[simp] theorem attemptDecode_machine (h : HostChoices) (i : Nat) (y : System) :
    (attemptDecode h i y).machine = run (.decode i) y.machine := rfl

/-! ### The parts of a capture -/

/-- Everything the policy after an accumulation can do (45_host_sequence.md R237): evict, attempt a decode, or
nothing. -/
theorem applyPolicy_cases (h : HostChoices) (b i : Nat) (y : System) :
    ((y.machine.slot i).decoded = false ∧ 32 < (y.machine.slot i).sampleCount.toNat ∧
      applyPolicy h b i y = release b i y) ∨
    ((y.machine.slot i).decoded = false ∧ 16 < (y.machine.slot i).sampleCount.toNat ∧
      (y.machine.slot i).sampleCount.toNat ≤ 32 ∧ applyPolicy h b i y = attemptDecode h i y) ∨
    (((y.machine.slot i).decoded = true ∨ (y.machine.slot i).sampleCount.toNat ≤ 16) ∧ applyPolicy h b i y = y) := by
  simp only [applyPolicy, Config.evictAfter, Config.decodeAfter]
  cases (y.machine.slot i).decoded
  · by_cases h1 : 32 < (y.machine.slot i).sampleCount.toNat
    · exact .inl ⟨rfl, h1, by simp [h1]⟩
    · by_cases h2 : 16 < (y.machine.slot i).sampleCount.toNat
      · exact .inr (.inl ⟨rfl, h2, Nat.le_of_not_lt h1, by simp [h1, h2]⟩)
      · exact .inr (.inr ⟨.inr (Nat.le_of_not_lt h2), by simp [h1, h2]⟩)
  · exact .inr (.inr ⟨.inl rfl, by simp⟩)

/-- Everything a peak can do in a capture (45_host_sequence.md R236, R239): it belongs to a tracked bin, it is skipped for
want of a slot, or its bin is tracked from now on. -/
theorem visitPeak_cases (h : HostChoices) (y : System) (p : Nat) :
    (∃ i, y.host.reg.lookup (rdPeakBin y.machine p) = some i ∧
      visitPeak h y p = sight h (rdPeakBin y.machine p) i p y) ∨
    (y.host.reg.lookup (rdPeakBin y.machine p) = none ∧ chooseSlot h y.machine = none ∧ visitPeak h y p = y) ∨
    (∃ i, y.host.reg.lookup (rdPeakBin y.machine p) = none ∧ chooseSlot h y.machine = some i ∧
      visitPeak h y p = sight h (rdPeakBin y.machine p) i p (track (rdPeakBin y.machine p) i p y)) := by
  simp only [visitPeak]
  split
  · exact .inl ⟨_, by assumption, rfl⟩
  · rename_i hl
    split
    · exact .inr (.inl ⟨hl, by assumption, rfl⟩)
    · exact .inr (.inr ⟨_, hl, by assumption, rfl⟩)

/-- Everything the reap pass does to one entry (45_host_sequence.md R245). -/
theorem reapEntry_cases (h : HostChoices) (now : Nat) (y : System) (e : Nat × Nat) :
    ((y.machine.slot e.2).lastSeenUs.toNat ≤ now ∧ h.maxAgeUs.toNat < now - (y.machine.slot e.2).lastSeenUs.toNat ∧
      reapEntry h now y e = release e.1 e.2 y) ∨
    (¬((y.machine.slot e.2).lastSeenUs.toNat ≤ now ∧
      h.maxAgeUs.toNat < now - (y.machine.slot e.2).lastSeenUs.toNat) ∧ reapEntry h now y e = y) := by
  simp only [reapEntry, isStale, Bool.and_eq_true, decide_eq_true_eq]
  split
  · rename_i hs
    exact .inl ⟨hs.1, hs.2, rfl⟩
  · exact .inr ⟨by assumption, rfl⟩

end Sys2Proof.Laws
end

