-- ==== Sys2Proof/Laws/Slicer.lean ====
section
/-! SUPPORT. Everything one sample can do to the detector (42_slicer_mfm.md R175 to R181). -/

namespace Sys2Proof.Laws

open Sys2Proof.Machine

@[simp] theorem push_bits (d : Detector) (v : Slice) : (d.push v).bits = d.bits := rfl
@[simp] theorem push_skip (d : Detector) (v : Slice) : (d.push v).skip = d.skip := rfl
@[simp] theorem push_synced (d : Detector) (v : Slice) : (d.push v).synced = d.synced := rfl
@[simp] theorem push_fill (d : Detector) (v : Slice) :
    (d.push v).fill = if d.fill < 4 then d.fill + 1 else d.fill := rfl

/-- A transition is found at 1, 2 or 3. -/
theorem findTransition_range {d : Detector} {k : Nat} {v : Slice} (h : d.findTransition = some (k, v)) :
    1 ≤ k ∧ k ≤ 3 := by
  rw [Detector.findTransition] at h
  split at h
  · cases h
    omega
  · split at h
    · cases h
      omega
    · split at h
      · cases h
        omega
      · cases h

/-- One sample: nothing once the frame is complete; else a push, and when the window is full either a skip, or an
inspection that finds nothing, the sync, or one more bit. -/
theorem detector_step_cases (spb : Nat) (d : Detector) (v : Slice) :
    (d.bits.length = Config.frameBits ∧ d.step spb v = d) ∨
    (d.bits.length ≠ Config.frameBits ∧
      ((((d.push v).fill < 4 ∨ d.skip = 0) ∧ d.step spb v = d.push v) ∨
      (4 ≤ (d.push v).fill ∧ 0 < d.skip ∧ d.step spb v = { d.push v with skip := d.skip - 1 }) ∨
      (4 ≤ (d.push v).fill ∧ d.skip = 0 ∧ d.synced = false ∧
        d.step spb v = { d.push v with bits := [true], synced := true, skip := spb - 1 }) ∨
      (∃ k before, 4 ≤ (d.push v).fill ∧ d.skip = 0 ∧ d.synced = true ∧
        (d.push v).findTransition = some (k, before) ∧
        d.step spb v =
          { d.push v with bits := d.bits ++ [decide (before = .high)], skip := spb + k - 3 }))) := by
  rw [Detector.step]
  split
  · exact .inl ⟨by assumption, rfl⟩
  · refine .inr ⟨by assumption, ?_⟩
    simp only
    split
    · exact .inl ⟨.inl (by assumption), rfl⟩
    · split
      · rename_i h
        rw [push_skip] at h
        exact .inr (.inl ⟨by omega, h, rfl⟩)
      · rename_i h
        rw [push_skip] at h
        rw [Detector.inspect]
        split
        · rename_i hs
          rw [push_synced] at hs
          split
          · exact .inl ⟨.inr (by omega), rfl⟩
          · exact .inr (.inr (.inr ⟨_, _, by omega, by omega, hs, by assumption, rfl⟩))
        · rename_i hs
          rw [push_synced, Bool.not_eq_true] at hs
          split
          · exact .inr (.inr (.inl ⟨by omega, by omega, hs, rfl⟩))
          · exact .inl ⟨.inr (by omega), rfl⟩

/-- A property that every sample keeps holds of the detector after any number of samples. -/
theorem detector_induction {P : Detector → Prop} (spb : Nat) (hstep : ∀ d v, P d → P (d.step spb v)) (l : List Slice)
    (d : Detector) (h : P d) : P (l.foldl (Detector.step spb) d) := by
  induction l generalizing d with
  | nil => exact h
  | cons v l ih => exact ih _ (hstep d v h)

end Sys2Proof.Laws
end

