-- ==== Sys2Proof/Tests/Slice0.lean ====
section
/-! SUPPORT. Small tests, with results from the spec's examples or from hand calculation, and for every statement with
hypotheses a witness that meets them. -/

namespace Sys2Proof.Tests

open Sys2Proof.Machine Sys2Proof.Safety Sys2Proof.Claims

/-! ### Well-formedness and decoding (30_encoding.md R111 to R116, words written out bit by bit) -/

theorem test_ctxinit_slot_too_large : (Instr.ctxinit 256 0).wellFormed = false := by decide
theorem test_ctxinit_peak_too_large : (Instr.ctxinit 0 65536).wellFormed = false := by decide
theorem test_accum_slot_too_large : (Instr.accum 256 0).wellFormed = false := by decide
theorem test_accum_peak_too_large : (Instr.accum 0 65536).wellFormed = false := by decide
theorem test_decode_slot_too_large : (Instr.decode 256).wellFormed = false := by decide
theorem test_ctxfree_slot_too_large : (Instr.ctxfree 256).wellFormed = false := by decide
theorem test_largest_operands_fit : (Instr.ctxinit 255 65535).wellFormed = true := by decide

theorem test_decode_nop : decodeTableWord 32 0b00000000000000000000000000000000 = some .nop := by decide
theorem test_decode_plan : decodeTableWord 32 0b00000001000000000000000000000000 = some .plan := by decide
theorem test_decode_fft : decodeTableWord 32 0b00000010000000000000000000000000 = some .fft := by decide
theorem test_decode_peaks : decodeTableWord 32 0b00000011000000000000000000000000 = some .peaks := by decide
theorem test_decode_ctxinit :
    decodeTableWord 32 0b00010000111111111111111111111111 = some (.ctxinit 255 65535) := by decide
theorem test_decode_accum :
    decodeTableWord 32 0b00010001000000010000000100000000 = some (.accum 1 256) := by decide
theorem test_decode_decode : decodeTableWord 32 0b00010010111111110000000000000000 = some (.decode 255) := by decide
theorem test_decode_ctxfree : decodeTableWord 32 0b00010011000000100000000000000000 = some (.ctxfree 2) := by decide

/-- The illegal words of 95_test_vectors.md section 2.1. -/
theorem test_illegal_words :
    [0x00000001, 0x01000001, 0x02010000, 0x12050001, 0x13000100, 0x04000000, 0x0F000000, 0x14000000, 0x20000000,
      0xFF000000, 0xFFFFFFFF].all (fun w => decodeTableWord 32 w == none) = true := by decide

/-! ### Real operations (hand calculation) -/

/-- `1 + 2^-53` is a tie and rounds to the even `1`; `1 + 3 × 2^-53` rounds up to the even `1 + 2^-51`. -/
theorem test_fadd_ties_to_even :
    fadd 0x3FF0000000000000#64 0x3CA0000000000000#64 = 0x3FF0000000000000#64 ∧
    fadd 0x3FF0000000000001#64 0x3CA0000000000000#64 = 0x3FF0000000000002#64 := by decide +kernel

/-- `1 / 3`, `600 × 600 = 360000`, `sqrt 2`, and `u2f (2^53 + 1)`, a tie. -/
theorem test_fdiv_fmul_fsqrt_u2f :
    fdiv 0x3FF0000000000000#64 0x4008000000000000#64 = 0x3FD5555555555555#64 ∧
    fmul 0x4082C00000000000#64 0x4082C00000000000#64 = 0x4115F90000000000#64 ∧
    fsqrt 0x4000000000000000#64 = 0x3FF6A09E667F3BCD#64 ∧
    u2f (2 ^ 53 + 1) = 0x4340000000000000#64 := by decide +kernel

/-! ### States -/

/-- The next state of an outcome; a step of this machine has one. -/
def nextOf (o : Host.Outcome State Fault Refusal) : State :=
  match o with
  | .next t => t
  | .fault _ => State.reset
  | .refused _ => State.reset

/-- `STATUS` after a command on a state. -/
def statusAfter (i : Instr) (s : State) : Word := readGlobal (nextOf (exec i s)) .status

/-- A machine configured for the given rate and interval, not yet planned. -/
def configured (fs t : BitVec 32) : State := { State.reset with sampleRate := fs, intervalUs := t }

/-- The plan of 95_test_vectors.md section 2.5: `fs = 1000000`, `T = 8`, so `M = N = 8` and `SPB = 2`. -/
def planned : State :=
  { configured 1000000 8 with
    m := 8, n := 8, spb := 2, fs := 1000000, dt := 0x3EB32C88B7AB58A1#64
    status := { Status.zero with planValid := true } }

/-- The cells of the entries from a byte offset on, with imaginary parts zero, lane by lane (20_memory.md R85, R86). -/
def realCells : Nat → List F64 → List Host.Cell
  | _, [] => []
  | off, x :: xs =>
    (off, lane x 0) :: (off + 1, lane x 1) :: (off + 2, lane x 2) :: (off + 3, lane x 3) :: (off + 4, lane x 4) ::
    (off + 5, lane x 5) :: (off + 6, lane x 6) :: (off + 7, lane x 7) :: (off + 8, 0) :: (off + 9, 0) ::
    (off + 10, 0) :: (off + 11, 0) :: (off + 12, 0) :: (off + 13, 0) :: (off + 14, 0) :: (off + 15, 0) ::
    realCells (off + 16) xs

/-- A region whose first entries hold the given values with imaginary part zero. -/
def realRegion (l : List F64) : Region := ⟨realCells 0 l, 0⟩

/-- The one peak of 95_test_vectors.md section 2.5: bin 6, 250000.0, value (8000, 0). -/
def onePeak : PeakEntry := ⟨6, 0x410E848000000000#64, ⟨0x40BF400000000000#64, 0⟩⟩

/-- `planned` with a frequency vector `0 0 8000 0 0 0 0 0` and its peak list. -/
def peaked : State :=
  { planned with
    status := { Status.zero with planValid := true, fvecValid := true, peaksValid := true }
    npeaks := 1
    fvec := realRegion [0, 0, 0x40BF400000000000#64, 0, 0, 0, 0, 0]
    peak := (Region.unwritten 0).putPeak 0 onePeak }

/-- A free slot. -/
def freeOne : Slot := Slot.empty (Region.unwritten 0) (Region.unwritten 0)

/-- `peaked` with the given slot first. -/
def holding (x : Slot) : State := { peaked with slots := [x, freeOne, freeOne, freeOne] }

/-- A slot just claimed for the one peak. -/
def claimed : Slot := claimedSlot freeOne onePeak 8 0x3EB32C88B7AB58A1#64 0

/-- A valid slot with accumulator magnitudes `1 1 0 0 0 0 0 0` (95_test_vectors.md section 2.6 c). -/
def sliced : Slot :=
  { claimed with acc := realRegion [0x3FF0000000000000#64, 0x3FF0000000000000#64, 0, 0, 0, 0, 0, 0] }

/-! ### One or two tests for each command -/

theorem test_nop_from_reset : statusAfter .nop State.reset = 0x02#64 := by decide

/-- The first row of 95_test_vectors.md section 2.2. -/
theorem test_plan_latches :
    let t := nextOf (exec .plan (configured 3000000 600))
    t.m = 1800 ∧ t.n = 2048 ∧ t.spb = 6 ∧ t.fs = 3000000 ∧ t.dt = 0x3E9661CE68D3F7E5#64 ∧
      readGlobal t .status = 0x12#64 := by decide +kernel

/-- The `E_CONFIG` row with `spb = 1` and the `E_PLAN` row with `n = 131072`. -/
theorem test_plan_fails :
    statusAfter .plan (configured 999999 600) = 0x0206#64 ∧
    statusAfter .plan (configured 3000000 21846) = 0x0306#64 := by decide

/-- `FFT` without a plan, and the status after one with it. -/
theorem test_fft_status : statusAfter .fft State.reset = 0x0406#64 ∧ statusAfter .fft planned = 0x32#64 := by
  decide

/-- Row (h) of 95_test_vectors.md section 2.4: magnitude 900 at raw bin 6 is physical bin 2 at -250000.0. -/
theorem test_peaks_negative_frequency :
    let s : State := { peaked with npeaks := 0, fvec := realRegion [0, 0, 0, 0, 0, 0, 0x408C200000000000#64, 0] }
    let t := nextOf (exec .peaks s)
    t.npeaks = 1 ∧ t.peakAt 0 = ⟨2, 0xC10E848000000000#64, ⟨0x408C200000000000#64, 0⟩⟩ := by decide +kernel

/-- Row (b): 500 is not above the floor; row (d): two equal neighbours are no peaks. -/
theorem test_peaks_none :
    (nextOf (exec .peaks { peaked with fvec := realRegion [0, 0x407F400000000000#64, 0, 0, 0, 0, 0, 0] })).npeaks = 0 ∧
    (nextOf (exec .peaks { peaked with
      fvec := realRegion [0, 0x4082C00000000000#64, 0x4082C00000000000#64, 0, 0, 0, 0, 0] })).npeaks = 0 := by
  decide +kernel

/-- 95_test_vectors.md section 2.5 (a). -/
theorem test_ctxinit_claims :
    let t := nextOf (exec (.ctxinit 1 0) peaked)
    readSlotReg (t.slot 1) .ctxStatus = 1 ∧ (t.slot 1).bin = 6 ∧
      (t.slot 1).freqOffset = 0x410E848000000000#64 ∧ t.accAt 1 7 = ⟨0, 0⟩ := by decide

/-- A slot that is in use, and a slot number that is out of range. -/
theorem test_ctxinit_fails :
    statusAfter (.ctxinit 0 0) (holding claimed) = 0x0A76#64 ∧
    statusAfter (.ctxinit 4 0) peaked = 0x0876#64 := by decide

/-- 95_test_vectors.md section 2.5 (b), element 0: `1000 / 8000 × 1 = 0.125`. -/
theorem test_accum_adds :
    let s : State :=
      { holding { claimed with mixer := realRegion [0x3FF0000000000000#64] } with
        timeUs := 5000, ibuf := realRegion [0x408F400000000000#64] }
    let t := nextOf (exec (.accum 0 0) s)
    (t.accAt 0 0).re = 0x3FC0000000000000#64 ∧ (t.slot 0).sampleCount = 1 ∧ (t.slot 0).lastSeenUs = 5000 := by
  decide +kernel

/-- A slot of another bin. -/
theorem test_accum_wrong_bin :
    statusAfter (.accum 0 0) (holding { claimed with bin := 5 }) = 0x0B76#64 := by decide

/-- `norm = 1 1 0 0 0 0 0 0`: sync at sample 3, one bit (95_test_vectors.md section 2.6 c). -/
theorem test_decode_syncs :
    let t := nextOf (exec (.decode 0) (holding sliced))
    (t.slot 0).bitcnt = 1 ∧ (t.slot 0).frame0 = 0x8000000000000000#64 ∧ readGlobal t .status = 0x72#64 := by
  decide +kernel

/-- The three examples of 42_slicer_mfm.md R183, on slice values. -/
theorem test_detector_examples :
    let slices := fun (l : List Nat) => l.map fun x => if x = 1 then Slice.high else Slice.low
    detect 4 (slices [0,0,0,0,0,1,1,0,0,0,0,1,1,1,1,0,0,1,1,0,0,0,0,0]) = [true, false, true, true] ∧
    detect 4 (slices [0,0,0,0,0,1,1,0,0,0,0,0,1,1,1,1,1,0,0,0,0,0,0,0]) = [true, false, true] ∧
    detect 4 (slices [0,0,0,0,0,1,1,0,0,0,1,1,1,1,0,0,0,0,0,0]) = [true, false, true] := by decide

/-- The check value of 43_crc16_frame.md R209: the CRC of "123456789". -/
theorem test_crc_check_value : crc16Bytes [0x31, 0x32, 0x33, 0x34, 0x35, 0x36, 0x37, 0x38, 0x39] = 0x31C3 := by
  decide +kernel

/-- 95_test_vectors.md section 2.5 (e). -/
theorem test_ctxfree_frees :
    readSlotReg ((nextOf (exec (.ctxfree 0) (holding claimed))).slot 0) .ctxStatus = 0 ∧
    statusAfter (.ctxfree 4) peaked = 0x0876#64 := by decide

/-! ### Witnesses: for each statement with hypotheses, values that meet them -/

theorem witness_DecodeEncodeRoundTrip : (Instr.accum 255 65535).WellFormed ∧ Instr.nop.WellFormed := by decide

theorem witness_EncodeDecodeRoundTrip : decode 0x11FFFFFF#32 = .ok (.accum 255 65535) := by decide

/-- One legal and one illegal word. -/
theorem witness_DecodeSelectsOpcodeRow :
    decode 0x12FF0000#32 = .ok (.decode 255) ∧ decode 0x12FF0001#32 = .error (.unusedFieldNotZero 0x12) := by decide

/-- The engine's turn in the schedule, and the empty schedule. -/
theorem witness_StepRunsPendingCommand :
    let s := acceptCommand 0x02000000#32 planned
    let t := { s with schedule := [.engine] }
    (t.status.busy = true ∧ decode t.cmd = .ok .fft ∧ t.schedule = .engine :: []) ∧
    (s.status.busy = true ∧ decode s.cmd = .ok .fft ∧ s.schedule = []) := by decide

theorem witness_PlacedCommandRunsNext : (Instr.ctxinit 255 65535).WellFormed := by decide

/-- Every clause, at the boundaries of its range: slot 4 of 4, peak 1 of 1, slot 3, peak 0. -/
theorem witness_CommandErrorsInFixedOrder :
    (∀ r ∈ opcodeMap, r.selects (acceptCommand 0x04000000#32 State.reset).cmd = false) ∧
    State.reset.status.planValid = false ∧
    planned.status.planValid = true ∧ planned.status.fvecValid = false ∧ planned.status.peaksValid = false ∧
    peaked.status.planValid = true ∧ peaked.status.peaksValid = true ∧
    peaked.nslots ≤ 4 ∧ 3 < peaked.nslots ∧ peaked.npeaks.toNat ≤ 1 ∧ 0 < peaked.npeaks.toNat ∧
    (peaked.slot 3).valid = false ∧ ((holding claimed).slot 0).valid = true ∧
    ((holding { claimed with bin := 5 }).peakAt 0).bin ≠ ((holding { claimed with bin := 5 }).slot 0).bin := by
  decide

/-- `E_CONFIG` with a zero rate, with one sample per bit and with one sample; `E_PLAN` with 65538 samples. -/
theorem witness_PlanFailureClears :
    (0 = State.reset.sampleRate.toNat) ∧
    ((configured 999999 600).sampleRate.toNat / 500000 < 2) ∧
    ((1000000 * 1 + 500000) / 1000000 < 2 ∧ (configured 1000000 1).intervalUs.toNat = 1) ∧
    ¬(3000000 = 0 ∨ 3000000 / 500000 < 2 ∨ (3000000 * 21846 + 500000) / 1000000 < 2) ∧
    (∀ k, (3000000 * 21846 + 500000) / 1000000 ≤ 2 ^ k → (configured 3000000 21846).nMax < 2 ^ k) := by
  refine ⟨by decide, by decide, by decide, by decide, fun k h => ?_⟩
  have e : (configured 3000000 21846).nMax = 65536 := by decide
  omega

/-- `M = 65535` at the largest length of 16. -/
theorem witness_PlanLatchesConfiguration :
    3000000 = (configured 3000000 21845).sampleRate.toNat ∧ 21845 = (configured 3000000 21845).intervalUs.toNat ∧
    65535 = (3000000 * 21845 + 500000) / 1000000 ∧ 2 ≤ 3000000 / 500000 ∧ 65535 ≤ 2 ^ 16 ∧
    (∀ j, 65535 ≤ 2 ^ j → 16 ≤ j) ∧ 2 ^ 16 ≤ (configured 3000000 21845).nMax := by
  refine ⟨by decide, by decide, by decide, by decide, by decide, fun j h => ?_, by decide⟩
  by_contra hj
  have := Nat.pow_le_pow_right (n := 2) (by omega) (show j ≤ 15 by omega)
  omega

theorem witness_FftWritesTransform : planned.status.planValid = true := by decide

/-- A buffer that differs in entry 8 alone. -/
theorem witness_FftIgnoresSamplesBeyondM :
    planned.status.planValid = true ∧
    (∀ i, i < planned.m.toNat →
      (planned.ibuf.putC64 8 ⟨1, 1⟩).c64 RegionId.ibuf.base i = planned.ibufAt i) ∧
    ∃ t, exec .fft planned = .next t := by
  refine ⟨by decide, fun i h => ?_, _, rfl⟩
  have e : planned.m.toNat = 8 := by decide
  exact Laws.putC64_c64_other _ _ _ _ _ (by omega)

theorem witness_FftOfZerosAndNonFinite :
    let s := { planned with ibuf := realRegion [0, 0, 0, 0, 0, 0, 0, 0] }
    s.status.planValid = true ∧
      ∀ i, i < s.m.toNat → isZero (s.ibufAt i).re = true ∧ isZero (s.ibufAt i).im = true := by
  decide +kernel

/-- The last sample a NaN, and the last sample an infinity. -/
theorem witness_FftOfZerosAndNonFinite_samples :
    let s := { planned with ibuf := (Region.unwritten 0).putC64 7 ⟨0x7FF8000000000000#64, 0⟩ }
    let t := { planned with ibuf := (Region.unwritten 0).putC64 7 ⟨0, 0x7FF0000000000000#64⟩ }
    s.status.planValid = true ∧ 7 < s.m.toNat ∧ 7 < s.n.toNat ∧ isNaN (s.ibufAt 7).re = true ∧
    t.status.planValid = true ∧ isFinite (t.ibufAt 7).im = false := by decide

theorem witness_NoCommandWritesIbuf : ∃ t, exec .fft planned = .next t := ⟨_, rfl⟩

theorem witness_PeaksWritesTheList : peaked.status.planValid = true ∧ peaked.status.fvecValid = true := by decide

theorem witness_PeaksReportsExactlyThePeaks :
    peaked.status.planValid = true ∧ peaked.status.fvecValid = true ∧ 1 ≤ 3 ∧ 8 = 2 ^ 3 ∧ peaked.n.toNat = 8 ∧
    ∃ t, exec .peaks peaked = .next t := ⟨by decide, by decide, by decide, by decide, by decide, _, rfl⟩

theorem witness_PeakCountBound :
    peaked.status.planValid = true ∧ peaked.status.fvecValid = true ∧ 2 ≤ peaked.n.toNat ∧ peaked.n.toNat % 2 = 0 ∧
    peaked.n.toNat ≤ peaked.nMax ∧ peaked.n.toNat ≤ 2 ^ 17 ∧ ∃ t, exec .peaks peaked = .next t :=
  ⟨by decide, by decide, by decide, by decide, by decide, by decide, _, rfl⟩

theorem witness_PeakFrequencyIsExact : 4294967295 < 2 ^ 32 ∧ 1 ≤ 17 ∧ 17 ≤ 17 ∧ 131071 < 2 ^ 17 := by decide

theorem witness_BinRoundTrip : 1 ≤ 1 ∧ 2 = 2 ^ 1 ∧ 1 < 2 := by decide

theorem witness_CtxinitClaimsSlot :
    peaked.status.planValid = true ∧ peaked.status.peaksValid = true ∧ 3 < peaked.nslots ∧
    0 < peaked.npeaks.toNat ∧ (peaked.slot 3).valid = false := by decide

/-- A zero angle, and angles that are not finite. -/
theorem witness_CtxinitClaimsSlot_angles :
    isZero 0x8000000000000000#64 = true ∧ isFinite 0xFFF0000000000000#64 = false ∧
    isFinite 0x7FF8000000000000#64 = false := by decide

theorem witness_AccumAddsNormalisedSamples :
    let s := holding claimed
    s.status.planValid = true ∧ s.status.peaksValid = true ∧ 0 < s.nslots ∧ 0 < s.npeaks.toNat ∧
    (s.slot 0).valid = true ∧ (s.slot 0).decoded = false ∧ (s.peakAt 0).bin = (s.slot 0).bin := by decide

/-- A decoded slot of the peak's bin, and one of another bin. -/
theorem witness_AccumOnDecodedSlotIsNoOp :
    let s := holding { claimed with decoded := true }
    let t := holding { claimed with decoded := true, bin := 5 }
    (s.status.planValid = true ∧ s.status.peaksValid = true ∧ 0 < s.nslots ∧ 0 < s.npeaks.toNat ∧
      (s.slot 0).valid = true ∧ (s.slot 0).decoded = true ∧ (s.peakAt 0).bin = (s.slot 0).bin) ∧
    (t.status.planValid = true ∧ t.status.peaksValid = true ∧ 0 < t.nslots ∧ 0 < t.npeaks.toNat ∧
      (t.slot 0).valid = true ∧ (t.slot 0).decoded = true ∧ (t.peakAt 0).bin ≠ (t.slot 0).bin) := by decide

theorem witness_CtxfreeFreesSlot : 3 < State.reset.nslots ∧ (State.reset.slot 3).valid = false := by decide

theorem witness_DecodeStoresFrame :
    let s := holding sliced
    s.status.planValid = true ∧ 0 < s.nslots ∧ (s.slot 0).valid = true ∧ (s.slot 0).decoded = false ∧
    [true] = mfmDecode ((List.range s.m.toNat).map fun j => NUM.cabs (s.accAt 0 j)) s.spb.toNat := by decide +kernel

/-- A mean of 0 and one of 1. The window is not full after the third push, and full after the fourth and the fifth. -/
theorem witness_DecodeStoresFrame_detector :
    feq (fmean [0#64]) 0#64 = true ∧ feq (fmean [0x3FF0000000000000#64]) 0#64 = false ∧
    (List.replicate 256 true).length = 256 ∧ ([] : List Bool).length ≠ 256 ∧
    (¬4 ≤ if 2 < 4 then 2 + 1 else 2) ∧ (4 ≤ if 3 < 4 then 3 + 1 else 3) ∧ (4 ≤ if 4 < 4 then 4 + 1 else 4) ∧
    0 < 1 ∧ Slice.high ≠ Slice.low := by decide +kernel

theorem witness_DecodeOfDecodedSlotReportsOne :
    let s := holding { claimed with decoded := true }
    s.status.planValid = true ∧ 0 < s.nslots ∧ (s.slot 0).valid = true ∧ (s.slot 0).decoded = true := by decide

theorem witness_DecodeOfZeroAccumulatorFails :
    let s := holding claimed
    s.status.planValid = true ∧ 0 < s.nslots ∧ (s.slot 0).valid = true ∧ (s.slot 0).decoded = false ∧
    1 ≤ s.m.toNat ∧
    ∀ j, j < s.m.toNat → isZero (s.accAt 0 j).re = true ∧ isZero (s.accAt 0 j).im = true := by decide +kernel

/-- A mean of `+inf`, and a mean that is a NaN. -/
theorem witness_MeanNotFiniteDecodesNothing :
    fmean [0x7FF0000000000000#64] = 0x7FF0000000000000#64 ∧ isNaN 0x7FF8000000000000#64 = true ∧
    isNaN (fmean [0x7FF8000000000000#64]) = true := by
  refine ⟨by decide +kernel, by decide, ?_⟩
  have h : isNaN (fadd 0#64 0x7FF8000000000000#64) = true := by
    rw [fadd, faddAs, if_pos (by decide)]
    exact Laws.isNaN_nanOf _
  rw [fmean, List.foldl_cons, List.foldl_nil, fdiv, h]
  exact Laws.isNaN_nanOf _

theorem witness_DetectedFrameStartsWithOne :
    mfmDecode [0x3FF0000000000000#64, 0x3FF0000000000000#64, 0, 0, 0, 0, 0, 0] 2 = true :: [] := by decide +kernel

/-- Four samples, the fewest that sync. -/
theorem witness_DetectorNeedsEnoughSamples :
    2 ≤ 2 ∧ mfmDecode [0x3FF0000000000000#64, 0x3FF0000000000000#64, 0, 0] 2 ≠ [] := by decide +kernel

theorem witness_FrameRegistersHoldFrame : 3 < 4 ∧ 63 < 64 ∧ 7 < 8 := by decide

theorem witness_CrcByteWiseAgrees : (List.replicate 256 true).length = 256 := List.length_replicate

/-- Two messages of one length; the CRC of the empty message is 0; a burst of 16 bits in 20 zeros. -/
theorem witness_CrcProperties :
    [true].length = [false].length ∧ crc16 (List.replicate 20 false) = 0 ∧ (List.replicate 16 true).length ≤ 16 ∧
    true ∈ List.replicate 16 true ∧ (List.replicate 20 false).length = 1 + (List.replicate 16 true).length + 3 := by
  decide +kernel

/-- A transaction of four bytes, one at address 4, one just beyond the global registers; and a mapped address. -/
theorem witness_AddressMapAndErrors :
    4 ≠ 8 ∧ (∀ loc, ¬Names State.reset (0x00000004#32).toNat loc) ∧
    (∀ loc, ¬Names State.reset (0x00000078#32).toNat loc) ∧
    Names (State.resetWith 17 256) (0x409FFFF8#32).toNat (.memory (.acc 255) 0x1FFFF8) ∧
    (State.resetWith 17 256).log2NMax ≤ 17 ∧ (State.resetWith 17 256).slots.length ≤ 256 := by
  refine ⟨by decide, ?_, ?_, ?_, by decide, by decide +kernel⟩
  · rintro (r | ⟨i, r⟩ | ⟨_ | _ | _ | i | i, off⟩) <;> simp [Names, inRegion, globalOffsets] <;> omega
  · rintro (r | ⟨i, r⟩ | ⟨_ | _ | _ | i | i, off⟩) <;> simp [Names, inRegion, globalOffsets] <;> omega
  · simp only [Names, inRegion]
    decide +kernel

/-- A dropped write, and one that is not. -/
theorem witness_WritesWhileBusyAreDropped :
    let s := acceptCommand 0 State.reset
    s.status.busy = true ∧ Names s (0x00200000#32).toNat (.memory .ibuf 0) ∧
    Names s (0x00000008#32).toNat (.global .status) := by
  simp only [Names, inRegion]
  decide

/-- The last global register, the last register of the last slot, the last word of the last region, of a pending and an
idle machine, and an address that is no multiple of 8. -/
theorem witness_HostReads :
    let s := acceptCommand 0 State.reset
    s.status.busy = true ∧ State.reset.status.busy = false ∧
    Names s (0x00000070#32).toNat (.global .fs) ∧ Names s (0x00800398#32).toNat (.slot 3 .frame3) ∧
    Names s (0x018FFFF8#32).toNat (.memory (.acc 3) 0xFFFF8) ∧
    Names State.reset (0x018FFFF8#32).toNat (.memory (.acc 3) 0xFFFF8) ∧
    ∀ loc, ¬Names State.reset (0x00000004#32).toNat loc := by
  refine ⟨rfl, rfl, ?_, ?_, ?_, ?_, witness_AddressMapAndErrors.2.1⟩ <;> simp only [Names, inRegion] <;> decide

/-- Words the spec defines, of every region: `IBUF`, an entry of the vector, the one peak, a claimed slot's regions. -/
theorem witness_HostReads_defined :
    peaked.status.fvecValid = true ∧ 0xFFFF8 / 16 = 65535 ∧ 0x70 / 16 < peaked.n.toNat ∧
    peaked.status.peaksValid = true ∧ 0x18 / 32 < peaked.npeaks.toNat ∧
    ((holding claimed).slot 0).valid = true ∧ 0x78 / 16 < (holding claimed).m.toNat := by decide

/-- The last word of `IBUF`, and a word of `FVEC`. -/
theorem witness_IbufWriteInvalidates :
    State.reset.status.busy = false ∧ Names State.reset (0x002FFFF8#32).toNat (.memory .ibuf 0xFFFF8) ∧
    Names State.reset (0x00400000#32).toNat (.memory .fvec 0) ∧ RegionId.fvec ≠ RegionId.ibuf := by
  simp only [Names, inRegion]
  decide

theorem witness_IbufWordReadsBack :
    State.reset.status.busy = false ∧ Names State.reset (0x00200000#32).toNat (.memory .ibuf 0) ∧
    Names State.reset (0x00200008#32).toNat (.memory .ibuf 8) ∧ 0x00200000#32 ≠ 0x00200008#32 := by
  simp only [Names, inRegion]
  decide

theorem witness_AcceptedCommandBecomesPending :
    State.reset.status.busy = false ∧ (acceptCommand 0 State.reset).status.busy = true := by decide

theorem witness_OperandRegistersReadBack : State.reset.status.busy = false := by decide

theorem witness_ResetClearsRegisters :
    (1#64).getLsbD 0 = true ∧ ({ planned with schedule := [.resetInput] } : State).schedule = .resetInput :: [] := by
  decide

/-- The largest build parameters, and a step. -/
theorem witness_HardwiredRegistersNeverChange :
    (State.resetWith 17 256).log2NMax < 2 ^ 8 ∧ (State.resetWith 17 256).nslots < 2 ^ 9 ∧
    ∃ t, step (planned.withFetchWord 32 0x02000000) = .next t := ⟨by decide, by decide +kernel, _, rfl⟩

/-- The accumulating command on a slot that stays valid, decoded or not. -/
theorem witness_CountsGrowAndFreeze :
    (0 < (holding claimed).nslots ∧ ((holding claimed).slot 0).valid = true ∧
      ((nextOf (exec (.accum 0 0) (holding claimed))).slot 0).valid = true) ∧
    ((holding { claimed with decoded := true }).slot 0).decoded = true ∧
    ((nextOf (exec (.accum 0 0) (holding { claimed with decoded := true }))).slot 0).valid = true ∧
    ∃ t, exec (.accum 0 0) (holding claimed) = .next t :=
  ⟨by decide, by decide, by decide, _, rfl⟩

/-! ### Witnesses for the invariants -/

theorem slotOk_free (pv : Bool) (r q : Region) (h1 : memoryWf r.cells = true) (h2 : memoryWf q.cells = true) :
    SlotOk pv (Slot.empty r q) where
  needsPlan h := by cases h
  freeReadsZero _ := rfl
  decodedComplete h := by cases h
  bitcntBound := Nat.zero_le _
  beyondCount j _ := by
    rw [Slot.frameBit]
    split <;> simp [Slot.empty]
  firstBit h := absurd rfl h
  complete h := by cases h
  regions := ⟨h1, h2⟩

theorem claimed_regions : memoryWf claimed.mixer.cells = true ∧ memoryWf claimed.acc.cells = true :=
  ⟨Laws.memoryWf_putC64s _ _ rfl, Laws.memoryWf_putC64s _ _ rfl⟩

/-- A claimed slot is as it should be: it differs from a free one in its validity, bin and frequency. -/
theorem slotOk_claimed : SlotOk true claimed where
  needsPlan _ := rfl
  freeReadsZero h := by cases h
  decodedComplete h := by cases h
  bitcntBound := by decide
  beyondCount j _ := by
    rw [Slot.frameBit]
    split <;> simp [claimed, claimedSlot, Slot.empty]
  firstBit h := absurd rfl h
  complete h := by cases h
  regions := claimed_regions

/-- A machine with a plan, a vector, a peak list and a tracked peak meets the invariant. -/
theorem inv_holding_claimed : Inv (holding claimed) where
  parameters := by decide
  regions := by decide
  validChain := by decide
  planned _ := ⟨8, by decide +kernel⟩
  unplanned h := by cases h
  peakCount := by decide
  errors := by decide
  pending h := by cases h
  slots x hx := by
    simp only [holding, List.mem_cons, List.not_mem_nil, or_false, or_self] at hx
    rcases hx with rfl | rfl
    · exact slotOk_claimed
    · exact slotOk_free _ _ _ rfl rfl

theorem witness_StepKeepsInvariant :
    Inv (holding claimed) ∧ ∃ t, step (holding claimed) = .next t := ⟨inv_holding_claimed, _, rfl⟩

/-- The smallest and the largest build parameters. -/
theorem witness_ResetMeetsInvariant : (2 ≤ 2 ∧ 2 ≤ 17 ∧ 1 ≤ 1 ∧ 1 ≤ 256) ∧ (2 ≤ 17 ∧ 17 ≤ 17 ∧ 1 ≤ 256 ∧ 256 ≤ 256) := by
  decide

/-- A vector just transformed. -/
theorem witness_StepKeepsFvecCurrent :
    FvecCurrent (fftEffect planned) ∧ (fftEffect planned).status.fvecValid = true ∧
    ∃ t, step (fftEffect planned) = .next t := by
  refine ⟨fun _ k hk => ?_, rfl, _, rfl⟩
  have h : k < (NUM.fft planned.n.toNat (fftInput planned)).length := by simpa [NUM, fftFree] using hk
  have e := Laws.putC64s_c64 (planned.fvec.restamp planned.draw) RegionId.fvec.base 0 k
    (NUM.fft planned.n.toNat (fftInput planned)) h
  rw [Nat.zero_add] at e
  refine Eq.trans e ?_
  rw [List.getD_eq_getElem?_getD]
  exact (congrArg (fun o => o.getD C64.zero) (List.getElem?_eq_getElem h)).symm

/-- The peak list of `0 0 8000 0 0 0 0 0`. -/
theorem witness_StepKeepsPeaksCurrent :
    PeaksCurrent peaked ∧ peaked.status.peaksValid = true ∧ ∃ t, step peaked = .next t := by
  refine ⟨fun _ => ?_, rfl, _, rfl⟩
  decide +kernel

/-- A slot just claimed, every other one free. -/
theorem witness_StepKeepsMixersCurrent :
    MixersCurrent (holding claimed) ∧ ((holding claimed).slot 0).valid = true ∧ ∃ t, step (holding claimed) = .next t := by
  refine ⟨fun i hv j hj => ?_, rfl, _, rfl⟩
  have hi : i = 0 := by
    match i with
    | 0 => rfl
    | 1 => cases hv
    | 2 => cases hv
    | 3 => cases hv
    | i + 4 => cases hv
  subst hi
  have h : j < (mixerElements onePeak.freq 8 0x3EB32C88B7AB58A1#64).length := by
    rw [mixerElements, List.length_map, List.length_range]
    exact hj
  have e := Laws.putC64s_c64 (freeOne.mixer.restamp 0) (RegionId.mixer 0).base 0 j
    (mixerElements onePeak.freq 8 0x3EB32C88B7AB58A1#64) h
  rw [Nat.zero_add] at e
  refine Eq.trans e ?_
  simp only [mixerElements, List.getElem_map, List.getElem_range]
  rfl

/-- Cells of regions just written lie within `16 × 65536`. -/
theorem witness_StepKeepsRegionsBounded :
    Inv (holding claimed) ∧ RegionsBounded (holding claimed) ∧ ∃ t, step (holding claimed) = .next t := by
  refine ⟨inv_holding_claimed, ?_, _, rfl⟩
  unfold RegionsBounded cellsBelow
  decide +kernel

/-- An exact sum of 0; the largest finite value with half a step, and with the value just below it; a finite third
value. -/
theorem witness_AddRoundsToNearestEven :
    isFinite 0x7FEFFFFFFFFFFFFF#64 = true ∧ isFinite 0x7C90000000000000#64 = true ∧
    isFinite 0x7C8FFFFFFFFFFFFF#64 = true ∧ isFinite 0#64 = true ∧ fint 0#64 + fint 0#64 = 0 ∧
    overflowUnits ≤ (fint 0x7FEFFFFFFFFFFFFF#64 + fint 0x7C90000000000000#64).natAbs ∧
    (fint 0x7FEFFFFFFFFFFFFF#64 + fint 0x7C8FFFFFFFFFFFFF#64).natAbs < overflowUnits := by decide +kernel

/-- `2^1023 × 2` overflows; the largest finite value times 1 does not. -/
theorem witness_MulRoundsToNearestEven :
    isFinite 0x7FE0000000000000#64 = true ∧ isFinite 0x4000000000000000#64 = true ∧
    isFinite 0x7FEFFFFFFFFFFFFF#64 = true ∧ isFinite 0x3FF0000000000000#64 = true ∧
    overflowUnits * 2 ^ 1074 ≤ (fint 0x7FE0000000000000#64 * fint 0x4000000000000000#64).natAbs ∧
    (fint 0x7FEFFFFFFFFFFFFF#64 * fint 0x3FF0000000000000#64).natAbs < overflowUnits * 2 ^ 1074 := by decide +kernel

/-- Zero and one divided by zero; `2^1023 / 0.5` overflows; one third does not. -/
theorem witness_DivRoundsToNearestEven :
    isFinite 0#64 = true ∧ isFinite 0x3FF0000000000000#64 = true ∧ isFinite 0x7FE0000000000000#64 = true ∧
    isFinite 0x3FE0000000000000#64 = true ∧ isFinite 0x4008000000000000#64 = true ∧
    fint 0#64 = 0 ∧ fint 0x3FF0000000000000#64 ≠ 0 ∧ fint 0x3FE0000000000000#64 ≠ 0 ∧
    overflowUnits * (fint 0x3FE0000000000000#64).natAbs ≤ (fint 0x7FE0000000000000#64).natAbs * 2 ^ 1074 ∧
    (fint 0x3FF0000000000000#64).natAbs * 2 ^ 1074 < overflowUnits * (fint 0x4008000000000000#64).natAbs := by
  decide +kernel

/-- The smallest positive value, and zero beside its root. -/
theorem witness_SqrtRoundsToNearest :
    isFinite 0x0000000000000001#64 = true ∧ 0 < fint 0x0000000000000001#64 ∧ isFinite 0#64 = true ∧ 0 ≤ fint 0#64 := by
  decide

/-- A host that tracks the one peak in slot 0. -/
def tracking : System := ⟨⟨[(6, 0)], []⟩, holding claimed⟩

theorem witness_ProcessCaptureKeepsRegistry :
    Inv tracking.machine ∧ tracking.machine.status.busy = false ∧ tracking.machine.status.planValid = true ∧
    RegistryOk tracking := by
  refine ⟨inv_holding_claimed, rfl, rfl, by decide, by decide, ?_, by decide⟩
  decide

/-! ### The host (45_host_sequence.md) -/

/-- A host that names slot 2 and the reverse order, with an age of 10. -/
def choices : HostChoices where
  maxAgeUs := 10
  freeSlot _ := 2
  reapOrder reg := reg.reverse
  seenAt n := ⟨2024, 1, 1, 0, 0, n⟩

/-- A machine with a plan of two samples, whose captures find no peak, and a host that tracks bin 6. -/
def smallTracking : System :=
  ⟨⟨[(6, 0)], []⟩,
    { holding claimed with
      m := 2, n := 2, spb := 2, fs := 1000000, dt := planDt 2 2, npeaks := 0
      status := { Status.zero with planValid := true } }⟩

theorem inv_smallTracking : Inv smallTracking.machine where
  parameters := by decide
  regions := by decide
  validChain := by decide
  planned _ := ⟨2, by decide +kernel⟩
  unplanned h := by cases h
  peakCount := by decide
  errors := by decide
  pending h := by cases h
  slots := inv_holding_claimed.slots

/-- An entry last seen exactly the limit before the capture's time is still there after the capture. -/
theorem witness_NoStaleHypothesisAfterCapture :
    Inv smallTracking.machine ∧ smallTracking.machine.status.busy = false ∧
    smallTracking.machine.status.planValid = true ∧ RegistryOk smallTracking ∧
    (6, 0) ∈ (processCapture choices 10 smallTracking).host.reg := by
  refine ⟨inv_smallTracking, rfl, rfl, ⟨by decide, by decide, ?_, by decide⟩, by decide⟩
  decide

/-- Two tracked bins, last seen at 0 and at 20. -/
def twoTracked : System :=
  ⟨⟨[(6, 0), (3, 1)], []⟩,
    { peaked with slots := [claimed, { claimed with bin := 3, lastSeenUs := 20 }, freeOne, freeOne] }⟩

/-- An age above the limit is reaped, one of exactly the limit is not (45_host_sequence.md R245). -/
theorem test_reap_strict :
    (reap choices 10 twoTracked).host.reg = [(6, 0), (3, 1)] ∧ (reap choices 11 twoTracked).host.reg = [(3, 1)] := by
  decide

/-- The pass visits the entries in the order the host names, and a new hypothesis gets the slot it names. -/
theorem test_choices : reapList choices [(6, 0), (3, 1)] = [(3, 1), (6, 0)] ∧ chooseSlot choices peaked = some 2 := by
  decide

/-- After a `PLAN` and after a reset the registry is empty and no slot is valid (45_host_sequence.md R235). -/
theorem test_registry_emptied :
    (hostPlan twoTracked).host.reg = [] ∧ ((hostPlan twoTracked).machine.slot 0).valid = false ∧
    (hostReset twoTracked).host.reg = [] ∧ ((hostReset twoTracked).machine.slot 0).valid = false := by decide

theorem witness_NextPow2IsLeast : 1 ≤ 1 ∧ 1 ≤ 65535 := by decide

end Sys2Proof.Tests
end

section
/-! SUPPORT. Proofs about the real operations, the transform's zeros and non-finite values, and the state after reset
(00_scope.md R15, R22, R24; 40_fft.md R136; 44_peak_detector.md R228; 10_state.md R71). -/

namespace Sys2Proof.Proofs

open Sys2Proof.Machine Sys2Proof.Safety Sys2Proof.Laws Sys2Proof.Claims

/-! ### Signed magnitudes -/

/-- The integer of a sign and a magnitude. -/
def signed (sign : Bool) (u : Nat) : Int := if sign then -(u : Int) else u

theorem fint_eq_signed (x : F64) : fint x = signed (fsign x) (funits x) := rfl

@[simp] theorem natAbs_signed (sign : Bool) (u : Nat) : (signed sign u).natAbs = u := by
  cases sign <;> simp [signed]

@[simp] theorem signed_eq_zero_iff (sign : Bool) (u : Nat) : signed sign u = 0 ↔ u = 0 := by
  cases sign <;> simp [signed]

/-- The sign of a magnitude that is not zero. -/
theorem signed_pos_iff {u : Nat} (sign : Bool) (hu : u ≠ 0) : 0 < signed sign u ↔ sign = false := by
  cases sign
  · simpa [signed] using Nat.pos_of_ne_zero hu
  · simp [signed]

theorem signed_mul_natCast (sign : Bool) (u d : Nat) : signed sign u * d = signed sign (u * d) := by
  cases sign <;> simp [signed]

theorem signed_mul_signed (a b : Bool) (u v : Nat) : signed a u * signed b v = signed (a != b) (u * v) := by
  cases a <;> cases b <;> simp [signed]

/-- An integer is its sign and its magnitude. -/
theorem signed_natAbs (s : Int) : signed (decide (s < 0)) s.natAbs = s := by
  by_cases h : s < 0
  · rw [decide_eq_true h, signed, if_pos rfl]
    omega
  · rw [decide_eq_false h, signed, if_neg (by decide)]
    omega

/-- Between values of one sign the distance is that of the magnitudes. -/
theorem abs_signed_sub_same (sign : Bool) (u v : Nat) : |signed sign u - signed sign v| = |(u : Int) - v| := by
  cases sign
  · rfl
  · rw [signed, signed, if_pos rfl, if_pos rfl, neg_sub_neg, abs_sub_comm]

/-- Between values of opposite signs the distance is the sum of the magnitudes. -/
theorem abs_signed_sub_other (sign : Bool) (u v : Nat) : |signed (!sign) u - signed sign v| = (u : Int) + v := by
  cases sign <;> simp [signed, abs_eq_max_neg] <;> omega

/-- Scaling by a signed factor instead of its magnitude leaves a distance as it is. -/
theorem abs_mul_signed_sub (a : Int) (sx sy : Bool) (u v : Nat) :
    |a * signed sy v - signed sx u| = |a * v - signed (sx != sy) u| := by
  cases sy
  · simp [signed]
  · rw [← abs_neg]
    cases sx <;> simp [signed] <;> ring_nf

/-! ### Finite values -/

/-- A finite value is neither a NaN nor an infinity. -/
theorem not_isNaN_not_isInf {x : F64} (h : isFinite x = true) : isNaN x = false ∧ isInf x = false := by
  simpa [isFinite_eq] using h

@[simp] theorem magUnits_zero : magUnits 0 = 0 := by decide

@[simp] theorem magUnits_one : magUnits 1 = 1 := by decide

/-- A magnitude is zero exactly for the zeros. -/
theorem funits_eq_zero_iff (x : F64) : funits x = 0 ↔ isZero x = true := by
  rw [funits_eq, isZero, beq_iff_eq]
  exact magUnits_strictMono.injective.eq_iff' magUnits_zero

theorem fint_eq_zero_iff (x : F64) : fint x = 0 ↔ isZero x = true := by
  rw [fint_eq_signed, signed_eq_zero_iff, funits_eq_zero_iff]

@[simp] theorem isZero_fzero (sign : Bool) : isZero (fzero sign) = true := by simp [isZero, fzero]

/-- Finite magnitudes lie below 2^1024, which is 2^2098 units. -/
theorem funits_lt_of_isFinite {x : F64} (h : isFinite x = true) : funits x < 2 ^ 2098 := by
  have hmax : magUnits (2046 * 2 ^ 52 + 2 ^ 52) = 2 ^ 52 * 2 ^ 2046 :=
    magUnits_scaled 2046 (2 ^ 52) (by decide) (.inr le_rfl)
  calc funits x = magUnits (fmag x) := funits_eq x
    _ < magUnits (2046 * 2 ^ 52 + 2 ^ 52) := magUnits_strictMono ((isFinite_iff x).1 h)
    _ = 2 ^ 2098 := by rw [hmax, ← pow_add]

theorem finf_eq (sign : Bool) : finf sign = if sign then 0xFFF0000000000000#64 else 0x7FF0000000000000#64 := by
  cases sign <;> decide

@[simp] theorem fsign_finf (sign : Bool) : fsign (finf sign) = sign := fsign_fpack _ _

/-! ### Rounding with a sign -/

theorem two_pow_le_overflowUnits {k : Nat} (hk : k ≤ 2044) : 2 ^ k ≤ overflowUnits := by
  have h : 2 ^ k ≤ 2 ^ 2044 := pow_le_pow_right₀ (by decide) hk
  rw [overflowUnits]
  generalize 2 ^ 2044 = D at *
  omega

theorem overflowUnits_pos : 0 < overflowUnits := two_pow_le_overflowUnits (Nat.zero_le 2044)

/-- The sign of a rounded value is the one it is rounded with. -/
theorem fsign_fround (sign : Bool) {n d : Nat} (hd : 0 < d) : fsign (fround sign n d) = sign := by
  rcases fround_cases sign n d hd with ⟨-, h⟩ | ⟨-, -, -, h⟩
  · rw [h, fsign_finf]
  · exact h

/-- From half a step beyond the largest finite magnitude on, rounding answers an infinity. -/
theorem fround_overflow (sign : Bool) {n d : Nat} (hd : 0 < d) (h : overflowUnits * d ≤ n) :
    fround sign n d = finf sign := by
  rcases fround_cases sign n d hd with ⟨-, h'⟩ | ⟨h', -⟩
  · exact h'
  · exact absurd h' (not_lt.2 h)

/-- An overflow is the infinity of the sign of the exact value. -/
theorem fround_overflow_signed (sign : Bool) {n d u : Nat} (hd : 0 < d) (h : overflowUnits * d ≤ n) (hu : u ≠ 0) :
    fround sign n d = if 0 < signed sign u then 0x7FF0000000000000#64 else 0xFFF0000000000000#64 := by
  rw [fround_overflow sign hd h, finf_eq]
  simp only [signed_pos_iff sign hu]
  cases sign <;> rfl

/-- Below half a step beyond the largest finite magnitude, rounding answers the finite value whose magnitude field is the
rounded one. -/
theorem fround_finite (sign : Bool) {n d : Nat} (hd : 0 < d) (h : n < overflowUnits * d) :
    isFinite (fround sign n d) = true ∧ fmag (fround sign n d) = roundUnits n d ∧
      fint (fround sign n d) = signed sign (magUnits (roundUnits n d)) := by
  rcases fround_cases sign n d hd with ⟨h', -⟩ | ⟨-, hf, hm, hs⟩
  · exact absurd h (not_lt.2 h')
  · exact ⟨hf, hm, by rw [fint_eq_signed, hs, funits_eq, hm]⟩

/-- The finite value `r` is nearest to the exact value `e / d`, and even where another finite value is as near. -/
def NearestEven (r : F64) (d : Nat) (e : Int) : Prop :=
  ∀ z : F64, isFinite z = true →
    |fint r * d - e| ≤ |fint z * d - e| ∧
    (|fint r * d - e| = |fint z * d - e| → fint z ≠ fint r → r.getLsbD 0 = false)

/-- Rounding with a sign is to nearest, ties to even, among the values of both signs: a value of the other sign is at
least as far away as the zero of this one. -/
theorem fround_nearestEven (sign : Bool) {n d : Nat} (hd : 0 < d) (h : n < overflowUnits * d) :
    NearestEven (fround sign n d) d (signed sign n) := by
  intro z _
  obtain ⟨-, hm, hr⟩ := fround_finite sign hd h
  have hodd : (fround sign n d).getLsbD 0 = false ↔ roundUnits n d % 2 = 0 := by
    rw [getLsbD_zero_eq, hm, decide_eq_false_iff_not]
    omega
  rw [hodd, hr, fint_eq_signed z, funits_eq, signed_mul_natCast, signed_mul_natCast, abs_signed_sub_same]
  push_cast
  by_cases hz : fsign z = sign
  · obtain ⟨hle, htie⟩ := roundUnits_nearest n d (fmag z) hd
    rw [hz, abs_signed_sub_same]
    push_cast
    exact ⟨hle, fun heq hne => htie heq fun hg => hne (by rw [hg])⟩
  · obtain ⟨hle, htie⟩ := roundUnits_nearest n d 0 hd
    rw [magUnits_zero, Nat.cast_zero, zero_mul, zero_sub, abs_neg, Nat.abs_cast] at hle htie
    have hpos : (0 : Int) ≤ (magUnits (fmag z) : Int) * d := by positivity
    rw [Bool.eq_not_of_ne hz, abs_signed_sub_other]
    push_cast
    refine ⟨by omega, fun heq hne => htie (by omega) fun hg => hne ?_⟩
    have hz0 : (magUnits (fmag z) : Int) * d = 0 := by omega
    have hz1 : magUnits (fmag z) = 0 := by
      exact_mod_cast (mul_eq_zero.1 hz0).resolve_right (by exact_mod_cast hd.ne')
    rw [hz1, ← hg, (signed_eq_zero_iff _ _).2 rfl, (signed_eq_zero_iff _ _).2 rfl]

/-- A zero is nearest to an exact zero, and no other value is as near. -/
theorem nearestEven_zero (sign : Bool) : NearestEven (fzero sign) 1 0 := by
  intro z _
  have h0 : fint (fzero sign) = 0 := (fint_eq_zero_iff _).2 (isZero_fzero sign)
  simp only [h0, Nat.cast_one, sub_zero, mul_one, abs_zero]
  exact ⟨abs_nonneg _, fun heq hne => absurd (abs_eq_zero.1 heq.symm) hne⟩

/-! ### Sums -/

/-- The sum of finite values, as one rounding of the exact sum. -/
theorem fadd_of_finite {x y : F64} (hx : isFinite x = true) (hy : isFinite y = true) :
    fadd x y = if fint x + fint y = 0 then fzero (fsign x && fsign y)
      else fround (decide (fint x + fint y < 0)) (fint x + fint y).natAbs 1 := by
  obtain ⟨hxn, hxi⟩ := not_isNaN_not_isInf hx
  obtain ⟨hyn, hyi⟩ := not_isNaN_not_isInf hy
  simp [fadd, faddAs, hxn, hxi, hyn, hyi, faddFinite]

/-- Settles O55: the exact sum is rounded once, by `fround_nearestEven`; an exact zero is its own case. -/
theorem addRoundsToNearestEven : Obligations.AddRoundsToNearestEven := by
  intro x y hx hy
  rw [fadd_of_finite hx hy]
  generalize fint x + fint y = s
  refine ⟨fun h0 => ?_, fun hover => ?_, fun hlt => ?_⟩
  · rw [if_pos h0]
    cases fsign x <;> cases fsign y <;> decide
  · have hs : s ≠ 0 := by
      rintro rfl
      exact absurd hover (by decide +kernel)
    rw [if_neg hs, fround_overflow _ Nat.one_pos (by rwa [Nat.mul_one]), finf_eq]
    by_cases hneg : s < 0
    · rw [decide_eq_true hneg, if_pos rfl, if_neg (by omega)]
    · rw [decide_eq_false hneg, if_neg (by decide), if_pos (by omega)]
  · by_cases hs : s = 0
    · subst hs
      rw [if_pos rfl]
      refine ⟨by cases fsign x <;> cases fsign y <;> decide, ?_⟩
      simpa [NearestEven] using nearestEven_zero (fsign x && fsign y)
    · have hlt' : s.natAbs < overflowUnits * 1 := by rwa [Nat.mul_one]
      have hnear := fround_nearestEven (decide (s < 0)) Nat.one_pos hlt'
      rw [signed_natAbs] at hnear
      rw [if_neg hs]
      exact ⟨(fround_finite _ Nat.one_pos hlt').1, by simpa [NearestEven] using hnear⟩

/-! ### Products -/

/-- The product of finite values, as one rounding of the exact product. -/
theorem fmul_of_finite {x y : F64} (hx : isFinite x = true) (hy : isFinite y = true) :
    fmul x y = fround (fsign x != fsign y) (funits x * funits y) (2 ^ 1074) := by
  obtain ⟨hxn, hxi⟩ := not_isNaN_not_isInf hx
  obtain ⟨hyn, hyi⟩ := not_isNaN_not_isInf hy
  simp only [fmul, hxn, hxi, hyn, hyi, Bool.or_self, Bool.false_eq_true, if_false]

theorem fint_mul_fint (x y : F64) : fint x * fint y = signed (fsign x != fsign y) (funits x * funits y) :=
  signed_mul_signed _ _ _ _

/-- Settles O56: the exact product of units, over `2^1074`, is rounded once with the product's sign. -/
theorem mulRoundsToNearestEven : Obligations.MulRoundsToNearestEven := by
  intro x y hx hy
  have hd : 0 < 2 ^ 1074 := by positivity
  rw [fmul_of_finite hx hy, fint_mul_fint, natAbs_signed]
  refine ⟨fsign_fround _ hd, fun hover => ?_, fun hlt => ?_⟩
  · have hpos : 0 < overflowUnits * 2 ^ 1074 := Nat.mul_pos overflowUnits_pos hd
    exact fround_overflow_signed _ hd hover (by omega)
  · have hnear := fround_nearestEven (fsign x != fsign y) hd hlt
    rw [NearestEven, Nat.cast_pow, Nat.cast_ofNat] at hnear
    exact ⟨(fround_finite _ hd hlt).1, hnear⟩

/-! ### Quotients -/

/-- The quotient of finite values by one that is not zero, as one rounding of the exact quotient. -/
theorem fdiv_of_finite {x y : F64} (hx : isFinite x = true) (hy : isFinite y = true) (h0 : isZero y = false) :
    fdiv x y = fround (fsign x != fsign y) (funits x * 2 ^ 1074) (funits y) := by
  obtain ⟨hxn, hxi⟩ := not_isNaN_not_isInf hx
  obtain ⟨hyn, hyi⟩ := not_isNaN_not_isInf hy
  simp only [fdiv, hxn, hxi, hyn, hyi, h0, Bool.or_self, Bool.false_eq_true, if_false]

/-- A finite value divided by a zero. -/
theorem fdiv_zero {x y : F64} (hx : isFinite x = true) (hy : isFinite y = true) (h0 : isZero y = true) :
    fdiv x y = if isZero x then nanOf (Config.nanPattern .div x y) else finf (fsign x != fsign y) := by
  obtain ⟨hxn, hxi⟩ := not_isNaN_not_isInf hx
  obtain ⟨hyn, hyi⟩ := not_isNaN_not_isInf hy
  simp only [fdiv, hxn, hxi, hyn, hyi, h0, Bool.or_self, Bool.false_eq_true, if_false, if_true]

/-- A distance compared after multiplying by the divisor is one compared after multiplying by its magnitude. -/
theorem abs_mul_fint_sub (a : Int) (x y : F64) :
    |a * fint y - fint x * 2 ^ 1074| =
      |a * funits y - signed (fsign x != fsign y) (funits x * 2 ^ 1074)| := by
  have h := signed_mul_natCast (fsign x) (funits x) (2 ^ 1074)
  rw [Nat.cast_pow, Nat.cast_ofNat] at h
  rw [fint_eq_signed x, fint_eq_signed y, h, abs_mul_signed_sub]

/-- Settles O57: by a zero the special cases; else the exact quotient is rounded once with the quotient's sign. -/
theorem divRoundsToNearestEven : Obligations.DivRoundsToNearestEven := by
  intro x y hx hy
  simp only [abs_mul_fint_sub, ne_eq, fint_eq_zero_iff, Bool.not_eq_true]
  refine ⟨fun hy0 => ⟨fun hx0 => ?_, fun hx0 => ?_⟩, fun hy0 => ?_⟩
  · rw [fdiv_zero hx hy hy0, if_pos hx0, isNaN_nanOf]
  · rw [fdiv_zero hx hy hy0, if_neg (by simp [hx0]), finf_eq]
    cases fsign x <;> cases fsign y <;> rfl
  · have hu : funits y ≠ 0 := fun h => by simp [(funits_eq_zero_iff y).1 h] at hy0
    have hd : 0 < funits y := Nat.pos_of_ne_zero hu
    rw [fdiv_of_finite hx hy hy0, fint_mul_fint, fint_eq_signed x, fint_eq_signed y, natAbs_signed, natAbs_signed]
    refine ⟨fsign_fround _ hd, fun hover => ?_, fun hlt => ?_⟩
    · have hux : funits x ≠ 0 := by
        intro h
        rw [h, Nat.zero_mul] at hover
        exact absurd (Nat.mul_pos overflowUnits_pos hd) (not_lt.2 hover)
      exact fround_overflow_signed _ hd hover (Nat.mul_ne_zero hux hu)
    · exact ⟨(fround_finite _ hd hlt).1, fround_nearestEven _ hd hlt⟩

/-! ### Square roots -/

/-- The integer root of `n`, with fuel for its bits, is the largest number whose square is at most `n`. -/
theorem isqrt_spec {fuel n : Nat} (h : n < 4 ^ fuel) :
    isqrt fuel n ^ 2 ≤ n ∧ n < (isqrt fuel n + 1) ^ 2 := by
  induction fuel generalizing n with
  | zero =>
    rw [pow_zero] at h
    obtain rfl : n = 0 := by omega
    decide
  | succ fuel ih =>
    rw [pow_succ] at h
    obtain ⟨hlo, hhi⟩ := ih (n := n / 4) (by omega)
    have h4 : 4 * (n / 4) ≤ n ∧ n < 4 * (n / 4) + 4 := by omega
    simp only [isqrt]
    generalize isqrt fuel (n / 4) = r at *
    split
    · constructor <;> nlinarith
    · constructor <;> nlinarith

/-- The midpoints that decide a rounding are coarse: where `n / d` has more than 53 bits above `2^c`, a multiple of
`2^c` lies between twice `n / d` and the sum of the result with any other magnitude. -/
theorem roundUnits_separated {n d c : Nat} (hd : 0 < d) (hc : 2 ^ 53 * (d * 2 ^ c) ≤ n) (g : Nat) :
    (magUnits (roundUnits n d) < magUnits g →
      ∃ M, 2 ^ c ∣ M ∧ 2 * n ≤ d * M ∧ M ≤ magUnits (roundUnits n d) + magUnits g) ∧
    (magUnits g < magUnits (roundUnits n d) →
      ∃ M, 2 ^ c ∣ M ∧ d * M ≤ 2 * n ∧ magUnits (roundUnits n d) + magUnits g ≤ M) := by
  obtain ⟨scale, q, hq, hs, hlo, hhi, hround⟩ := roundUnits_scaled n d hd
  have hlow : magUnits (scale * 2 ^ 52 + q) = q * 2 ^ scale := magUnits_scaled scale q (by omega) hs
  have hhigh : magUnits (scale * 2 ^ 52 + (q + 1)) = (q + 1) * 2 ^ scale :=
    magUnits_scaled scale (q + 1) (by omega) (by omega)
  have hscale : c < scale := by
    have h1 : 2 ^ 53 * (d * 2 ^ c) < 2 ^ 53 * (d * 2 ^ scale) :=
      lt_of_le_of_lt hc (lt_of_lt_of_le hhi (Nat.mul_le_mul_right _ hq))
    have h2 : 2 ^ c < 2 ^ scale := lt_of_mul_lt_mul_left' (lt_of_mul_lt_mul_left' h1)
    exact (Nat.pow_lt_pow_iff_right (by decide)).1 h2
  have hdvd : ∀ k, 2 ^ c ∣ k * 2 ^ scale := fun k => (pow_dvd_pow 2 hscale.le).mul_left k
  have hd2 : ∀ k, d * (k * 2 ^ scale) = k * (d * 2 ^ scale) := fun k => Nat.mul_left_comm _ _ _
  rw [hround]
  split
  · rename_i hup
    rw [hhigh, ← hhigh, magUnits_strictMono.lt_iff_lt, magUnits_strictMono.lt_iff_lt, hhigh]
    constructor
    · intro hg
      have := magUnits_strictMono hg
      refine ⟨2 * (q + 1) * 2 ^ scale, hdvd _, by rw [hd2]; linarith, by linarith⟩
    · intro hg
      have := magUnits_strictMono.monotone (show g ≤ scale * 2 ^ 52 + q by omega)
      refine ⟨(2 * q + 1) * 2 ^ scale, hdvd _, by rw [hd2]; omega, by linarith⟩
  · rename_i hup
    rw [magUnits_strictMono.lt_iff_lt, magUnits_strictMono.lt_iff_lt, hlow]
    constructor
    · intro hg
      have := magUnits_strictMono.monotone (show scale * 2 ^ 52 + (q + 1) ≤ g by omega)
      refine ⟨(2 * q + 1) * 2 ^ scale, hdvd _, by rw [hd2]; omega, by linarith⟩
    · intro hg
      have := magUnits_strictMono hg
      refine ⟨2 * q * 2 ^ scale, hdvd _, by rw [hd2]; linarith, by linarith⟩

/-- A value of at least one unit does not round to zero: one unit is nearer. -/
theorem magUnits_roundUnits_pos {n d : Nat} (hd : 0 < d) (h : d ≤ n) : 0 < magUnits (roundUnits n d) := by
  obtain ⟨hle, -⟩ := roundUnits_nearest n d 1 hd
  by_contra h0
  rw [show magUnits (roundUnits n d) = 0 by omega, magUnits_one, Nat.cast_zero, Nat.cast_one, zero_mul, one_mul,
    abs_eq_max_neg, abs_eq_max_neg] at hle
  omega

/-- The integer root of a number's leading bits: 56 bits, exact to the last of them. -/
theorem isqrt_leading {t e : Nat} (hlo : 2 ^ (110 + 2 * e) ≤ t) (hhi : t < 2 ^ (112 + 2 * e)) :
    2 ^ 55 ≤ isqrt 60 (t / 2 ^ (2 * e)) ∧ isqrt 60 (t / 2 ^ (2 * e)) < 2 ^ 56 ∧
    (isqrt 60 (t / 2 ^ (2 * e)) * 2 ^ e) ^ 2 ≤ t ∧ t < ((isqrt 60 (t / 2 ^ (2 * e)) + 1) * 2 ^ e) ^ 2 := by
  have hpos : 0 < 2 ^ (2 * e) := by positivity
  have hk : 2 ^ 110 ≤ t / 2 ^ (2 * e) := by
    rwa [Nat.le_div_iff_mul_le hpos, ← pow_add]
  have hk' : t / 2 ^ (2 * e) < 2 ^ 112 := by
    rwa [Nat.div_lt_iff_lt_mul hpos, ← pow_add]
  have hsq : ∀ r, (r * 2 ^ e) ^ 2 = r ^ 2 * 2 ^ (2 * e) := fun r => by rw [mul_pow, ← pow_mul, Nat.mul_comm e 2]
  obtain ⟨hr, hr'⟩ := isqrt_spec (fuel := 60) (hk'.trans (by decide))
  generalize isqrt 60 (t / 2 ^ (2 * e)) = root at *
  refine ⟨?_, lt_of_pow_lt_pow_left₀ 2 (by positivity) (hr.trans_lt hk'), ?_, ?_⟩
  · have : 2 ^ 55 < root + 1 := lt_of_pow_lt_pow_left₀ 2 (by positivity) (hk.trans_lt hr')
    omega
  · rw [hsq, ← Nat.le_div_iff_mul_le hpos]
    exact hr
  · rw [hsq, ← Nat.div_lt_iff_lt_mul hpos]
    exact hr'

/-- The square root as one rounding: `root` holds its leading 56 bits, down to `2^e`, and `sticky` is 1 where the root
goes on below them. -/
theorem fsqrtUnits_eq_fround {u : Nat} (h0 : 0 < u) (hu : u < 2 ^ 2098) :
    ∃ e root sticky, fsqrtUnits u = fround false ((2 * root + sticky) * 2 ^ e) 2 ∧
      e ≤ 1530 ∧ 2 ^ 55 ≤ root ∧ root < 2 ^ 56 ∧ sticky ≤ 1 ∧
      (root * 2 ^ e) ^ 2 ≤ u * 2 ^ 1074 ∧ u * 2 ^ 1074 ≤ ((root + sticky) * 2 ^ e) ^ 2 := by
  have hlog : u.log2 < 2098 :=
    (pow_lt_pow_iff_right₀ one_lt_two).1 (lt_of_le_of_lt (Nat.log2_self_le h0.ne') hu)
  obtain ⟨e, he⟩ : ∃ e, e = (u.log2 + 1074 - 110) / 2 := ⟨_, rfl⟩
  have hlo : 2 ^ (110 + 2 * e) ≤ u * 2 ^ 1074 :=
    calc 2 ^ (110 + 2 * e) ≤ 2 ^ (u.log2 + 1074) := Nat.pow_le_pow_right (by decide) (by omega)
      _ = 2 ^ u.log2 * 2 ^ 1074 := pow_add _ _ _
      _ ≤ u * 2 ^ 1074 := Nat.mul_le_mul_right _ (Nat.log2_self_le h0.ne')
  have hhi : u * 2 ^ 1074 < 2 ^ (112 + 2 * e) :=
    calc u * 2 ^ 1074 < 2 ^ (u.log2 + 1) * 2 ^ 1074 := Nat.mul_lt_mul_of_pos_right Nat.lt_log2_self (by positivity)
      _ = 2 ^ (u.log2 + 1 + 1074) := (pow_add _ _ _).symm
      _ ≤ 2 ^ (112 + 2 * e) := Nat.pow_le_pow_right (by decide) (by omega)
  obtain ⟨hroot, hroot', hbelow, habove⟩ := isqrt_leading hlo hhi
  rw [fsqrtUnits, ← he, Nat.mul_div_cancel_left e (by decide)]
  generalize u * 2 ^ 1074 = t at *
  generalize isqrt 60 (t / 2 ^ (2 * e)) = root at *
  refine ⟨e, root, if root * root * 2 ^ (2 * e) = t then 0 else 1, rfl, by omega, hroot, hroot', by split <;> decide,
    hbelow, ?_⟩
  split
  · rename_i hexact
    rw [← hexact, Nat.add_zero, mul_pow, ← pow_mul, Nat.mul_comm e 2, sq]
  · exact habove.le

/-- The square root of a positive finite magnitude of `u` units is finite and positive, and the exact root lies on the
result's side of the midpoint to every other magnitude. -/
theorem fsqrtUnits_nearest {u : Nat} (h0 : 0 < u) (hu : u < 2 ^ 2098) :
    ∃ r : Nat, isFinite (fsqrtUnits u) = true ∧ fint (fsqrtUnits u) = (r : Int) ∧ 0 < r ∧
      ∀ g, (r < magUnits g → 4 * (u * 2 ^ 1074) ≤ (r + magUnits g) ^ 2) ∧
        (magUnits g < r → (r + magUnits g) ^ 2 ≤ 4 * (u * 2 ^ 1074)) := by
  obtain ⟨e, root, sticky, heq, he, hroot, hroot', hsticky, hlo, hhi⟩ := fsqrtUnits_eq_fround h0 hu
  generalize u * 2 ^ 1074 = T at *
  have hover : (2 * root + sticky) * 2 ^ e < overflowUnits * 2 :=
    calc (2 * root + sticky) * 2 ^ e < 2 ^ 57 * 2 ^ e := Nat.mul_lt_mul_of_pos_right (by omega) (by positivity)
      _ = 2 ^ (57 + e) := (pow_add 2 57 e).symm
      _ ≤ overflowUnits := two_pow_le_overflowUnits (by omega)
      _ ≤ overflowUnits * 2 := Nat.le_mul_of_pos_right _ (by decide)
  have hcoarse : 2 ^ 53 * (2 * 2 ^ (e + 1)) ≤ (2 * root + sticky) * 2 ^ e := by
    rw [show 2 ^ 53 * (2 * 2 ^ (e + 1)) = 2 ^ 55 * 2 ^ e by ring]
    exact Nat.mul_le_mul_right _ (by omega)
  obtain ⟨hfin, -, hint⟩ := fround_finite false (by decide) hover
  have hsep := fun g => roundUnits_separated (by decide) hcoarse g
  have hrpos := magUnits_roundUnits_pos (by decide) (show 2 ≤ (2 * root + sticky) * 2 ^ e from
    le_trans (by omega) (Nat.le_mul_of_pos_right (2 * root + sticky) (Nat.two_pow_pos e)))
  have hmul : ∀ j, 2 * (2 ^ (e + 1) * j) = 2 * (2 * j * 2 ^ e) := fun j => by ring
  have hpos : 0 < 2 ^ e := by positivity
  rw [heq]
  generalize magUnits (roundUnits ((2 * root + sticky) * 2 ^ e) 2) = r at *
  refine ⟨r, hfin, hint, hrpos, fun g => ⟨fun hg => ?_, fun hg => ?_⟩⟩
  · obtain ⟨M, ⟨j, rfl⟩, hM, hle⟩ := (hsep g).1 hg
    rw [hmul] at hM
    have hj : 2 * root + sticky ≤ 2 * j := Nat.le_of_mul_le_mul_right (Nat.le_of_mul_le_mul_left hM (by decide)) hpos
    calc 4 * T ≤ 4 * ((root + sticky) * 2 ^ e) ^ 2 := Nat.mul_le_mul_left 4 hhi
      _ ≤ 4 * (j * 2 ^ e) ^ 2 :=
        Nat.mul_le_mul_left 4 (Nat.pow_le_pow_left (Nat.mul_le_mul_right _ (by omega)) 2)
      _ = (2 ^ (e + 1) * j) ^ 2 := by ring
      _ ≤ (r + magUnits g) ^ 2 := Nat.pow_le_pow_left hle 2
  · obtain ⟨M, ⟨j, rfl⟩, hM, hle⟩ := (hsep g).2 hg
    rw [hmul] at hM
    have hj : 2 * j ≤ 2 * root + sticky := Nat.le_of_mul_le_mul_right (Nat.le_of_mul_le_mul_left hM (by decide)) hpos
    calc (r + magUnits g) ^ 2 ≤ (2 ^ (e + 1) * j) ^ 2 := Nat.pow_le_pow_left hle 2
      _ = 4 * (j * 2 ^ e) ^ 2 := by ring
      _ ≤ 4 * (root * 2 ^ e) ^ 2 :=
        Nat.mul_le_mul_left 4 (Nat.pow_le_pow_left (Nat.mul_le_mul_right _ (by omega)) 2)
      _ ≤ 4 * T := Nat.mul_le_mul_left 4 hlo

/-- A value that is not negative is its magnitude. -/
theorem fint_eq_funits {x : F64} (h : 0 ≤ fint x) : fint x = funits x := by
  rw [fint] at h ⊢
  split_ifs at h ⊢ <;> omega

/-- The root of a positive finite value is that of its magnitude. -/
theorem fsqrt_of_pos {x : F64} (hx : isFinite x = true) (h0 : 0 < fint x) : fsqrt x = fsqrtUnits (funits x) := by
  obtain ⟨hn, hi⟩ := not_isNaN_not_isInf hx
  have hz : isZero x = false := by
    rw [← Bool.not_eq_true, ← fint_eq_zero_iff]
    exact h0.ne'
  have hs : fsign x = false := by
    rw [fint_eq_signed, signed] at h0
    split at h0
    · omega
    · simpa using ‹¬fsign x = true›
  simp only [fsqrt, hn, hz, hs, hi, Bool.false_eq_true, if_false]

/-- Settles O58, by `fsqrtUnits_nearest` at the magnitude field of the other value. -/
theorem sqrtRoundsToNearest : Obligations.SqrtRoundsToNearest := by
  intro x z hx hpos _ hz
  rw [fsqrt_of_pos hx hpos, fint_eq_funits hz, funits_eq z]
  have hxu := fint_eq_funits hpos.le
  rw [hxu] at hpos ⊢
  obtain ⟨r, hfin, hint, hr, hnear⟩ := fsqrtUnits_nearest (by exact_mod_cast hpos) (funits_lt_of_isFinite hx)
  obtain ⟨habove, hbelow⟩ := hnear (fmag z)
  rw [hint]
  exact ⟨hfin, by exact_mod_cast hr, by exact_mod_cast habove, by exact_mod_cast hbelow⟩

/-! ### The transform of zeros and of non-finite samples -/

/-- With a valid plan `FFT` performs its effect and ends. -/
theorem exec_fft_of_planValid {s : State} (h : s.status.planValid = true) :
    exec .fft s = .next (finish (fftEffect s)) :=
  congrArg _ (completeWith_ok fftEffect s (by simp [checkPlan, h]))

/-- With a valid plan and vector `PEAKS` performs its effect and ends. -/
theorem exec_peaks_of_valid {s : State} (hp : s.status.planValid = true) (hf : s.status.fvecValid = true) :
    exec .peaks s = .next (finish (peaksEffect s)) :=
  congrArg _ (completeWith_ok peaksEffect s (by simp [checkPlan, checkFvec, hp, hf]))

/-- After `FFT` the frequency vector holds the elements of the transform. -/
theorem fvecAt_fftEffect {s : State} {k : Nat} (hk : k < s.n.toNat) :
    (finish (fftEffect s)).fvecAt k = fftBin s.n.toNat (fftInput s) k := by
  have hlen : k < (NUM.fft s.n.toNat (fftInput s)).length := by simpa [NUM, fftFree] using hk
  have h := putC64s_c64 (s.fvec.restamp s.draw) RegionId.fvec.base 0 k _ hlen
  rw [Nat.zero_add] at h
  rw [State.fvecAt, finish_fvec, fftEffect_fvec, h]
  simp [NUM, fftFree]

/-- A sample below `M` and `N` takes part in the transform. -/
theorem ibufAt_mem_fftInput {s : State} {i : Nat} (hm : i < s.m.toNat) (hn : i < s.n.toNat) :
    s.ibufAt i ∈ fftInput s :=
  List.mem_map.2 ⟨i, List.mem_range.2 hn, if_pos hm⟩

/-- The transform's input holds samples below `M` and zeros. -/
theorem fftInput_cases {s : State} {x : C64} (h : x ∈ fftInput s) :
    (∃ i, i < s.m.toNat ∧ x = s.ibufAt i) ∨ x = C64.zero := by
  obtain ⟨i, -, rfl⟩ := List.mem_map.1 h
  by_cases hi : i < s.m.toNat
  · exact .inl ⟨i, hi, if_pos hi⟩
  · exact .inr (if_neg hi)

/-- The transform of zeros is zeros (00_scope.md R22 b). -/
theorem fftBin_isZero {len : Nat} {x : List C64} (k : Nat) (h : x.all c64IsZero = true) :
    c64IsZero (fftBin len x k) = true := by
  rw [fftBin, if_pos h]
  simp [c64IsZero]

/-- A frequency vector without a finite element has no peak: no magnitude exceeds its left neighbour's
(44_peak_detector.md R228). -/
theorem peakBins_eq_nil {s : State} (h : ∀ k, k < s.n.toNat → c64NonFinite (s.fvecAt k) = true) :
    peakBins s = [] := by
  rw [peakBins, List.filter_eq_nil_iff]
  intro i hi
  have hleft : i - 1 < s.n.toNat := by
    rw [List.mem_range'_1] at hi
    omega
  have hnone : noneAbove (s.magAt (i - 1)) := cabs_nonFinite (h _ hleft)
  rw [isPeak, fgt_noneAbove _ hnone]
  simp

/-- Settles O15: each clause is a fact about `fftBin`, carried to `FVEC` by `fvecAt_fftEffect`. -/
theorem fftOfZerosAndNonFinite : Obligations.FftOfZerosAndNonFinite := by
  refine ⟨fun s hp hz => ⟨_, exec_fft_of_planValid hp, fun k hk => ?_⟩,
    fun s i hp hm hn => ⟨_, exec_fft_of_planValid hp, fun hnan k hk => ?_, fun hinf => ?_⟩⟩
  · have hall : (fftInput s).all c64IsZero = true := by
      refine List.all_eq_true.2 fun x hx => ?_
      rcases fftInput_cases hx with ⟨i, hi, rfl⟩ | rfl
      · simpa [c64IsZero] using hz i hi
      · decide
    rw [fvecAt_fftEffect hk]
    simpa [c64IsZero] using fftBin_isZero k hall
  · have hany : (fftInput s).any c64HasNaN = true :=
      List.any_eq_true.2 ⟨_, ibufAt_mem_fftInput hm hn, by simpa [c64HasNaN] using hnan⟩
    rw [fvecAt_fftEffect hk]
    simpa [c64HasNaN] using fftBin_hasNaN k hany
  · have hany : (fftInput s).any c64NonFinite = true :=
      List.any_eq_true.2 ⟨_, ibufAt_mem_fftInput hm hn, by simpa [c64NonFinite] using hinf⟩
    have hall : ∀ k, k < s.n.toNat → c64NonFinite ((finish (fftEffect s)).fvecAt k) = true := fun k hk => by
      rw [fvecAt_fftEffect hk]
      exact fftBin_nonFinite k hany
    have hnil : peakBins (finish (fftEffect s)) = [] := peakBins_eq_nil (by simpa using hall)
    refine ⟨fun k hk => by simpa [c64NonFinite] using hall k hk, _,
      exec_peaks_of_valid (by simpa using hp) (by simp), ?_, by simp⟩
    simp [hnil]

/-! ### The state after reset -/

/-- The frame of a slot that reads zero has no bit set. -/
@[simp] theorem frameBit_empty (r q : Region) (j : Nat) : (Slot.empty r q).frameBit j = false := by
  rw [Slot.frameBit]
  split <;> simp [Slot.empty]

/-- A slot that reads zero is as it should be, with or without a plan (10_state.md R54). -/
theorem slotOk_empty (planValid : Bool) {r q : Region} (hr : memoryWf r.cells = true) (hq : memoryWf q.cells = true) :
    SlotOk planValid (Slot.empty r q) where
  needsPlan h := by cases h
  freeReadsZero _ := rfl
  decodedComplete h := by cases h
  bitcntBound := Nat.zero_le _
  beyondCount j _ := frameBit_empty r q j
  firstBit h := absurd rfl h
  complete h := by cases h
  regions := ⟨hr, hq⟩

/-- Settles O49: after reset every flag is down, every register is 0 and every slot is empty. -/
theorem resetMeetsInvariant : Obligations.ResetMeetsInvariant := by
  intro l n hl hl' hn hn'
  exact {
    parameters := ⟨hl, hl', by simpa [State.nslots, State.resetWith] using ⟨hn, hn'⟩⟩
    regions := ⟨rfl, rfl, rfl⟩
    validChain := ⟨(by cases ·), (by cases ·)⟩
    planned := fun h => by cases h
    unplanned := fun _ => ⟨rfl, rfl, rfl, rfl, rfl⟩
    peakCount := ⟨fun _ => rfl, Nat.zero_le _⟩
    errors := ⟨iff_of_true rfl rfl, Nat.zero_le _⟩
    pending := fun h => by cases h
    slots := fun x hx => by
      obtain rfl := List.eq_of_mem_replicate hx
      exact slotOk_empty _ rfl rfl }

end Sys2Proof.Proofs
end

section
/-! SUPPORT. The part of the state that the transform and the peak list are made of, and what a step can do to it
(10_state.md R45, R46). -/

namespace Sys2Proof.Proofs

open Sys2Proof.Machine Sys2Proof.Safety Sys2Proof.Laws

/-! ### The signal path -/

/-- The two states agree in the latched configuration, the buffers of the signal path, and the valid flags. -/
structure SameSignal (s t : State) : Prop where
  log2NMax : t.log2NMax = s.log2NMax
  m : t.m = s.m
  n : t.n = s.n
  spb : t.spb = s.spb
  dt : t.dt = s.dt
  fs : t.fs = s.fs
  npeaks : t.npeaks = s.npeaks
  ibuf : t.ibuf = s.ibuf
  fvec : t.fvec = s.fvec
  peak : t.peak = s.peak
  planValid : t.status.planValid = s.status.planValid
  fvecValid : t.status.fvecValid = s.status.fvecValid
  peaksValid : t.status.peaksValid = s.status.peaksValid

/-- No frequency vector and no peak list is valid. -/
def NothingDerived (s : State) : Prop := s.status.fvecValid = false ∧ s.status.peaksValid = false

theorem sameSignal_schedule (s : State) (rest : List Event) : SameSignal s { s with schedule := rest } := by
  constructor <;> rfl

theorem sameSignal_finish (s : State) : SameSignal s (finish s) := by constructor <;> rfl

theorem sameSignal_raiseErr (c : ErrCode) (s : State) : SameSignal s (raiseErr c s) := by constructor <;> simp

theorem sameSignal_respond (ok : Bool) (d : Option Word) (s : State) : SameSignal s (respond ok d s) := by
  constructor <;> rfl

theorem sameSignal_setOvr (s : State) : SameSignal s (setOvr s) := by constructor <;> rfl

theorem sameSignal_acceptCommand (c : BitVec 32) (s : State) : SameSignal s (acceptCommand c s) := by
  constructor <;> rfl

theorem sameSignal_writeStatus (v : Word) (s : State) : SameSignal s (writeStatus v s) := by constructor <;> simp

theorem sameSignal_ctxinit (k p : Nat) (s : State) : SameSignal s (finish (ctxinitEffect k p s)) := by
  constructor <;> rfl

theorem sameSignal_accum (k p : Nat) (s : State) : SameSignal s (finish (accumEffect k p s)) := by
  constructor <;> simp

theorem sameSignal_decode (k : Nat) (s : State) : SameSignal s (finish (decodeEffect k s)) := by
  constructor <;> simp

theorem sameSignal_ctxfree (k : Nat) (s : State) : SameSignal s (finish (freeSlot k s)) := by constructor <;> rfl

theorem sameSignal_trans {s t u : State} (h : SameSignal s t) (h' : SameSignal t u) : SameSignal s u where
  log2NMax := h'.log2NMax.trans h.log2NMax
  m := h'.m.trans h.m
  n := h'.n.trans h.n
  spb := h'.spb.trans h.spb
  dt := h'.dt.trans h.dt
  fs := h'.fs.trans h.fs
  npeaks := h'.npeaks.trans h.npeaks
  ibuf := h'.ibuf.trans h.ibuf
  fvec := h'.fvec.trans h.fvec
  peak := h'.peak.trans h.peak
  planValid := h'.planValid.trans h.planValid
  fvecValid := h'.fvecValid.trans h.fvecValid
  peaksValid := h'.peaksValid.trans h.peaksValid

/-- A host read leaves the signal path as it is. -/
theorem sameSignal_hostRead (a : BitVec 32) (n : Nat) (s : State) : SameSignal s (hostRead a n s) := by
  rcases hostRead_cases a n s with ⟨-, h⟩ | ⟨_, _, -, -, h⟩ | ⟨v, h⟩ <;> rw [h] <;> constructor <;> rfl

/-- A host write leaves the signal path as it is, or invalidates what is derived from `IBUF`. -/
theorem hostWrite_signal (a : BitVec 32) (n : Nat) (v : Word) (s : State) :
    SameSignal s (hostWrite a n v s) ∨ NothingDerived (hostWrite a n v s) := by
  rcases hostWrite_cases a n v s with ⟨-, h⟩ | ⟨_, -, -, -, h⟩ | ⟨loc, -, -, h⟩ <;> rw [h]
  · exact .inl (sameSignal_respond _ _ _)
  · exact .inl (sameSignal_trans (sameSignal_respond _ _ _) (sameSignal_setOvr _))
  · rcases writeLocation_cases loc v s with h | ⟨-, h⟩ | ⟨-, h⟩ | ⟨-, h⟩ | ⟨off, -, h⟩ | ⟨_, _, _, _, h⟩ <;>
      rw [h]
    · exact .inl (sameSignal_respond _ _ _)
    · exact .inl (sameSignal_trans (sameSignal_acceptCommand _ _) (sameSignal_respond _ _ _))
    · exact .inl (sameSignal_trans (sameSignal_writeStatus _ _) (sameSignal_respond _ _ _))
    · exact .inr ⟨rfl, rfl⟩
    · exact .inr ⟨rfl, rfl⟩
    · exact .inl (by constructor <;> rfl)

/-- A command leaves the signal path as it is, invalidates what is derived from it, or is a successful `FFT` or
`PEAKS`. -/
theorem exec_signal {i : Instr} {s t : State} (h : exec i s = .next t) :
    SameSignal s t ∨ NothingDerived t ∨ t = finish (fftEffect s) ∨ t = finish (peaksEffect s) := by
  rcases exec_cases i s with ⟨c, -, he⟩ | ⟨c, he⟩ | ⟨-, he⟩ | ⟨-, -, -, he⟩ | ⟨-, -, he⟩ | ⟨-, -, -, he⟩ |
    ⟨k, p, -, -, -, -, -, -, he⟩ | ⟨k, p, -, -, -, -, -, -, -, he⟩ | ⟨k, -, -, -, -, he⟩ | ⟨k, -, -, he⟩ <;>
    rw [he] at h <;> cases h
  · exact .inr (.inl ⟨by simp [planFail], by simp [planFail]⟩)
  · exact .inl (sameSignal_raiseErr c s)
  · exact .inl (sameSignal_finish s)
  · exact .inr (.inl ⟨rfl, rfl⟩)
  · exact .inr (.inr (.inl rfl))
  · exact .inr (.inr (.inr rfl))
  · exact .inl (sameSignal_ctxinit k p s)
  · exact .inl (sameSignal_accum k p s)
  · exact .inl (sameSignal_decode k s)
  · exact .inl (sameSignal_ctxfree k s)

/-- A property of the signal path that holds while nothing derived is valid, and that `FFT` and `PEAKS` keep, is kept by
every step. -/
theorem step_keeps_of_signal {P : State → Prop} (hsame : ∀ {s t}, SameSignal s t → P s → P t)
    (hnone : ∀ {s}, NothingDerived s → P s) (hfft : ∀ {s}, P s → P (finish (fftEffect s)))
    (hpeaks : ∀ {s}, P s → P (finish (peaksEffect s))) {s t : State} (hs : P s) (h : step s = .next t) : P t := by
  refine step_induction (fun s rest => hsame (sameSignal_schedule s rest)) (fun i s t hs h => ?_)
    (fun s => hsame (sameSignal_raiseErr .illCmd s)) (fun a n s => hsame (sameSignal_hostRead a n s))
    (fun a n v s hs => ?_) (fun s _ => hnone ⟨rfl, rfl⟩) hs h
  · rcases exec_signal h with hsig | hn | rfl | rfl
    · exact hsame hsig hs
    · exact hnone hn
    · exact hfft hs
    · exact hpeaks hs
  · exact (hostWrite_signal a n v s).elim (fun hsig => hsame hsig hs) hnone

/-! ### The frequency vector -/

theorem fvecAt_congr {s t : State} (h : t.fvec = s.fvec) : t.fvecAt = s.fvecAt := by
  funext k
  rw [State.fvecAt, State.fvecAt, h]

/-- The transform's input depends on the buffer and on the two lengths alone (40_fft.md R135). -/
theorem fftInput_congr {s t : State} (hm : t.m = s.m) (hn : t.n = s.n) (hi : t.ibuf = s.ibuf) :
    fftInput t = fftInput s := by
  simp only [fftInput, State.ibufAt, hm, hn, hi]

theorem fvecCurrent_congr {s t : State} (hsig : SameSignal s t) (h : FvecCurrent s) : FvecCurrent t := by
  rw [FvecCurrent, fvecAt_congr hsig.fvec, fftInput_congr hsig.m hsig.n hsig.ibuf, hsig.n, hsig.fvecValid]
  exact h

/-- Settles O50: `FFT` stores the transform, `PEAKS` leaves all the transform depends on, and whatever else touches one of
these clears `FVEC_VALID`. -/
theorem stepKeepsFvecCurrent : Obligations.StepKeepsFvecCurrent := by
  intro s t
  refine step_keeps_of_signal fvecCurrent_congr (fun {s} hn hv => ?_) (fun {s} _ _ k hk => ?_) (fun {s} hs => hs)
  · rw [hn.1] at hv
    cases hv
  · rw [finish_n, fftEffect_n] at hk
    rw [fvecAt_fftEffect hk, fftInput_congr (t := finish (fftEffect s)) (s := s) rfl rfl rfl]
    simp [NUM, fftFree, hk]

/-! ### The peak list -/

theorem peakBins_congr {s t : State} (hf : t.fvec = s.fvec) (hn : t.n = s.n) : peakBins t = peakBins s := by
  have hmag : t.magAt = s.magAt := by
    funext k
    rw [State.magAt, State.magAt, fvecAt_congr hf]
  rw [peakBins, peakBins, hmag, hn]

theorem peakEntry_congr {s t : State} (hf : t.fvec = s.fvec) (hn : t.n = s.n) (hfs : t.fs = s.fs) :
    peakEntry t = peakEntry s := by
  funext i
  simp only [peakEntry, fvecAt_congr hf, hn, hfs]

theorem peaksCurrent_congr {s t : State} (hsig : SameSignal s t) (h : PeaksCurrent s) : PeaksCurrent t := by
  rw [PeaksCurrent, peakBins_congr hsig.fvec hsig.n, peakEntry_congr hsig.fvec hsig.n hsig.fs, hsig.npeaks,
    hsig.peaksValid]
  simp only [PeaksCurrent, peakAt_eq, hsig.peak] at h ⊢
  exact h

/-- The peaks are fewer than the bins. -/
theorem length_peakBins_le (s : State) : (peakBins s).length ≤ s.n.toNat - 2 := by
  simpa only [peakBins, List.length_range'] using
    List.length_filter_le (isPeak s.magAt) (List.range' 1 (s.n.toNat - 2))

/-- Their number fits the 32 bits of `NPEAKS`. -/
theorem toNat_npeaks_peaksEffect (s : State) : (peaksEffect s).npeaks.toNat = (peakBins s).length := by
  have h := length_peakBins_le s
  have hn := s.n.isLt
  rw [peaksEffect_npeaks, BitVec.toNat_ofNat, Nat.mod_eq_of_lt (by omega)]

/-- After `PEAKS` the region holds the list entry by entry. -/
theorem peakAt_peaksEffect {s : State} {p : Nat} (hp : p < (peakBins s).length) :
    (peaksEffect s).peakAt p = peakEntry s ((peakBins s).getD p 0) := by
  have h := putPeaks_entry (s.peak.restamp s.draw) RegionId.peak.base 0 p ((peakBins s).map (peakEntry s))
    (by simpa using hp)
  rw [Nat.zero_add] at h
  rw [peakAt_eq, peaksEffect_peak, h]
  simp [hp]

/-- Settles O51: `PEAKS` stores the list of the present `FVEC`, and whatever touches `FVEC` or the configuration clears
`PEAKS_VALID`. -/
theorem stepKeepsPeaksCurrent : Obligations.StepKeepsPeaksCurrent := by
  intro s t
  refine step_keeps_of_signal peaksCurrent_congr (fun {s} hn hv => ?_) (fun {s} _ hv => ?_) (fun {s} _ => ?_)
  · rw [hn.2] at hv
    cases hv
  · cases hv
  · have hcur : PeaksCurrent (peaksEffect s) := by
      intro _
      rw [peakBins_congr (peaksEffect_fvec s) (peaksEffect_n s),
        peakEntry_congr (peaksEffect_fvec s) (peaksEffect_n s) (peaksEffect_fs s)]
      exact ⟨toNat_npeaks_peaksEffect s, fun p hp => peakAt_peaksEffect hp⟩
    exact peaksCurrent_congr (sameSignal_finish _) hcur

end Sys2Proof.Proofs
end

section
/-! SUPPORT. What the detector finds and how a slot holds it, the number of peaks, and the numbers a plan latches
(42_slicer_mfm.md R177, R180; 10_state.md R59, R62; 44_peak_detector.md R227; 40_fft.md R132, R134). -/

namespace Sys2Proof.Proofs

open Sys2Proof.Machine Sys2Proof.Safety Sys2Proof.Laws

/-! ### The bits the detector finds -/

/-- A frame as far as it was found: at most 256 bits, the first of them a 1 (43_crc16_frame.md R200). -/
structure FrameOk (bits : List Bool) : Prop where
  length_le : bits.length ≤ Config.frameBits
  first : bits = [] ∨ ∃ rest, bits = true :: rest

theorem frameOk_nil : FrameOk [] := ⟨Nat.zero_le _, .inl rfl⟩

theorem frameOk_one : FrameOk [true] := ⟨by decide, .inr ⟨[], rfl⟩⟩

/-- What holds of the detector after any number of samples: once it is synced it has found a bit. -/
structure DetectorOk (d : Detector) : Prop where
  frame : FrameOk d.bits
  synced : d.synced = true → d.bits ≠ []

theorem detectorOk_start : DetectorOk Detector.start := ⟨frameOk_nil, fun h => by cases h⟩

/-- One more bit at the end of a frame that has begun and is not complete. -/
theorem frameOk_append {bits : List Bool} (h : FrameOk bits) (hne : bits ≠ []) (hlen : bits.length ≠ Config.frameBits)
    (b : Bool) : FrameOk (bits ++ [b]) := by
  obtain ⟨hle, hfirst⟩ := h
  obtain ⟨rest, rfl⟩ := hfirst.resolve_left hne
  refine ⟨?_, .inr ⟨rest ++ [b], rfl⟩⟩
  rw [List.length_append, List.length_singleton]
  omega

theorem detectorOk_step (spb : Nat) (d : Detector) (v : Slice) (h : DetectorOk d) : DetectorOk (d.step spb v) := by
  rcases detector_step_cases spb d v with ⟨-, he⟩ | ⟨hlen, ⟨-, he⟩ | ⟨-, -, he⟩ | ⟨-, -, -, he⟩ |
    ⟨k, before, -, -, hs, -, he⟩⟩ <;> rw [he]
  · exact h
  · exact ⟨h.frame, h.synced⟩
  · exact ⟨h.frame, h.synced⟩
  · exact ⟨frameOk_one, fun _ => List.cons_ne_nil _ _⟩
  · exact ⟨frameOk_append h.frame (h.synced hs) hlen _, fun _ => by simp⟩

/-- Whatever the magnitudes, the bits found are a frame as far as it was found. -/
theorem frameOk_mfmDecode (norm : List F64) (spb : Nat) : FrameOk (mfmDecode norm spb) := by
  rw [mfmDecode]
  split
  · exact frameOk_nil
  · exact (detector_induction spb (detectorOk_step spb) _ _ detectorOk_start).frame

/-! ### The frame in the slot registers -/

/-- `bits[64w + j]` is bit `63 - j` of `FRAMEw` (10_state.md R62). -/
theorem getLsbD_frameWord (bits : List Bool) (w : Nat) {j : Nat} (hj : j < 64) :
    (frameWord bits w).getLsbD (63 - j) = bits.getD (64 * w + j) false := by
  have h := testBit_field bits (64 * w) 64 j hj
  rw [frameWord, BitVec.getLsbD_ofNat, decide_eq_true (by omega), Bool.true_and]
  exact h

/-- The registers hold every bit of a frame of at most 256 bits, and zeros beyond it. -/
theorem frameBit_withFrame (x : Slot) {bits : List Bool} (h : bits.length ≤ Config.frameBits) (j : Nat) :
    (x.withFrame bits).frameBit j = bits.getD j false := by
  have hword : ∀ w, j / 64 = w → (frameWord bits w).getLsbD (63 - j % 64) = bits.getD j false := by
    rintro w rfl
    rw [getLsbD_frameWord bits _ (Nat.mod_lt _ (by decide)), Nat.div_add_mod]
  rw [Slot.frameBit]
  split
  case h_1 hw => exact hword 0 hw
  case h_2 hw => exact hword 1 hw
  case h_3 hw => exact hword 2 hw
  case h_4 hw => exact hword 3 hw
  case h_5 h0 h1 h2 h3 =>
    have hj : bits.length ≤ j := by
      rw [Config.frameBits] at h
      simp only [imp_false] at h0 h1 h2 h3
      omega
    rw [List.getD_eq_default _ _ hj]

/-- A complete frame reads back as it was stored. -/
theorem frameBits_withFrame (x : Slot) {bits : List Bool} (h : bits.length = Config.frameBits) :
    (x.withFrame bits).frameBits = bits := by
  refine List.ext_getElem (by simp [Slot.frameBits, h]) fun j _ hj => ?_
  simp [Slot.frameBits, frameBit_withFrame x h.le, hj]

theorem toNat_bitcnt_withFrame (x : Slot) {bits : List Bool} (h : bits.length ≤ Config.frameBits) :
    (x.withFrame bits).bitcnt.toNat = bits.length := by
  rw [Config.frameBits] at h
  simp only [Slot.withFrame, BitVec.toNat_ofNat]
  omega

/-! ### Slots -/

theorem slotOk_freed {planValid : Bool} {x : Slot} (h : SlotOk planValid x) (p : Bool) (d : Nat) :
    SlotOk p (x.freed d) := by
  obtain ⟨hmixer, hacc⟩ := h.regions
  rw [Slot.freed]
  split
  · exact slotOk_empty p rfl rfl
  · exact slotOk_empty p hmixer hacc

/-- A slot claimed for a peak has found no bit yet. -/
theorem slotOk_claimedSlot {planValid : Bool} {x : Slot} (h : SlotOk planValid x) (e : PeakEntry) (m : Nat) (dt : F64)
    (d : Nat) : SlotOk true (claimedSlot x e m dt d) := by
  obtain ⟨hmixer, hacc⟩ := h.regions
  have hempty := slotOk_empty true (memoryWf_putC64s (r := x.mixer.restamp d) 0 (mixerElements e.freq m dt) hmixer)
    (memoryWf_putC64s (r := x.acc.restamp d) 0 (List.replicate m C64.zero) hacc)
  exact {
    needsPlan := fun _ => rfl
    freeReadsZero := by intro h; cases h
    decodedComplete := hempty.decodedComplete
    bitcntBound := hempty.bitcntBound
    beyondCount := hempty.beyondCount
    firstBit := hempty.firstBit
    complete := by intro h; cases h
    regions := hempty.regions }

/-- That a slot carries what belongs to its frame is no matter of its samples. -/
theorem eq_withFields_of_samples {x : Slot} {bits : List Bool} (h : x = x.withFields bits) (acc : Region)
    (count : BitVec 32) (seen : BitVec 64) :
    { x with acc := acc, sampleCount := count, lastSeenUs := seen } =
      { x with acc := acc, sampleCount := count, lastSeenUs := seen }.withFields bits :=
  congrArg (fun y : Slot => { y with acc := acc, sampleCount := count, lastSeenUs := seen }) h

/-- `ACCUM` touches neither the frame nor what was made of it. -/
theorem slotOk_accumulatedSlot {planValid : Bool} {s : State} {k : Nat} (p : Nat) (h : SlotOk planValid (s.slot k))
    (hv : (s.slot k).valid = true) : SlotOk planValid (accumulatedSlot k p s) where
  needsPlan := h.needsPlan
  freeReadsZero hf := by
    have hv' : (accumulatedSlot k p s).valid = true := hv
    rw [hv'] at hf
    cases hf
  decodedComplete := h.decodedComplete
  bitcntBound := h.bitcntBound
  beyondCount := h.beyondCount
  firstBit := h.firstBit
  complete hc := by
    have hframe : (accumulatedSlot k p s).frameBits = (s.slot k).frameBits := rfl
    rw [hframe]
    exact eq_withFields_of_samples (h.complete hc) _ _ _
  regions := ⟨h.regions.1, memoryWf_putC64s 0 _ h.regions.2⟩

@[simp] theorem frameBit_decodedSlot (x : Slot) (bits : List Bool) (j : Nat) :
    (decodedSlot x bits).frameBit j = (x.withFrame bits).frameBit j := by
  rw [decodedSlot]
  split <;> rfl

@[simp] theorem bitcnt_decodedSlot (x : Slot) (bits : List Bool) :
    (decodedSlot x bits).bitcnt = (x.withFrame bits).bitcnt := by
  rw [decodedSlot]
  split <;> rfl

/-- A `DECODE` leaves validity, `SAMPLE_COUNT` and the regions of the slot as they are. -/
theorem decodedSlot_frame (x : Slot) (bits : List Bool) :
    (decodedSlot x bits).valid = x.valid ∧ (decodedSlot x bits).sampleCount = x.sampleCount ∧
      (decodedSlot x bits).mixer = x.mixer ∧ (decodedSlot x bits).acc = x.acc := by
  rw [decodedSlot]
  split <;> exact ⟨rfl, rfl, rfl, rfl⟩

/-- A count of 256 is that of a complete frame. -/
theorem bitcnt_decodedSlot_eq_iff (x : Slot) {bits : List Bool} (h : bits.length ≤ Config.frameBits) :
    (decodedSlot x bits).bitcnt = 256 ↔ bits.length = Config.frameBits := by
  rw [bitcnt_decodedSlot, ← BitVec.toNat_inj, toNat_bitcnt_withFrame x h]
  rfl

/-- Only a complete frame makes a slot decoded that was not. -/
theorem length_of_decoded_decodedSlot {x : Slot} {bits : List Bool} (hd : x.decoded = false)
    (h : (decodedSlot x bits).decoded = true) : bits.length = Config.frameBits := by
  by_contra hlen
  have hkeep : (x.withFrame bits).decoded = x.decoded := rfl
  rw [decodedSlot, if_neg hlen, hkeep, hd] at h
  cases h

/-- A complete frame comes with its fields, its CRC and its validity. -/
theorem decodedSlot_eq_withFields (x : Slot) {bits : List Bool} (h : bits.length = Config.frameBits) :
    decodedSlot x bits = (decodedSlot x bits).withFields (decodedSlot x bits).frameBits := by
  have hframe : ((x.withFrame bits).withFields bits).frameBits = bits := frameBits_withFrame x h
  rw [decodedSlot, if_pos h, hframe]
  rfl

/-- `DECODE` of a slot that is not decoded stores a frame and, when it is complete, what belongs to it. -/
theorem slotOk_decodedSlot {x : Slot} {bits : List Bool} (h : SlotOk true x) (hv : x.valid = true)
    (hd : x.decoded = false) (hb : FrameOk bits) : SlotOk true (decodedSlot x bits) := by
  obtain ⟨hvalid, -, hmixer, hacc⟩ := decodedSlot_frame x bits
  have hcount : (decodedSlot x bits).bitcnt.toNat = bits.length := by
    rw [bitcnt_decodedSlot, toNat_bitcnt_withFrame x hb.length_le]
  have hbit : ∀ j, (decodedSlot x bits).frameBit j = bits.getD j false := fun j => by
    rw [frameBit_decodedSlot, frameBit_withFrame x hb.length_le]
  have hfull := bitcnt_decodedSlot_eq_iff x hb.length_le
  exact {
    needsPlan := fun _ => rfl
    freeReadsZero := fun hf => by rw [hvalid, hv] at hf; cases hf
    decodedComplete := fun hdec => hfull.2 (length_of_decoded_decodedSlot hd hdec)
    bitcntBound := hcount.trans_le hb.length_le
    beyondCount := fun j hj => by rw [hbit, List.getD_eq_default _ _ (hcount ▸ hj)]
    firstBit := fun hne => by
      rw [hbit]
      rcases hb.first with rfl | ⟨rest, rfl⟩
      · exact absurd (BitVec.toNat_inj.1 hcount) hne
      · rfl
    complete := fun hc => decodedSlot_eq_withFields x (hfull.1 hc)
    regions := by rw [hmixer, hacc]; exact h.regions }

/-! ### The number of peaks -/

/-- Of two values at most one is greater than the other. -/
theorem fgt_asymm {a b : F64} (h : fgt a b = true) : fgt b a = false := by
  simp only [fgt, Bool.and_eq_true, decide_eq_true_eq] at h
  rw [fgt, decide_eq_false (by omega), Bool.and_false]

/-- Two adjacent bins are never both peaks (44_peak_detector.md R227). -/
theorem not_isPeak_adjacent (mag : Nat → F64) (i : Nat) : ¬(isPeak mag i = true ∧ isPeak mag (i + 1) = true) := by
  simp only [isPeak, Bool.and_eq_true, Nat.add_sub_cancel]
  rintro ⟨⟨⟨-, hright⟩, -⟩, ⟨⟨hleft, -⟩, -⟩⟩
  rw [fgt_asymm hright] at hleft
  cases hleft

/-- Of `k` numbers in a row, at most every second one has a property that no two adjacent numbers share. -/
theorem length_filter_range'_le {p : Nat → Bool} (hp : ∀ i, ¬(p i = true ∧ p (i + 1) = true)) (a k : Nat) :
    ((List.range' a k).filter p).length ≤ (k + 1) / 2 := by
  induction k using Nat.twoStepInduction generalizing a with
  | zero => simp
  | one => exact List.length_filter_le p [a]
  | more k ih _ =>
    have hrest := ih (a + 1 + 1)
    have hadj := hp a
    rw [List.range'_succ, List.range'_succ, List.filter_cons, List.filter_cons]
    by_cases ha : p a = true
    · have hb : ¬p (a + 1) = true := fun hb => hadj ⟨ha, hb⟩
      rw [if_pos ha, if_neg hb, List.length_cons]
      omega
    · rw [if_neg ha]
      by_cases hb : p (a + 1) = true
      · rw [if_pos hb, List.length_cons]
        omega
      · rw [if_neg hb]
        omega

theorem length_peakBins_le_half (s : State) : (peakBins s).length ≤ (s.n.toNat - 2 + 1) / 2 :=
  length_filter_range'_le (not_isPeak_adjacent s.magAt) 1 _

/-! ### The numbers of a plan -/

/-- What passes the check of the configuration (40_fft.md R132). -/
theorem planConfigBad_eq_false_iff (fs t : Nat) :
    planConfigBad fs t = false ↔ fs ≠ 0 ∧ 2 ≤ planSpb fs ∧ 2 ≤ planM fs t := by
  simp only [planConfigBad, Bool.or_eq_false_iff, decide_eq_false_iff_not, not_lt, and_assoc, ne_eq]

theorem nextPow2_of_two_le {m : Nat} (h : 2 ≤ m) : nextPow2 m = 2 * 2 ^ (m - 1).log2 := by
  rw [nextPow2, if_neg (by omega), pow_succ, Nat.mul_comm]

theorem le_nextPow2 (m : Nat) : m ≤ nextPow2 m := by
  rw [nextPow2]
  split
  · assumption
  · have h : m - 1 < 2 ^ ((m - 1).log2 + 1) := Nat.lt_log2_self
    omega

end Sys2Proof.Proofs
end

section
/-! SUPPORT. What every step keeps: the invariant, operation by operation (10_state.md R46, R50 to R70). -/

namespace Sys2Proof.Proofs

open Sys2Proof.Machine Sys2Proof.Safety Sys2Proof.Laws

/-! ### Steps that leave the signal path -/

/-- What `Inv` says of the error flag and its code (60_exceptions.md R262). -/
def ErrorsOk (st : Status) : Prop := (st.err = false ↔ st.errcode = 0) ∧ st.errcode.toNat ≤ 0x0B

/-- What `Inv` says while a command is pending (10_state.md R34). -/
def PendingOk (st : Status) : Prop := st.busy = true → st.done = false ∧ st.result = false

/-- What `Inv` says of the slots. -/
def SlotsOk (planValid : Bool) (slots : List Slot) : Prop := ∀ x ∈ slots, SlotOk planValid x

theorem planned_congr {s t : State} (hsig : SameSignal s t) (h : Planned s) : Planned t := by
  simpa only [Planned, State.nMax, hsig.log2NMax, hsig.m, hsig.n, hsig.spb, hsig.dt, hsig.fs] using h

/-- A step that leaves the signal path keeps the invariant when it keeps what the invariant says of errors, of a pending
command and of the slots. -/
theorem inv_of_sameSignal {s t : State} (h : Inv s) (hsig : SameSignal s t) (hlen : t.nslots = s.nslots)
    (herr : ErrorsOk t.status) (hpend : PendingOk t.status) (hslots : SlotsOk s.status.planValid t.slots) : Inv t where
  parameters := by rw [hsig.log2NMax, hlen]; exact h.parameters
  regions := by rw [hsig.ibuf, hsig.fvec, hsig.peak]; exact h.regions
  validChain := by rw [hsig.peaksValid, hsig.fvecValid, hsig.planValid]; exact h.validChain
  planned hp := planned_congr hsig (h.planned (hsig.planValid ▸ hp))
  unplanned := by rw [hsig.planValid, hsig.m, hsig.n, hsig.spb, hsig.dt, hsig.fs]; exact h.unplanned
  peakCount := by rw [hsig.peaksValid, hsig.npeaks, hsig.n]; exact h.peakCount
  errors := herr
  pending := hpend
  slots := by rw [hsig.planValid]; exact hslots

/-- Completing a command leaves none pending. -/
theorem inv_finish {s : State} (h : Inv s) : Inv (finish s) :=
  inv_of_sameSignal h (sameSignal_finish s) rfl h.errors (fun hb => by cases hb) h.slots

theorem code_ne_zero (c : ErrCode) : c.code ≠ 0 := by cases c <;> decide

theorem code_le (c : ErrCode) : c.code.toNat ≤ 0x0B := by cases c <;> decide

theorem errorsOk_raiseErr (c : ErrCode) {s : State} (h : ErrorsOk s.status) : ErrorsOk (raiseErr c s).status := by
  obtain ⟨hiff, hle⟩ := h
  rw [ErrorsOk, raiseErr_err, raiseErr_errcode]
  cases herr : s.status.err with
  | false => simpa using ⟨code_ne_zero c, code_le c⟩
  | true => simpa [herr] using And.intro hiff hle

theorem inv_raiseErr (c : ErrCode) {s : State} (h : Inv s) : Inv (raiseErr c s) :=
  inv_of_sameSignal h (sameSignal_raiseErr c s) (by simp [State.nslots]) (errorsOk_raiseErr c h.errors)
    (fun hb => by simp at hb) (by rw [raiseErr_slots]; exact h.slots)

theorem inv_respond (ok : Bool) (d : Option Word) {s : State} (h : Inv s) : Inv (respond ok d s) :=
  inv_of_sameSignal h (sameSignal_respond ok d s) rfl h.errors h.pending h.slots

theorem inv_setOvr {s : State} (h : Inv s) : Inv (setOvr s) :=
  inv_of_sameSignal h (sameSignal_setOvr s) rfl h.errors h.pending h.slots

theorem inv_acceptCommand (c : BitVec 32) {s : State} (h : Inv s) : Inv (acceptCommand c s) :=
  inv_of_sameSignal h (sameSignal_acceptCommand c s) rfl h.errors (fun _ => ⟨rfl, rfl⟩) h.slots

/-- The host clears the error with its code, and at most `DONE` of what concerns a pending command. -/
theorem inv_writeStatus (v : Word) {s : State} (h : Inv s) : Inv (writeStatus v s) := by
  refine inv_of_sameSignal h (sameSignal_writeStatus v s) (by simp [State.nslots]) ?_ (fun hb => ?_)
    (by rw [writeStatus_slots]; exact h.slots)
  · rw [ErrorsOk, writeStatus_err, writeStatus_errcode]
    split
    · decide
    · exact h.errors
  · rw [writeStatus_busy] at hb
    obtain ⟨hdone, hresult⟩ := h.pending hb
    simp [hdone, hresult]

/-! ### Steps that write a slot -/

/-- Replacing one slot by one that is as it should be. -/
theorem slotsOk_set {planValid : Bool} {slots : List Slot} {y : Slot} (h : SlotsOk planValid slots)
    (hy : SlotOk planValid y) (k : Nat) : SlotsOk planValid (slots.set k y) := by
  intro x hx
  rcases List.mem_or_eq_of_mem_set hx with hx | rfl
  · exact h x hx
  · exact hy

theorem slotOk_slot {s : State} (h : Inv s) {k : Nat} (hk : k < s.nslots) :
    SlotOk s.status.planValid (s.slot k) := h.slots _ (slot_mem s k hk)

theorem inv_ctxinit {s : State} (h : Inv s) {k : Nat} (hk : k < s.nslots) (p : Nat)
    (hp : s.status.planValid = true) : Inv (finish (ctxinitEffect k p s)) := by
  refine inv_of_sameSignal h (sameSignal_ctxinit k p s) (by simp [State.nslots]) h.errors (fun hb => by cases hb)
    (slotsOk_set h.slots ?_ k)
  rw [hp]
  exact slotOk_claimedSlot (slotOk_slot h hk) _ _ _ _

theorem inv_accum {s : State} (h : Inv s) {k : Nat} (hk : k < s.nslots) (p : Nat) (hv : (s.slot k).valid = true) :
    Inv (finish (accumEffect k p s)) := by
  refine inv_of_sameSignal h (sameSignal_accum k p s) ?_ (by simpa [ErrorsOk] using h.errors)
    (fun hb => by simp at hb) ?_
  · rw [State.nslots, finish_slots, accumEffect_slots]
    split <;> simp [State.nslots]
  · rw [finish_slots, accumEffect_slots]
    split
    · exact h.slots
    · exact slotsOk_set h.slots (slotOk_accumulatedSlot p (slotOk_slot h hk) hv) k

theorem inv_decode {s : State} (h : Inv s) {k : Nat} (hk : k < s.nslots) (hp : s.status.planValid = true)
    (hv : (s.slot k).valid = true) : Inv (finish (decodeEffect k s)) := by
  refine inv_of_sameSignal h (sameSignal_decode k s) ?_ (by simpa [ErrorsOk] using h.errors)
    (fun hb => by simp at hb) ?_
  · rw [State.nslots, finish_slots, decodeEffect_slots]
    split <;> simp [State.nslots]
  · rw [finish_slots, decodeEffect_slots]
    split
    · exact h.slots
    · rename_i hd
      have hslot := slotOk_slot h hk
      rw [hp] at hslot
      refine slotsOk_set h.slots ?_ k
      rw [hp]
      exact slotOk_decodedSlot hslot hv (by simpa using hd) (frameOk_mfmDecode _ _)

theorem inv_ctxfree {s : State} (h : Inv s) {k : Nat} (hk : k < s.nslots) : Inv (finish (freeSlot k s)) :=
  inv_of_sameSignal h (sameSignal_ctxfree k s) (by simp [State.nslots]) h.errors (fun hb => by cases hb)
    (slotsOk_set h.slots (slotOk_freed (slotOk_slot h hk) _ _) k)

/-! ### Steps that change the signal path -/

theorem validChain_of_nothingDerived {s : State} (h : NothingDerived s) :
    (s.status.peaksValid = true → s.status.fvecValid = true) ∧
      (s.status.fvecValid = true → s.status.planValid = true) := by
  obtain ⟨hf, hp⟩ := h
  simp [hf, hp]

/-- `FFT` runs with a valid plan and empties the peak list. -/
theorem inv_fft {s : State} (h : Inv s) (hp : s.status.planValid = true) : Inv (fftEffect s) := by
  obtain ⟨hibuf, hfvec, hpeak⟩ := h.regions
  exact { h with
    regions := ⟨hibuf, memoryWf_putC64s (r := s.fvec.restamp s.draw) 0 _ hfvec, hpeak⟩
    validChain := ⟨(fun hv => by cases hv), fun _ => hp⟩
    peakCount := ⟨fun _ => rfl, Nat.zero_le _⟩ }

/-- A plan's `N` is even, so that half the inner bins are `N/2 - 1`. -/
theorem length_peakBins_le_of_planned {s : State} (h : Planned s) : (peakBins s).length ≤ s.n.toNat / 2 - 1 := by
  obtain ⟨t, hbad, -, hm, hn, -, -⟩ := h
  obtain ⟨-, -, hm2⟩ := (planConfigBad_eq_false_iff _ _).1 hbad
  rw [← hm] at hm2
  rw [nextPow2_of_two_le hm2] at hn
  have hlen := length_peakBins_le_half s
  have hpos : 0 < 2 ^ (s.m.toNat - 1).log2 := by positivity
  omega

/-- `PEAKS` runs with a valid plan and vector and writes at most `N/2 - 1` peaks. -/
theorem inv_peaks {s : State} (h : Inv s) (hp : s.status.planValid = true) (hf : s.status.fvecValid = true) :
    Inv (peaksEffect s) := by
  obtain ⟨hibuf, hfvec, hpeak⟩ := h.regions
  exact { h with
    regions := ⟨hibuf, hfvec, memoryWf_putPeaks (r := s.peak.restamp s.draw) 0 _ hpeak⟩
    validChain := ⟨fun _ => hf, fun _ => hp⟩
    peakCount := by
      rw [toNat_npeaks_peaksEffect]
      exact ⟨(fun hv => by cases hv), length_peakBins_le_of_planned (h.planned hp)⟩ }

theorem slotsOk_map_freed {planValid : Bool} {slots : List Slot} (h : SlotsOk planValid slots) (p : Bool) (d : Nat) :
    SlotsOk p (slots.map fun x => x.freed d) := by
  intro x hx
  obtain ⟨y, hy, rfl⟩ := List.mem_map.1 hx
  exact slotOk_freed (h y hy) p d

/-- The numbers of a successful `PLAN` fit their registers, so they are what is latched. -/
theorem planned_planLatch {s : State} (h : Inv s)
    (hbad : planConfigBad s.sampleRate.toNat s.intervalUs.toNat = false)
    (hlong : planTooLong s.sampleRate.toNat s.intervalUs.toNat s.nMax = false) : Planned (planLatch s) := by
  have hlong' : nextPow2 (planM s.sampleRate.toNat s.intervalUs.toNat) ≤ s.nMax := by
    simpa [planTooLong] using hlong
  have hmax : s.nMax ≤ 2 ^ 17 := Nat.pow_le_pow_right (by decide) h.parameters.2.1
  have hle := le_nextPow2 (planM s.sampleRate.toNat s.intervalUs.toNat)
  have hm : (planLatch s).m.toNat = planM s.sampleRate.toNat s.intervalUs.toNat := by
    rw [planLatch_m, BitVec.toNat_ofNat, Nat.mod_eq_of_lt (by omega)]
  refine ⟨s.intervalUs, hbad, hlong, hm, ?_, ?_, ?_⟩
  · rw [hm, planLatch_n, BitVec.toNat_ofNat, Nat.mod_eq_of_lt (by omega)]
  · have hspb : planSpb s.sampleRate.toNat ≤ s.sampleRate.toNat := Nat.div_le_self _ _
    have hrate := s.sampleRate.isLt
    rw [planLatch_spb, planLatch_fs, BitVec.toNat_ofNat, Nat.mod_eq_of_lt (by omega)]
  · rw [hm, planLatch_dt]

theorem inv_planLatch {s : State} (h : Inv s)
    (hbad : planConfigBad s.sampleRate.toNat s.intervalUs.toNat = false)
    (hlong : planTooLong s.sampleRate.toNat s.intervalUs.toNat s.nMax = false) : Inv (planLatch s) where
  parameters := by simpa [State.nslots] using h.parameters
  regions := h.regions
  validChain := validChain_of_nothingDerived ⟨rfl, rfl⟩
  planned _ := planned_planLatch h hbad hlong
  unplanned hp := by cases hp
  peakCount := ⟨fun _ => rfl, Nat.zero_le _⟩
  errors := h.errors
  pending := h.pending
  slots := slotsOk_map_freed h.slots true s.draw

theorem inv_planUnlatch {s : State} (h : Inv s) : Inv (planUnlatch s) where
  parameters := by simpa [State.nslots] using h.parameters
  regions := h.regions
  validChain := validChain_of_nothingDerived ⟨rfl, rfl⟩
  planned hp := by cases hp
  unplanned _ := ⟨rfl, rfl, rfl, rfl, rfl⟩
  peakCount := ⟨fun _ => rfl, Nat.zero_le _⟩
  errors := h.errors
  pending := h.pending
  slots := slotsOk_map_freed h.slots false s.draw

theorem inv_writeIbuf (off : Nat) (v : Word) {s : State} (h : Inv s) : Inv (writeIbuf off v s) := by
  obtain ⟨hibuf, hfvec, hpeak⟩ := h.regions
  exact { h with
    regions := ⟨memoryWf_put off v hibuf, hfvec, hpeak⟩
    validChain := validChain_of_nothingDerived ⟨rfl, rfl⟩
    peakCount := ⟨fun _ => rfl, Nat.zero_le _⟩ }

/-- Reset keeps the build parameters and clears everything else `Inv` speaks of. -/
theorem inv_resetEffect {s : State} (h : Inv s) : Inv (resetEffect s) where
  parameters := by simpa [State.nslots] using h.parameters
  regions := ⟨rfl, rfl, rfl⟩
  validChain := validChain_of_nothingDerived ⟨rfl, rfl⟩
  planned hp := by cases hp
  unplanned _ := ⟨rfl, rfl, rfl, rfl, rfl⟩
  peakCount := ⟨fun _ => rfl, Nat.zero_le _⟩
  errors := ⟨iff_of_true rfl rfl, Nat.zero_le _⟩
  pending hb := by cases hb
  slots x hx := by
    obtain ⟨_, -, rfl⟩ := List.mem_map.1 hx
    exact slotOk_empty _ rfl rfl

/-! ### One step -/

theorem inv_exec {i : Instr} {s t : State} (hs : Inv s) (h : exec i s = .next t) : Inv t := by
  rcases exec_cases i s with ⟨c, -, he⟩ | ⟨c, he⟩ | ⟨-, he⟩ | ⟨-, hbad, hlong, he⟩ | ⟨-, hp, he⟩ | ⟨-, hp, hf, he⟩ |
    ⟨k, p, -, hp, -, hk, -, -, he⟩ | ⟨k, p, -, -, -, hk, -, hv, -, he⟩ | ⟨k, -, hp, hk, hv, he⟩ | ⟨k, -, hk, he⟩ <;>
    rw [he] at h <;> cases h
  · exact inv_raiseErr c (inv_planUnlatch hs)
  · exact inv_raiseErr c hs
  · exact inv_finish hs
  · exact inv_finish (inv_planLatch hs hbad hlong)
  · exact inv_finish (inv_fft hs hp)
  · exact inv_finish (inv_peaks hs hp hf)
  · exact inv_ctxinit hs hk p hp
  · exact inv_accum hs hk p hv
  · exact inv_decode hs hk hp hv
  · exact inv_ctxfree hs hk

theorem inv_hostRead (a : BitVec 32) (n : Nat) {s : State} (hs : Inv s) : Inv (hostRead a n s) := by
  rcases hostRead_cases a n s with ⟨-, h⟩ | ⟨_, _, -, -, h⟩ | ⟨v, h⟩ <;> rw [h]
  · exact { hs with }
  · exact { hs with }
  · exact inv_respond _ _ hs

theorem inv_writeLocation (loc : Location) (v : Word) {s : State} (hs : Inv s) : Inv (writeLocation loc v s) := by
  rcases writeLocation_cases loc v s with h | ⟨-, h⟩ | ⟨-, h⟩ | ⟨-, h⟩ | ⟨off, -, h⟩ | ⟨_, _, _, _, h⟩ <;> rw [h]
  · exact hs
  · exact inv_acceptCommand _ hs
  · exact inv_writeStatus v hs
  · exact inv_resetEffect hs
  · exact inv_writeIbuf off v hs
  · exact { hs with }

theorem inv_hostWrite (a : BitVec 32) (n : Nat) (v : Word) {s : State} (hs : Inv s) : Inv (hostWrite a n v s) := by
  rcases hostWrite_cases a n v s with ⟨-, h⟩ | ⟨_, -, -, -, h⟩ | ⟨loc, -, -, h⟩ <;> rw [h]
  · exact inv_respond _ _ hs
  · exact inv_setOvr (inv_respond _ _ hs)
  · exact inv_respond _ _ (inv_writeLocation loc v hs)

/-- Settles O48, operation by operation. -/
theorem stepKeepsInvariant : Obligations.StepKeepsInvariant := fun _ _ =>
  step_induction (fun _ _ hs => { hs with }) (fun _ _ _ => inv_exec) (fun _ => inv_raiseErr .illCmd)
    (fun a n _ => inv_hostRead a n) (fun a n v _ => inv_hostWrite a n v) (fun _ => inv_resetEffect)

end Sys2Proof.Proofs
end

section
/-! SUPPORT. The hardwired registers, the slots over one command, the control registers at the host port, and the state
after reset (10_state.md R34 to R52, R70, R71; 30_encoding.md R114). -/

namespace Sys2Proof.Proofs

open Sys2Proof.Machine Sys2Proof.Laws

/-! ### The build parameters -/

/-- The two states have the same build parameters. -/
def SameBuild (s t : State) : Prop := t.nslots = s.nslots ∧ t.log2NMax = s.log2NMax

/-- `CAPS` depends on the build parameters alone. -/
theorem caps_congr {s t : State} (h : SameBuild s t) : t.caps = s.caps := by
  rw [State.caps, State.caps, h.1, h.2]

theorem sameBuild_planFail (c : ErrCode) (s : State) : SameBuild s (planFail c s) := by
  simp [SameBuild, State.nslots, planFail]

theorem sameBuild_exec {i : Instr} {s t : State} (h : exec i s = .next t) : SameBuild s t := by
  rcases exec_cases i s with ⟨c, -, he⟩ | ⟨c, he⟩ | ⟨-, he⟩ | ⟨-, -, -, he⟩ | ⟨-, -, he⟩ | ⟨-, -, -, he⟩ |
    ⟨k, p, -, -, -, -, -, -, he⟩ | ⟨k, p, -, -, -, -, -, -, -, he⟩ | ⟨k, -, -, -, -, he⟩ | ⟨k, -, -, he⟩ <;>
    rw [he] at h <;> cases h
  · exact sameBuild_planFail c s
  · simp [SameBuild, State.nslots]
  · exact ⟨rfl, rfl⟩
  · simp [SameBuild, State.nslots]
  · exact ⟨rfl, rfl⟩
  · exact ⟨rfl, rfl⟩
  · simp [SameBuild, State.nslots]
  · refine ⟨?_, by simp⟩
    rw [State.nslots, finish_slots, accumEffect_slots]
    split <;> simp [State.nslots]
  · refine ⟨?_, by simp⟩
    rw [State.nslots, finish_slots, decodeEffect_slots]
    split <;> simp [State.nslots]
  · simp [SameBuild, State.nslots]

theorem sameBuild_hostRead (a : BitVec 32) (n : Nat) (s : State) : SameBuild s (hostRead a n s) := by
  rcases hostRead_cases a n s with ⟨-, h⟩ | ⟨_, _, -, -, h⟩ | ⟨v, h⟩ <;> rw [h] <;> exact ⟨rfl, rfl⟩

theorem sameBuild_resetEffect (s : State) : SameBuild s (resetEffect s) := by simp [SameBuild, State.nslots]

theorem sameBuild_writeLocation (loc : Location) (v : Word) (s : State) : SameBuild s (writeLocation loc v s) := by
  rcases writeLocation_cases loc v s with h | ⟨-, h⟩ | ⟨-, h⟩ | ⟨-, h⟩ | ⟨off, -, h⟩ | ⟨_, _, _, _, h⟩ <;> rw [h]
  · exact ⟨rfl, rfl⟩
  · exact ⟨rfl, rfl⟩
  · simp [SameBuild, State.nslots]
  · exact sameBuild_resetEffect s
  · exact ⟨rfl, rfl⟩
  · exact ⟨rfl, rfl⟩

theorem sameBuild_hostWrite (a : BitVec 32) (n : Nat) (v : Word) (s : State) : SameBuild s (hostWrite a n v s) := by
  rcases hostWrite_cases a n v s with ⟨-, h⟩ | ⟨_, -, -, -, h⟩ | ⟨loc, -, -, h⟩ <;> rw [h]
  · exact ⟨rfl, rfl⟩
  · exact ⟨rfl, rfl⟩
  · exact sameBuild_writeLocation loc v s

theorem sameBuild_trans {s t u : State} (h : SameBuild s t) (h' : SameBuild t u) : SameBuild s u :=
  ⟨h'.1.trans h.1, h'.2.trans h.2⟩

theorem sameBuild_step {s t : State} (h : step s = .next t) : SameBuild s t :=
  step_induction (P := SameBuild s) (fun _ _ hb => hb) (fun _ _ _ hb h => sameBuild_trans hb (sameBuild_exec h))
    (fun _ hb => sameBuild_trans hb (by simp [SameBuild, State.nslots]))
    (fun a n r hb => sameBuild_trans hb (sameBuild_hostRead a n r))
    (fun a n v r hb => sameBuild_trans hb (sameBuild_hostWrite a n v r))
    (fun r hb => sameBuild_trans hb (sameBuild_resetEffect r)) ⟨rfl, rfl⟩ h

/-- `CAPS` as a number (10_state.md R43). -/
theorem toNat_caps {s : State} (hl : s.log2NMax < 2 ^ 8) (hn : s.nslots < 2 ^ 9) :
    s.caps.toNat = s.nslots * 2 ^ 8 + s.log2NMax := by
  simp only [State.caps, BitVec.toNat_append, BitVec.toNat_ofNat, Nat.zero_mod, Nat.zero_shiftLeft, Nat.zero_or,
    Nat.mod_eq_of_lt hl, Nat.mod_eq_of_lt hn]
  rw [← Nat.shiftLeft_add_eq_or_of_lt hl, Nat.shiftLeft_eq]

/-- Settles O47: `PEAK_FLOOR` is a constant, and `CAPS` is made of the build parameters, which no step touches. -/
theorem hardwiredRegistersNeverChange : Obligations.HardwiredRegistersNeverChange := by
  refine ⟨fun s => toNat_caps, fun s t h => ?_⟩
  have hb := sameBuild_step h
  exact ⟨rfl, caps_congr hb, hb⟩

/-! ### A valid slot over one command -/

/-- What a command may do to a slot that stays valid: count up, and nothing once it is decoded (10_state.md R70). -/
def GrowsOrFrozen (x y : Slot) : Prop :=
  x.sampleCount.toNat ≤ y.sampleCount.toNat ∧ (x.decoded = true → y = x)

theorem growsOrFrozen_refl (x : Slot) : GrowsOrFrozen x x := ⟨le_rfl, fun _ => rfl⟩

/-- A saturating count does not fall. -/
theorem le_satIncr (n : BitVec 32) : n.toNat ≤ (satIncr n).toNat := by
  have h := n.isLt
  rw [satIncr, BitVec.toNat_ofNat, Nat.mod_eq_of_lt (by omega)]
  omega

theorem growsOrFrozen_accum {s : State} {k : Nat} (p : Nat) (hd : (s.slot k).decoded = false) :
    GrowsOrFrozen (s.slot k) (accumulatedSlot k p s) :=
  ⟨le_satIncr _, fun h => by rw [hd] at h; cases h⟩

theorem growsOrFrozen_decoded {x : Slot} (bits : List Bool) (hd : x.decoded = false) :
    GrowsOrFrozen x (decodedSlot x bits) := by
  obtain ⟨-, hcount, -, -⟩ := decodedSlot_frame x bits
  exact ⟨by rw [hcount], fun h => by rw [hd] at h; cases h⟩

/-- Writing a slot leaves every other slot. -/
theorem growsOrFrozen_setSlot {s : State} {j k : Nat} {y : Slot} (hj : j < s.nslots)
    (h : k = j → GrowsOrFrozen (s.slot j) y) : GrowsOrFrozen (s.slot k) ((s.setSlot j y).slot k) := by
  by_cases hk : k = j
  · rw [hk, slot_setSlot_same s j y hj]
    exact h hk
  · rw [slot_setSlot_other s j k y hk]
    exact growsOrFrozen_refl _

/-- Where every slot is freed none is valid. -/
theorem slot_map_freed_valid {s t : State} (h : t.slots = s.slots.map fun x => x.freed s.draw) {k : Nat}
    (hk : k < s.nslots) : (t.slot k).valid = false := by
  rw [slot_congr (s := freeAllSlots s) (by rw [h, freeAllSlots_slots]), slot_freeAllSlots s k hk, freed_valid]

/-- Settles O54: `PLAN`, `CTXINIT` and `CTXFREE` write no slot that is valid before and after, `ACCUM` and `DECODE` none
that is decoded. -/
theorem countsGrowAndFreeze : Obligations.CountsGrowAndFreeze := by
  intro i s t k h hk hv hv'
  show GrowsOrFrozen (s.slot k) (t.slot k)
  rcases exec_cases i s with ⟨c, -, he⟩ | ⟨c, he⟩ | ⟨-, he⟩ | ⟨-, -, -, he⟩ | ⟨-, -, he⟩ | ⟨-, -, -, he⟩ |
    ⟨j, p, -, -, -, hj, -, hfree, he⟩ | ⟨j, p, -, -, -, hj, -, -, -, he⟩ | ⟨j, -, -, hj, -, he⟩ | ⟨j, -, hj, he⟩ <;>
    rw [he] at h <;> cases h
  · rw [slot_map_freed_valid (by simp [planFail]) hk] at hv'
    cases hv'
  · rw [slot_congr (raiseErr_slots c s)]
    exact growsOrFrozen_refl _
  · exact growsOrFrozen_refl _
  · rw [slot_map_freed_valid (by simp) hk] at hv'
    cases hv'
  · exact growsOrFrozen_refl _
  · exact growsOrFrozen_refl _
  · refine growsOrFrozen_setSlot hj fun hkj => ?_
    rw [hkj, hfree] at hv
    cases hv
  · rw [slot_congr (finish_slots _), accumEffect]
    split
    · exact growsOrFrozen_refl _
    · exact growsOrFrozen_setSlot hj fun _ => growsOrFrozen_accum p (by simp_all)
  · rw [slot_congr (finish_slots _), decodeEffect]
    split
    · exact growsOrFrozen_refl _
    · exact growsOrFrozen_setSlot hj fun _ => growsOrFrozen_decoded _ (by simp_all)
  · refine growsOrFrozen_setSlot hj fun hkj => ?_
    subst hkj
    rw [slot_congr (finish_slots _), slot_freeSlot_same s k hj, freed_valid] at hv'
    cases hv'

/-! ### A placed command -/

theorem fields_eq {c : BitVec 32} {op s p : Nat} (h : (opField c, slotField c, peakField c) = (op, s, p)) :
    opField c = op ∧ slotField c = s ∧ peakField c = p := by
  simpa only [Prod.mk.injEq] using h

/-- Decoding an encoded well-formed command gives it back: the fields are those of its row (30_encoding.md R113). -/
theorem decode_encode {i : Instr} (h : i.WellFormed) : decode (encode i) = .ok i := by
  cases i with
  | nop => rfl
  | plan => rfl
  | fft => rfl
  | peaks => rfl
  | ctxinit s p =>
    obtain ⟨ho, hs, hp⟩ := fields_eq (HasFields.ctxinit s p h)
    simp [decode, formatSP, ho, hs, hp]
  | accum s p =>
    obtain ⟨ho, hs, hp⟩ := fields_eq (HasFields.accum s p h)
    simp [decode, formatSP, ho, hs, hp]
  | decode s =>
    obtain ⟨ho, hs, hp⟩ := fields_eq (HasFields.decode s h)
    simp [decode, formatS, ho, hs, hp]
  | ctxfree s =>
    obtain ⟨ho, hs, hp⟩ := fields_eq (HasFields.ctxfree s h)
    simp [decode, formatS, ho, hs, hp]

/-- The engine completes a pending command that decodes by running it. -/
theorem engineTurn_of_decode {s : State} {i : Instr} (hb : s.status.busy = true) (hd : decode s.cmd = .ok i) :
    engineTurn s = exec i s := by
  rw [engineTurn, if_pos hb, completePending, hd]

/-- A command word placed is the pending command when the engine moves next. -/
theorem step_withFetchWord (s : State) (c : BitVec 32) :
    step (s.withFetchWord 32 c.toNat) = engineTurn (acceptCommand c s) := by
  rw [State.withFetchWord, Nat.mod_eq_of_lt c.isLt, BitVec.ofNat_toNat, BitVec.setWidth_eq]
  rfl

/-- Settles O6: the placed word is the pending one, and it decodes to the command. -/
theorem placedCommandRunsNext : Obligations.PlacedCommandRunsNext := by
  intro s i h
  have hrun : engineTurn (acceptCommand (encode i) s) = exec i (acceptCommand (encode i) s) :=
    engineTurn_of_decode rfl (decode_encode h)
  rw [step_withFetchWord, hrun, acceptCommand]

/-! ### The control registers at the host port -/

/-- A write of a location that is not dropped. -/
theorem hostWrite_of_locate {s : State} {addr : BitVec 32} {loc : Location} (v : Word)
    (h : locate s addr 8 = some loc) (hb : s.status.busy = false ∨ writableWhileBusy loc = true) :
    hostWrite addr 8 v s = respond true none (writeLocation loc v s) := by
  have hpass : ¬(s.status.busy && !writableWhileBusy loc) = true := by
    rcases hb with hb | hb <;> simp [hb]
  rw [hostWrite, h]
  exact if_neg hpass

/-- A read of a global register answers its value. -/
theorem hostRead_global {s : State} {addr : BitVec 32} {r : GlobalReg} (h : locate s addr 8 = some (.global r)) :
    hostRead addr 8 s = respond true (some (readGlobal s r)) s := by
  rw [hostRead, h]

/-- The global registers whose addresses are written out in the statements below. -/
theorem locate_control (s : State) :
    locate s 0x00000000 8 = some (.global .cmd) ∧ locate s 0x00000008 8 = some (.global .status) ∧
    locate s 0x00000010 8 = some (.global .ie) ∧ locate s 0x00000020 8 = some (.global .sampleRate) ∧
    locate s 0x00000028 8 = some (.global .intervalUs) ∧ locate s 0x00000030 8 = some (.global .timeUs) :=
  ⟨rfl, rfl, rfl, rfl, rfl, rfl⟩

/-- A register that an idle host wrote reads as the state after the write holds it. -/
theorem hostRead_hostWrite {s : State} {addr : BitVec 32} {r : GlobalReg} (v : Word) (hb : s.status.busy = false)
    (h : ∀ s, locate s addr 8 = some (.global r)) :
    (hostRead addr 8 (hostWrite addr 8 v s)).resp =
      some ⟨true, some (readGlobal (respond true none (writeGlobal r v s)) r)⟩ := by
  rw [hostRead_global (h _), hostWrite_of_locate v (h s) (.inl hb)]
  rfl

/-- Settles O41: idle, the write is accepted; busy, `CMD` is not among the registers that can be written. -/
theorem acceptedCommandBecomesPending : Obligations.AcceptedCommandBecomesPending := by
  intro s v
  obtain ⟨hcmd, -⟩ := locate_control s
  refine ⟨fun hb => ?_, fun hb => ?_⟩
  · rw [hostWrite_of_locate v hcmd (.inl hb)]
    exact ⟨rfl, rfl⟩
  · rw [hostWrite, hcmd]
    exact if_pos (by rw [hb]; rfl)

/-- The fields of `STATUS` in the word a read returns (10_state.md R35). -/
theorem toWord_layout (st : Status) :
    st.toWord.getLsbD 0 = st.busy ∧ st.toWord.getLsbD 1 = st.done ∧ st.toWord.getLsbD 2 = st.err ∧
    st.toWord.getLsbD 3 = st.ovr ∧ st.toWord.getLsbD 4 = st.planValid ∧ st.toWord.getLsbD 5 = st.fvecValid ∧
    st.toWord.getLsbD 6 = st.peaksValid ∧ st.toWord.getLsbD 7 = st.result ∧
    st.toWord.extractLsb' 8 8 = st.errcode ∧ st.toWord.extractLsb' 16 48 = 0 := by
  have hbits : st.toWord.extractLsb' 8 8 = st.errcode := by
    ext i hi
    simp only [Status.toWord, BitVec.getElem_extractLsb', BitVec.getLsbD_append]
    simp (disch := omega) only [if_neg, if_pos]
    rw [show 8 + i - 1 - 1 - 1 - 1 - 1 - 1 - 1 - 1 = i by omega, BitVec.getLsbD_eq_getElem]
  have hzero : st.toWord.extractLsb' 16 48 = 0 := by
    ext i hi
    simp only [Status.toWord, BitVec.getElem_extractLsb', BitVec.getLsbD_append]
    simp (disch := omega) only [if_neg]
    simp
  rw [hbits, hzero]
  simp only [Status.toWord, BitVec.getLsbD_append, BitVec.getLsbD_ofBool]
  simp

/-- A host write of `STATUS` clears bits of it and changes nothing else. -/
theorem writeStatus_eq (v : Word) (s : State) :
    writeStatus v s =
      { s with
        status :=
          { s.status with
            done := if v.getLsbD 1 then false else s.status.done
            err := if v.getLsbD 2 then false else s.status.err
            errcode := if v.getLsbD 2 then 0 else s.status.errcode
            ovr := if v.getLsbD 3 then false else s.status.ovr } } := by
  rw [writeStatus]
  cases v.getLsbD 1 <;> cases v.getLsbD 2 <;> cases v.getLsbD 3 <;> simp [clearErr]

/-- Settles O42: `STATUS` can be written at any time. -/
theorem statusLayoutAndClearing : Obligations.StatusLayoutAndClearing := by
  refine ⟨by decide, toWord_layout, fun s v => ?_⟩
  obtain ⟨-, hstatus, -⟩ := locate_control s
  rw [hostWrite_of_locate v hstatus (.inr rfl)]
  exact congrArg (respond true none) (writeStatus_eq v s)

/-- The low 32 bits of a word, zero-extended. -/
theorem setWidth_setWidth_eq_and (v : Word) : (v.setWidth 32).setWidth 64 = v &&& 0xFFFFFFFF := by
  have h : v.toNat &&& 0xFFFFFFFF = v.toNat % 2 ^ 32 := Nat.and_two_pow_sub_one_eq_mod _ 32
  apply BitVec.eq_of_toNat_eq
  rw [BitVec.toNat_and, BitVec.toNat_setWidth, BitVec.toNat_setWidth]
  change _ = v.toNat &&& 0xFFFFFFFF
  omega

/-- `IE` holds bits 3 to 1 of a word. -/
theorem toWord_ofWord (v : Word) : (IntEnable.ofWord v).toWord = v &&& 0xE := by
  refine BitVec.eq_of_getLsbD_eq fun i _ => ?_
  simp only [IntEnable.toWord, IntEnable.ofWord, BitVec.getLsbD_append, BitVec.getLsbD_ofBool, BitVec.getLsbD_and]
  match i with
  | 0 => simp
  | 1 => simp
  | 2 => simp
  | 3 => simp
  | i + 4 =>
    have hpos := Nat.two_pow_pos i
    have hmask : (0xE#64).getLsbD (i + 4) = false := by
      rw [BitVec.getLsbD_ofNat, Nat.testBit_lt_two_pow (by rw [pow_add]; omega), Bool.and_false]
    simp [hmask]

/-- Settles O43: each of the four registers holds its part of the word. -/
theorem operandRegistersReadBack : Obligations.OperandRegistersReadBack := by
  intro s v hb
  refine ⟨?_, ?_, ?_, ?_⟩
  · rw [hostRead_hostWrite v hb fun s => rfl, ← setWidth_setWidth_eq_and]
    rfl
  · rw [hostRead_hostWrite v hb fun s => rfl, ← setWidth_setWidth_eq_and]
    rfl
  · rw [hostRead_hostWrite v hb fun s => rfl]
    rfl
  · rw [hostRead_hostWrite v hb fun s => rfl, ← toWord_ofWord]
    rfl

/-- Settles O44: `irq` is the disjunction of the three conjunctions, bit by bit. -/
theorem irqFollowsEnabledBits : Obligations.IrqFollowsEnabledBits := by
  intro s
  simp only [State.irq, Bool.or_eq_true, Bool.and_eq_true, or_assoc]

/-! ### The state after reset -/

theorem readGlobal_reset {r : GlobalReg} (hf : r ≠ .peakFloor) (hc : r ≠ .caps) : readGlobal State.reset r = 0 := by
  cases r
  case peakFloor => exact absurd rfl hf
  case caps => exact absurd rfl hc
  all_goals rfl

/-- A slot that reads zero does so in every register. -/
theorem readSlotReg_empty (r q : Region) (x : SlotReg) : readSlotReg (Slot.empty r q) x = 0 := by
  have hfree : 0#62 ++ BitVec.ofBool false ++ BitVec.ofBool false = 0#64 := by decide
  cases x
  case ctxStatus => exact hfree
  all_goals rfl

/-- Every slot of the state after reset is empty. -/
theorem slot_reset {i : Nat} (h : i < 4) :
    State.reset.slot i = Slot.empty (Region.unwritten 0) (Region.unwritten 0) := List.getD_replicate _ h

/-- Settles O46: the global registers one by one, the four slots as empty ones. -/
theorem resetStateReadsZero : Obligations.ResetStateReadsZero :=
  ⟨fun _ => readGlobal_reset, rfl, rfl, fun i r hi => by rw [slot_reset hi, readSlotReg_empty], rfl⟩

end Sys2Proof.Proofs
end

section
/-! SUPPORT. Which address names what, and what the host port does at a mapped address (20_memory.md R80 to R87,
70_reset_and_hazards.md R301). -/

namespace Sys2Proof.Proofs

open Sys2Proof.Machine Sys2Proof.Laws Sys2Proof.Claims

/-! ### The address map -/

/-- The registers of region 0 are those of the written-out table (10_state.md R33). -/
theorem globalAt_eq_some_iff (off : Nat) (r : GlobalReg) : globalAt off = some r ↔ (off, r) ∈ globalOffsets := by
  constructor
  · intro h
    unfold globalAt at h
    split at h <;> cases h <;> decide
  · intro h
    have htable : ∀ e ∈ globalOffsets, globalAt e.1 = some e.2 := by decide
    exact htable _ h

/-- The registers of a slot are those of the written-out table (10_state.md R53). -/
theorem slotRegAt_eq_some_iff (off : Nat) (r : SlotReg) : slotRegAt off = some r ↔ (off, r) ∈ slotOffsets := by
  constructor
  · intro h
    unfold slotRegAt at h
    split at h <;> cases h <;> decide
  · intro h
    have htable : ∀ e ∈ slotOffsets, slotRegAt e.1 = some e.2 := by decide
    exact htable _ h

theorem memoryAt_eq_some_iff (s : State) (id : RegionId) (off : Nat) (loc : Location) :
    memoryAt s id off = some loc ↔ off < 16 * 2 ^ s.log2NMax ∧ .memory id off = loc := by
  rw [memoryAt, State.nMax, Option.ite_none_right_eq_some, Option.some.injEq]

/-- Region `5 + 2i` is the mixer of slot `i`. -/
theorem addressMap_mixer (s : State) (i off : Nat) :
    addressMap s (5 + 2 * i) off = if i < s.slots.length then memoryAt s (.mixer i) off else none := by
  have hdiv : 2 * i / 2 = i := by omega
  have hmod : 2 * i % 2 = 0 := by omega
  rw [Nat.add_comm, addressMap, hdiv, hmod, if_pos rfl, State.nslots]

/-- Region `6 + 2i` is the accumulator of slot `i`. -/
theorem addressMap_acc (s : State) (i off : Nat) :
    addressMap s (6 + 2 * i) off = if i < s.slots.length then memoryAt s (.acc i) off else none := by
  have hdiv : (2 * i + 1) / 2 = i := by omega
  have hmod : ¬(2 * i + 1) % 2 = 0 := by omega
  rw [show 6 + 2 * i = 2 * i + 1 + 5 by omega, addressMap, hdiv, if_neg hmod, State.nslots]

/-- A word found in a memory region lies in it. -/
theorem inRegion_of_memoryAt {s : State} {a region : Nat} {id : RegionId} {loc : Location} (ha : a % 8 = 0)
    (hr : a / 2 ^ 21 = region) (h : memoryAt s id (a % 2 ^ 21) = some loc) :
    .memory id (a % 2 ^ 21) = loc ∧ inRegion s a region (a % 2 ^ 21) := by
  obtain ⟨hlt, hloc⟩ := (memoryAt_eq_some_iff ..).1 h
  exact ⟨hloc, hr, rfl, by omega, hlt⟩

/-- What the map finds at a multiple of 8 is what the address names: region by region. -/
theorem names_of_addressMap {s : State} {a : Nat} {loc : Location} (ha : a % 8 = 0)
    (h : addressMap s (a / 2 ^ 21) (a % 2 ^ 21) = some loc) : Names s a loc := by
  match hr : a / 2 ^ 21 with
  | 0 =>
    rw [hr, addressMap, Option.map_eq_some_iff] at h
    obtain ⟨r, h, rfl⟩ := h
    exact ⟨hr, (globalAt_eq_some_iff _ r).1 h⟩
  | 1 =>
    rw [hr, addressMap] at h
    obtain ⟨rfl, hin⟩ := inRegion_of_memoryAt ha hr h
    exact hin
  | 2 =>
    rw [hr, addressMap] at h
    obtain ⟨rfl, hin⟩ := inRegion_of_memoryAt ha hr h
    exact hin
  | 3 =>
    rw [hr, addressMap] at h
    obtain ⟨rfl, hin⟩ := inRegion_of_memoryAt ha hr h
    exact hin
  | 4 =>
    rw [hr, addressMap, Option.ite_none_right_eq_some, Option.map_eq_some_iff] at h
    obtain ⟨hi, r, h, rfl⟩ := h
    exact ⟨hr, rfl, hi, (slotRegAt_eq_some_iff _ r).1 h⟩
  | r + 5 =>
    obtain ⟨i, hi | hi⟩ := Nat.even_or_odd' r
    · have hmixer : a / 2 ^ 21 = 5 + 2 * i := by omega
      rw [hmixer, addressMap_mixer, Option.ite_none_right_eq_some] at h
      obtain ⟨hlen, h⟩ := h
      obtain ⟨rfl, hin⟩ := inRegion_of_memoryAt ha hmixer h
      exact ⟨hlen, hin⟩
    · have hacc : a / 2 ^ 21 = 6 + 2 * i := by omega
      rw [hacc, addressMap_acc, Option.ite_none_right_eq_some] at h
      obtain ⟨hlen, h⟩ := h
      obtain ⟨rfl, hin⟩ := inRegion_of_memoryAt ha hacc h
      exact ⟨hlen, hin⟩

theorem addressMap_of_inRegion {s : State} {a region off : Nat} {id : RegionId} (h : inRegion s a region off)
    (hmap : ∀ off, addressMap s region off = memoryAt s id off) :
    addressMap s (a / 2 ^ 21) (a % 2 ^ 21) = some (.memory id off) := by
  obtain ⟨hr, hoff, -, hlt⟩ := h
  rw [hr, hoff, hmap]
  exact (memoryAt_eq_some_iff ..).2 ⟨hlt, rfl⟩

/-- What an address names is what the map finds there. -/
theorem addressMap_of_names {s : State} {a : Nat} {loc : Location} (h : Names s a loc) :
    addressMap s (a / 2 ^ 21) (a % 2 ^ 21) = some loc := by
  cases loc with
  | global r =>
    obtain ⟨hr, hmem⟩ := h
    rw [hr, addressMap, (globalAt_eq_some_iff _ r).2 hmem]
    rfl
  | slot i r =>
    obtain ⟨hr, rfl, hi, hmem⟩ := h
    rw [hr, addressMap, State.nslots, if_pos hi, (slotRegAt_eq_some_iff _ r).2 hmem]
    rfl
  | memory id off =>
    cases id with
    | ibuf => exact addressMap_of_inRegion h fun _ => rfl
    | fvec => exact addressMap_of_inRegion h fun _ => rfl
    | peak => exact addressMap_of_inRegion h fun _ => rfl
    | mixer i => exact addressMap_of_inRegion h.2 fun _ => by rw [addressMap_mixer, if_pos h.1]
    | acc i => exact addressMap_of_inRegion h.2 fun _ => by rw [addressMap_acc, if_pos h.1]

/-- An address of a memory region lies in the region of that number. -/
theorem inRegion_of_names {s : State} {a off : Nat} {id : RegionId} (h : Names s a (.memory id off)) :
    inRegion s a id.number off := by
  cases id with
  | ibuf => exact h
  | fvec => exact h
  | peak => exact h
  | mixer i => exact h.2
  | acc i => exact h.2

/-- Only multiples of 8 name anything. -/
theorem aligned_of_names {s : State} {a : Nat} {loc : Location} (h : Names s a loc) : a % 8 = 0 := by
  cases loc with
  | global r =>
    obtain ⟨-, hmem⟩ := h
    have htable : ∀ e ∈ globalOffsets, e.1 % 8 = 0 := by decide
    have halign := htable _ hmem
    omega
  | slot i r =>
    obtain ⟨-, -, -, hmem⟩ := h
    have htable : ∀ e ∈ slotOffsets, e.1 % 8 = 0 := by decide
    have halign := htable _ hmem
    omega
  | memory id off =>
    obtain ⟨-, hoff, halign, -⟩ := inRegion_of_names h
    omega

/-- A transaction reaches only what its address names. -/
theorem names_of_locate {s : State} {addr : BitVec 32} {size : Nat} {loc : Location}
    (h : locate s addr size = some loc) : Names s addr.toNat loc := by
  rw [locate, Option.ite_none_right_eq_some] at h
  obtain ⟨⟨-, halign⟩, hmap⟩ := h
  exact names_of_addressMap halign hmap

/-- A transaction of 8 bytes reaches exactly what its address names (20_memory.md R81, R84). -/
theorem locate_eq_some_iff (s : State) (addr : BitVec 32) (loc : Location) :
    locate s addr 8 = some loc ↔ Names s addr.toNat loc := by
  refine ⟨names_of_locate, fun h => ?_⟩
  rw [locate, if_pos ⟨rfl, aligned_of_names h⟩]
  exact addressMap_of_names h

/-- A transaction of another size, or to an address that names nothing, reaches nothing. -/
theorem locate_eq_none {s : State} {addr : BitVec 32} {size : Nat} (h : size ≠ 8 ∨ ∀ loc, ¬Names s addr.toNat loc) :
    locate s addr size = none := by
  by_cases hsize : size = 8
  · subst hsize
    refine Option.eq_none_iff_forall_not_mem.2 fun loc hloc => ?_
    exact (h.resolve_left fun hne => hne rfl) loc ((locate_eq_some_iff s addr loc).1 hloc)
  · rw [locate, if_neg fun hc => hsize hc.1]

/-- The map ends below `0x40A00000 = 517 × 2^21`: with 256 slots the last region is number 516. -/
theorem lt_of_names {s : State} {a : Nat} {loc : Location} (hslots : s.slots.length ≤ 256) (h : Names s a loc) :
    a < 0x40A00000 := by
  suffices hregion : a / 2 ^ 21 ≤ 516 by omega
  cases loc with
  | global r => exact h.1.trans_le (by decide)
  | slot i r => exact h.1.trans_le (by decide)
  | memory id off =>
    cases id with
    | ibuf => exact h.1.trans_le (by decide)
    | fvec => exact h.1.trans_le (by decide)
    | peak => exact h.1.trans_le (by decide)
    | mixer i =>
      obtain ⟨hi, hr, -⟩ := h
      omega
    | acc i =>
      obtain ⟨hi, hr, -⟩ := h
      omega

/-! ### Transactions that reach nothing -/

/-- A read that reaches nothing (20_memory.md R84). -/
theorem hostRead_of_locate_none {s : State} {addr : BitVec 32} {size : Nat} (h : locate s addr size = none) :
    hostRead addr size s = respondUnspecified false addr s := by
  rw [hostRead, h]

/-- A write that reaches nothing (20_memory.md R84). -/
theorem hostWrite_of_locate_none {s : State} {addr : BitVec 32} {size : Nat} (v : Word)
    (h : locate s addr size = none) : hostWrite addr size v s = respond false none s := by
  rw [hostWrite, h]

/-- Settles O36: the map region by region, `ERROR` where it finds nothing, the last region's number, and the listed
addresses by evaluation. -/
theorem addressMapAndErrors : Obligations.AddressMapAndErrors := by
  refine ⟨locate_eq_some_iff, fun s addr size v h => ?_, fun s addr loc _ hslots h => lt_of_names hslots h, by decide⟩
  have hnone := locate_eq_none h
  rw [hostRead_of_locate_none hnone, hostWrite_of_locate_none v hnone]
  exact ⟨⟨_, rfl⟩, rfl⟩

/-! ### Register reads -/

/-- Appending shifts the first word past the second. -/
theorem toNat_append_eq_add {n m : Nat} (x : BitVec n) (y : BitVec m) :
    (x ++ y).toNat = x.toNat * 2 ^ m + y.toNat := by
  rw [BitVec.toNat_append, ← Nat.shiftLeft_add_eq_or_of_lt y.isLt, Nat.shiftLeft_eq]

/-- A word is the number it stands for. -/
theorem eq_ofNat_of_toNat_eq {w : Word} {n : Nat} (h : w.toNat = n) : w = BitVec.ofNat 64 n := by
  rw [← h, BitVec.ofNat_toNat, BitVec.setWidth_eq]

/-- What a global register reads, as the number its rule gives (10_state.md R33 to R52). -/
theorem toNat_readGlobal (s : State) (r : GlobalReg) : (readGlobal s r).toNat = globalValue s r := by
  cases r
  case status =>
    simp only [readGlobal, globalValue, Status.toWord, toNat_append_eq_add, BitVec.toNat_ofBool, BitVec.toNat_ofNat]
    omega
  case ie =>
    simp only [readGlobal, globalValue, IntEnable.toWord, toNat_append_eq_add, BitVec.toNat_ofBool,
      BitVec.toNat_ofNat]
    omega
  case caps =>
    simp only [readGlobal, globalValue, State.caps, State.nslots, toNat_append_eq_add, BitVec.toNat_ofNat]
    omega
  case ctrl | timeUs | dt | peakFloor => rfl
  all_goals exact BitVec.toNat_setWidth_of_le (by decide)

/-- What a slot register reads, as the number its rule gives (10_state.md R53 to R62). -/
theorem toNat_readSlotReg (x : Slot) (r : SlotReg) : (readSlotReg x r).toNat = slotValue x r := by
  cases r
  case ctxStatus =>
    simp only [readSlotReg, slotValue, toNat_append_eq_add, BitVec.toNat_ofBool, BitVec.toNat_ofNat]
    omega
  case freqOffset | lastSeenUs | frame0 | frame1 | frame2 | frame3 => rfl
  all_goals exact BitVec.toNat_setWidth_of_le (by decide)

/-- A read of a slot register answers its value. -/
theorem hostRead_slot {s : State} {addr : BitVec 32} {i : Nat} {r : SlotReg}
    (h : locate s addr 8 = some (.slot i r)) :
    hostRead addr 8 s = respond true (some (readSlotReg (s.slot i) r)) s := by
  rw [hostRead, h]

/-! ### Memory reads -/

/-- A read of a memory word while the engine is idle (20_memory.md R82). -/
theorem hostRead_memory_idle {s : State} {addr : BitVec 32} {id : RegionId} {off : Nat} (hb : s.status.busy = false)
    (h : locate s addr 8 = some (.memory id off)) :
    hostRead addr 8 s = respond true (some (s.hostWord id off)) s := by
  rw [hostRead, h]
  exact if_neg (by rw [hb]; decide)

/-- A read of a memory word while a command is pending (70_reset_and_hazards.md R301). -/
theorem hostRead_memory_busy {s : State} {addr : BitVec 32} {id : RegionId} {off : Nat} (hb : s.status.busy = true)
    (h : locate s addr 8 = some (.memory id off)) :
    hostRead addr 8 s = setOvr (respondUnspecified true addr s) := by
  rw [hostRead, h]
  exact if_pos hb

/-- A word the spec defines reads as stored. -/
theorem hostWord_of_defined {s : State} {id : RegionId} {off : Nat} (h : s.wordDefined id off = true) :
    s.hostWord id off = (s.region id).word id.base off := by
  rw [State.hostWord, if_pos h]

/-- The words of a complex entry are those of its region. -/
theorem entryWord_c64 (r : Region) (base : Nat) {off : Nat} (h : off % 8 = 0) :
    entryWord (r.c64 base (off / 16)) off = r.word base off := by
  rw [entryWord, Region.c64]
  split
  · rw [show 16 * (off / 16) = off by omega]
  · rw [show 16 * (off / 16) + 8 = off by omega]

/-- What an idle host reads is what the spec says is there, where it says so (10_state.md R64 to R68). -/
theorem holds_hostWord (s : State) {off : Nat} (id : RegionId) (h : off % 8 = 0) :
    Holds s (s.hostWord id off) off id := by
  cases id with
  | ibuf =>
    rw [hostWord_of_defined rfl]
    exact (entryWord_c64 s.ibuf RegionId.ibuf.base h).symm
  | fvec =>
    intro hv hn
    rw [hostWord_of_defined (by simp [State.wordDefined, hv, hn])]
    exact (entryWord_c64 s.fvec RegionId.fvec.base h).symm
  | peak =>
    intro hv hn
    rw [hostWord_of_defined (by simp [State.wordDefined, hv, hn])]
    have hword : ∀ k, off % 32 = k → s.peakWord off = s.peakWord (32 * (off / 32) + k) := fun k hk => by
      rw [← hk, Nat.div_add_mod]
    exact ⟨fun hk => congrArg (BitVec.setWidth 32) (hword 0 hk), hword 8, hword 16, hword 24⟩
  | mixer i =>
    intro hv hm
    rw [hostWord_of_defined (by simp [State.wordDefined, hv, hm])]
    exact (entryWord_c64 (s.slot i).mixer (RegionId.mixer i).base h).symm
  | acc i =>
    intro hv hm
    rw [hostWord_of_defined (by simp [State.wordDefined, hv, hm])]
    exact (entryWord_c64 (s.slot i).acc (RegionId.acc i).base h).symm

/-- Settles O38: one case for each branch of the host's read. -/
theorem hostReads : Obligations.HostReads := by
  intro s addr
  refine ⟨fun r h => ?_, fun i r h => ?_, fun id off h => ?_, fun h => ?_⟩
  · rw [hostRead_global ((locate_eq_some_iff ..).2 h), eq_ofNat_of_toNat_eq (toNat_readGlobal s r)]
    rfl
  · rw [hostRead_slot ((locate_eq_some_iff ..).2 h), eq_ofNat_of_toNat_eq (toNat_readSlotReg (s.slot i) r)]
    rfl
  · have hloc := (locate_eq_some_iff ..).2 h
    obtain ⟨-, -, halign, -⟩ := inRegion_of_names h
    refine ⟨fun hb => ⟨_, holds_hostWord s id halign, hostRead_memory_idle hb hloc, ?_⟩, fun hb => ?_⟩
    · rw [hostRead_memory_idle hb hloc]
      exact hostRead_memory_idle (s := respond true _ s) hb hloc
    · rw [hostRead_memory_busy hb hloc]
      exact ⟨_, rfl⟩
  · rw [hostRead_of_locate_none (locate_eq_none (.inr h))]
    exact ⟨_, rfl⟩

/-! ### Memory writes -/

/-- Settles O39: the stored word reads back, every other byte is as before, and the other regions ignore the write. -/
theorem ibufWriteInvalidates : Obligations.IbufWriteInvalidates := by
  intro s addr v id off hb h
  rw [hostWrite_of_locate v ((locate_eq_some_iff ..).2 h) (.inl hb)]
  refine ⟨?_, fun hid => ?_⟩
  · rintro rfl
    refine ⟨s.ibuf.put off v, rfl, word_put_same _ _ _ _, fun a ha => ?_⟩
    rw [put_cells, readByte_writeWord, if_neg (by omega)]
  · cases id
    case ibuf => exact absurd rfl hid
    all_goals rfl

/-- After a write to `IBUF` by an idle host, a word of it reads as the region then holds it. -/
theorem resp_hostRead_hostWrite_ibuf {s : State} {a b : BitVec 32} (v : Word) {i j : Nat} (hb : s.status.busy = false)
    (ha : Names s a.toNat (.memory .ibuf i)) (hj : Names s b.toNat (.memory .ibuf j)) :
    (hostRead b 8 (hostWrite a 8 v s)).resp = some ⟨true, some ((s.ibuf.put i v).word RegionId.ibuf.base j)⟩ := by
  have hloc : locate s b 8 = some (.memory .ibuf j) := (locate_eq_some_iff ..).2 hj
  rw [hostWrite_of_locate v ((locate_eq_some_iff ..).2 ha) (.inl hb),
    hostRead_memory_idle (s := respond true none (writeLocation (.memory .ibuf i) v s)) hb hloc]
  rfl

/-- Two addresses of `IBUF` name words that are apart. -/
theorem apart_of_names_ibuf {s : State} {a b : BitVec 32} {i j : Nat} (ha : Names s a.toNat (.memory .ibuf i))
    (hb : Names s b.toNat (.memory .ibuf j)) (hne : a ≠ b) : j + 8 ≤ i ∨ i + 8 ≤ j := by
  obtain ⟨hra, hia, hi, -⟩ := ha
  obtain ⟨hrb, hjb, hj, -⟩ := hb
  have hne' : a.toNat ≠ b.toNat := fun h => hne (BitVec.eq_of_toNat_eq h)
  omega

/-- Settles O40: the region holds the written word, and its other words are the ones it held. -/
theorem ibufWordReadsBack : Obligations.IbufWordReadsBack := by
  intro s a b v i j hbusy ha hb
  refine ⟨?_, fun hne => ?_⟩
  · rw [resp_hostRead_hostWrite_ibuf v hbusy ha ha, word_put_same]
  · rw [resp_hostRead_hostWrite_ibuf v hbusy ha hb, word_put_other _ _ _ _ _ (apart_of_names_ibuf ha hb hne),
      hostRead_memory_idle hbusy ((locate_eq_some_iff ..).2 hb)]
    rfl

end Sys2Proof.Proofs
end

section
/-! SUPPORT. The regions stay within the address map, operation by operation (20_memory.md R81, R88). -/

namespace Sys2Proof.Proofs

open Sys2Proof.Machine Sys2Proof.Safety Sys2Proof.Laws

/-! ### Writes below a bound -/

theorem cellsBelow_nil (bound : Nat) : cellsBelow bound [] := fun _ hc => by cases hc

theorem cellsBelow_put {bound : Nat} {r : Region} (h : cellsBelow bound r.cells) {off : Nat} (v : Word)
    (hoff : off + 8 ≤ bound) : cellsBelow bound (r.put off v).cells := by
  intro c hc
  rcases mem_put hc with ⟨-, hlt⟩ | hc
  · omega
  · exact h c hc

theorem cellsBelow_putC64s {bound : Nat} {r : Region} (h : cellsBelow bound r.cells) {xs : List C64}
    (hlen : 16 * xs.length ≤ bound) : cellsBelow bound (r.putC64s 0 xs).cells := by
  intro c hc
  rcases mem_putC64s hc with ⟨-, hlt⟩ | hc
  · omega
  · exact h c hc

theorem cellsBelow_putPeaks {bound : Nat} {r : Region} (h : cellsBelow bound r.cells) {xs : List PeakEntry}
    (hlen : 32 * xs.length ≤ bound) : cellsBelow bound (r.putPeaks 0 xs).cells := by
  intro c hc
  rcases mem_putPeaks hc with ⟨-, hlt⟩ | hc
  · omega
  · exact h c hc

/-! ### Slots -/

/-- What `RegionsBounded` says of one slot. -/
def SlotBounded (bound : Nat) (x : Slot) : Prop := cellsBelow bound x.mixer.cells ∧ cellsBelow bound x.acc.cells

/-- What `RegionsBounded` says of the slots. -/
def SlotsBounded (bound : Nat) (slots : List Slot) : Prop := ∀ x ∈ slots, SlotBounded bound x

/-- A freed slot's regions are unwritten, or those it had. -/
theorem slotBounded_freed {bound : Nat} {x : Slot} (h : SlotBounded bound x) (d : Nat) :
    SlotBounded bound (x.freed d) := by
  rw [Slot.freed]
  split
  · exact ⟨cellsBelow_nil bound, cellsBelow_nil bound⟩
  · exact h

theorem slotBounded_claimedSlot {bound : Nat} {x : Slot} (h : SlotBounded bound x) (e : PeakEntry) {m : Nat}
    (hm : 16 * m ≤ bound) (dt : F64) (d : Nat) : SlotBounded bound (claimedSlot x e m dt d) := by
  obtain ⟨hmixer, hacc⟩ := h
  exact ⟨cellsBelow_putC64s (r := x.mixer.restamp d) hmixer (by simpa [mixerElements] using hm),
    cellsBelow_putC64s (r := x.acc.restamp d) hacc (by simpa using hm)⟩

theorem slotBounded_accumulatedSlot {bound : Nat} {s : State} {k : Nat} (h : SlotBounded bound (s.slot k)) (p : Nat)
    (hm : 16 * s.m.toNat ≤ bound) : SlotBounded bound (accumulatedSlot k p s) := by
  obtain ⟨hmixer, hacc⟩ := h
  exact ⟨hmixer, cellsBelow_putC64s (r := (s.slot k).acc.restamp s.draw) hacc (by simpa [accumElements] using hm)⟩

theorem slotBounded_decodedSlot {bound : Nat} {x : Slot} (h : SlotBounded bound x) (bits : List Bool) :
    SlotBounded bound (decodedSlot x bits) := by
  obtain ⟨-, -, hmixer, hacc⟩ := decodedSlot_frame x bits
  rw [SlotBounded, hmixer, hacc]
  exact h

theorem slotsBounded_set {bound : Nat} {slots : List Slot} {y : Slot} (h : SlotsBounded bound slots)
    (hy : SlotBounded bound y) (k : Nat) : SlotsBounded bound (slots.set k y) := by
  intro x hx
  rcases List.mem_or_eq_of_mem_set hx with hx | rfl
  · exact h x hx
  · exact hy

theorem slotsBounded_map_freed {bound : Nat} {slots : List Slot} (h : SlotsBounded bound slots) (d : Nat) :
    SlotsBounded bound (slots.map fun x => x.freed d) := by
  intro x hx
  obtain ⟨y, hy, rfl⟩ := List.mem_map.1 hx
  exact slotBounded_freed (h y hy) d

/-! ### The operations of a step -/

theorem slots_of_regionsBounded {s : State} (h : RegionsBounded s) : SlotsBounded (16 * s.nMax) s.slots := by
  obtain ⟨-, -, -, hslots⟩ := h
  exact hslots

/-- A step that leaves the signal path keeps its regions, so that only the slots matter. -/
theorem regionsBounded_of_sameSignal {s t : State} (h : RegionsBounded s) (hsig : SameSignal s t)
    (hslots : SlotsBounded (16 * s.nMax) t.slots) : RegionsBounded t := by
  obtain ⟨hibuf, hfvec, hpeak, -⟩ := h
  rw [RegionsBounded, State.nMax, hsig.log2NMax, hsig.ibuf, hsig.fvec, hsig.peak]
  exact ⟨hibuf, hfvec, hpeak, hslots⟩

/-- A plan's lengths fit the regions: `M ≤ N ≤ N_MAX` (40_fft.md R132, R134). -/
theorem lengths_le_of_planned {s : State} (h : Planned s) : s.m.toNat ≤ s.nMax ∧ s.n.toNat ≤ s.nMax := by
  obtain ⟨t, -, hlong, hm, hn, -, -⟩ := h
  have hfits : s.n.toNat ≤ s.nMax := by
    rw [hn, hm]
    simpa [planTooLong] using hlong
  have hle : s.m.toNat ≤ s.n.toNat := hn ▸ le_nextPow2 s.m.toNat
  exact ⟨hle.trans hfits, hfits⟩

theorem regionsBounded_finish {s : State} (h : RegionsBounded s) : RegionsBounded (finish s) := h

theorem regionsBounded_raiseErr (c : ErrCode) {s : State} (h : RegionsBounded s) : RegionsBounded (raiseErr c s) := by
  refine regionsBounded_of_sameSignal h (sameSignal_raiseErr c s) ?_
  rw [raiseErr_slots]
  exact slots_of_regionsBounded h

/-- A failed or successful `PLAN` frees the slots and writes no region. -/
theorem regionsBounded_planClear {s : State} (h : RegionsBounded s) : RegionsBounded (planClear s) := by
  obtain ⟨hibuf, hfvec, hpeak, hslots⟩ := h
  exact ⟨hibuf, hfvec, hpeak, slotsBounded_map_freed hslots s.draw⟩

/-- `FFT` writes `N` entries of 16 bytes. -/
theorem regionsBounded_fft {s : State} (h : RegionsBounded s) (hn : s.n.toNat ≤ s.nMax) :
    RegionsBounded (fftEffect s) := by
  obtain ⟨hibuf, hfvec, hpeak, hslots⟩ := h
  refine ⟨hibuf, cellsBelow_putC64s (r := s.fvec.restamp s.draw) hfvec ?_, hpeak, hslots⟩
  simp only [NUM, fftFree, List.length_map, List.length_range]
  exact Nat.mul_le_mul_left 16 hn

/-- `PEAKS` writes at most `N/2 - 1` entries of 32 bytes. -/
theorem regionsBounded_peaks {s : State} (h : RegionsBounded s) (hp : Planned s) : RegionsBounded (peaksEffect s) := by
  obtain ⟨hibuf, hfvec, hpeak, hslots⟩ := h
  refine ⟨hibuf, hfvec, cellsBelow_putPeaks (r := s.peak.restamp s.draw) hpeak ?_, hslots⟩
  have hcount := length_peakBins_le_of_planned hp
  obtain ⟨-, hn⟩ := lengths_le_of_planned hp
  rw [List.length_map]
  change _ ≤ 16 * s.nMax
  omega

theorem slotBounded_slot {s : State} (h : RegionsBounded s) {k : Nat} (hk : k < s.nslots) :
    SlotBounded (16 * s.nMax) (s.slot k) := slots_of_regionsBounded h _ (slot_mem s k hk)

theorem regionsBounded_ctxinit {s : State} (h : RegionsBounded s) {k : Nat} (hk : k < s.nslots) (p : Nat)
    (hm : s.m.toNat ≤ s.nMax) : RegionsBounded (finish (ctxinitEffect k p s)) :=
  regionsBounded_of_sameSignal h (sameSignal_ctxinit k p s) (slotsBounded_set (slots_of_regionsBounded h)
    (slotBounded_claimedSlot (slotBounded_slot h hk) _ (Nat.mul_le_mul_left 16 hm) _ _) k)

theorem regionsBounded_accum {s : State} (h : RegionsBounded s) {k : Nat} (hk : k < s.nslots) (p : Nat)
    (hm : s.m.toNat ≤ s.nMax) : RegionsBounded (finish (accumEffect k p s)) := by
  refine regionsBounded_of_sameSignal h (sameSignal_accum k p s) ?_
  rw [finish_slots, accumEffect_slots]
  split
  · exact slots_of_regionsBounded h
  · exact slotsBounded_set (slots_of_regionsBounded h)
      (slotBounded_accumulatedSlot (slotBounded_slot h hk) p (Nat.mul_le_mul_left 16 hm)) k

theorem regionsBounded_decode {s : State} (h : RegionsBounded s) {k : Nat} (hk : k < s.nslots) :
    RegionsBounded (finish (decodeEffect k s)) := by
  refine regionsBounded_of_sameSignal h (sameSignal_decode k s) ?_
  rw [finish_slots, decodeEffect_slots]
  split
  · exact slots_of_regionsBounded h
  · exact slotsBounded_set (slots_of_regionsBounded h) (slotBounded_decodedSlot (slotBounded_slot h hk) _) k

theorem regionsBounded_ctxfree {s : State} (h : RegionsBounded s) {k : Nat} (hk : k < s.nslots) :
    RegionsBounded (finish (freeSlot k s)) :=
  regionsBounded_of_sameSignal h (sameSignal_ctxfree k s)
    (slotsBounded_set (slots_of_regionsBounded h) (slotBounded_freed (slotBounded_slot h hk) _) k)

/-- Reset leaves every region unwritten. -/
theorem regionsBounded_resetEffect (s : State) : RegionsBounded (resetEffect s) := by
  refine ⟨cellsBelow_nil _, cellsBelow_nil _, cellsBelow_nil _, fun x hx => ?_⟩
  obtain ⟨_, -, rfl⟩ := List.mem_map.1 hx
  exact ⟨cellsBelow_nil _, cellsBelow_nil _⟩

/-- The offset of a located word is a multiple of 8 below the region's size, which is one too. -/
theorem regionsBounded_writeIbuf {s : State} {addr : BitVec 32} {size off : Nat} (v : Word) (h : RegionsBounded s)
    (hloc : locate s addr size = some (.memory .ibuf off)) : RegionsBounded (writeIbuf off v s) := by
  obtain ⟨hibuf, hfvec, hpeak, hslots⟩ := h
  obtain ⟨-, -, halign, hlt⟩ := inRegion_of_names (names_of_locate hloc)
  refine ⟨cellsBelow_put hibuf v ?_, hfvec, hpeak, hslots⟩
  change _ ≤ 16 * 2 ^ s.log2NMax
  omega

/-! ### One step -/

theorem regionsBounded_exec {i : Instr} {s t : State} (hi : Inv s) (hs : RegionsBounded s) (h : exec i s = .next t) :
    RegionsBounded t := by
  rcases exec_cases i s with ⟨c, -, he⟩ | ⟨c, he⟩ | ⟨-, he⟩ | ⟨-, -, -, he⟩ | ⟨-, hp, he⟩ | ⟨-, hp, -, he⟩ |
    ⟨k, p, -, hp, -, hk, -, -, he⟩ | ⟨k, p, -, hp, -, hk, -, -, -, he⟩ | ⟨k, -, -, hk, -, he⟩ | ⟨k, -, hk, he⟩ <;>
    rw [he] at h <;> cases h
  · exact regionsBounded_raiseErr c (s := planUnlatch s) (regionsBounded_planClear hs)
  · exact regionsBounded_raiseErr c hs
  · exact regionsBounded_finish hs
  · exact regionsBounded_finish (s := planLatch s) (regionsBounded_planClear hs)
  · obtain ⟨-, hn⟩ := lengths_le_of_planned (hi.planned hp)
    exact regionsBounded_finish (regionsBounded_fft hs hn)
  · exact regionsBounded_finish (regionsBounded_peaks hs (hi.planned hp))
  · obtain ⟨hm, -⟩ := lengths_le_of_planned (hi.planned hp)
    exact regionsBounded_ctxinit hs hk p hm
  · obtain ⟨hm, -⟩ := lengths_le_of_planned (hi.planned hp)
    exact regionsBounded_accum hs hk p hm
  · exact regionsBounded_decode hs hk
  · exact regionsBounded_ctxfree hs hk

theorem regionsBounded_hostRead (a : BitVec 32) (n : Nat) {s : State} (hs : RegionsBounded s) :
    RegionsBounded (hostRead a n s) := by
  refine regionsBounded_of_sameSignal hs (sameSignal_hostRead a n s) ?_
  rcases hostRead_cases a n s with ⟨-, h⟩ | ⟨_, _, -, -, h⟩ | ⟨v, h⟩ <;> rw [h] <;> exact slots_of_regionsBounded hs

/-- Of the writes only those of `IBUF` store a byte. -/
theorem regionsBounded_writeLocation {s : State} {addr : BitVec 32} {size : Nat} {loc : Location} (v : Word)
    (hs : RegionsBounded s) (hloc : locate s addr size = some loc) : RegionsBounded (writeLocation loc v s) := by
  rcases writeLocation_cases loc v s with h | ⟨-, h⟩ | ⟨-, h⟩ | ⟨-, h⟩ | ⟨off, rfl, h⟩ | ⟨_, _, _, _, h⟩ <;> rw [h]
  · exact hs
  · exact hs
  · refine regionsBounded_of_sameSignal hs (sameSignal_writeStatus v s) ?_
    rw [writeStatus_slots]
    exact slots_of_regionsBounded hs
  · exact regionsBounded_resetEffect s
  · exact regionsBounded_writeIbuf v hs hloc
  · exact hs

theorem regionsBounded_hostWrite (a : BitVec 32) (n : Nat) (v : Word) {s : State} (hs : RegionsBounded s) :
    RegionsBounded (hostWrite a n v s) := by
  rcases hostWrite_cases a n v s with ⟨-, h⟩ | ⟨_, -, -, -, h⟩ | ⟨loc, hloc, -, h⟩ <;> rw [h]
  · exact hs
  · exact hs
  · exact regionsBounded_writeLocation v hs hloc

/-- Settles O53, operation by operation, together with `Inv`, which bounds the lengths of a plan. -/
theorem stepKeepsRegionsBounded : Obligations.StepKeepsRegionsBounded := by
  intro s t hi hs h
  have hboth : Inv t ∧ RegionsBounded t :=
    step_induction (P := fun s => Inv s ∧ RegionsBounded s) (fun _ _ ⟨hi, hs⟩ => ⟨{ hi with }, hs⟩)
      (fun _ _ _ ⟨hi, hs⟩ h => ⟨inv_exec hi h, regionsBounded_exec hi hs h⟩)
      (fun _ ⟨hi, hs⟩ => ⟨inv_raiseErr .illCmd hi, regionsBounded_raiseErr .illCmd hs⟩)
      (fun a n _ ⟨hi, hs⟩ => ⟨inv_hostRead a n hi, regionsBounded_hostRead a n hs⟩)
      (fun a n v _ ⟨hi, hs⟩ => ⟨inv_hostWrite a n v hi, regionsBounded_hostWrite a n v hs⟩)
      (fun s ⟨hi, _⟩ => ⟨inv_resetEffect hi, regionsBounded_resetEffect s⟩) ⟨hi, hs⟩ h
  exact hboth.2

end Sys2Proof.Proofs
end

section
/-! SUPPORT. The encoding: the fields that tell which command a word is, the rows of the opcode map by their format,
and a step on the pending command (30_encoding.md R110 to R117). -/

namespace Sys2Proof.Proofs

open Sys2Proof.Machine Sys2Proof.Laws

/-! ### The fields of a word -/

theorem opField_lt (c : BitVec 32) : opField c < 2 ^ 8 := BitVec.isLt _

theorem slotField_lt (c : BitVec 32) : slotField c < 2 ^ 8 := BitVec.isLt _

theorem peakField_lt (c : BitVec 32) : peakField c < 2 ^ 16 := BitVec.isLt _

@[simp] theorem opField_and (c d : BitVec 32) : opField (c &&& d) = opField c &&& opField d := by
  simp only [opField, BitVec.extractLsb'_and, BitVec.toNat_and]

@[simp] theorem slotField_and (c d : BitVec 32) : slotField (c &&& d) = slotField c &&& slotField d := by
  simp only [slotField, BitVec.extractLsb'_and, BitVec.toNat_and]

@[simp] theorem peakField_and (c d : BitVec 32) : peakField (c &&& d) = peakField c &&& peakField d := by
  simp only [peakField, BitVec.extractLsb'_and, BitVec.toNat_and]

/-- The three fields cover the word. -/
theorem eq_iff_fields {c d : BitVec 32} :
    c = d ↔ opField c = opField d ∧ slotField c = slotField d ∧ peakField c = peakField d := by
  constructor
  · rintro rfl
    exact ⟨rfl, rfl, rfl⟩
  · rintro ⟨ho, hs, hp⟩
    rw [← commandWord_fields c, ho, hs, hp, commandWord_fields d]

/-! ### What the decoder reads -/

/-- The fields that the format of a command prescribes: its opcode, and its operands with zero where it has none. -/
def fieldsOf : Instr → Nat × Nat × Nat
  | .nop => (0x00, 0, 0)
  | .plan => (0x01, 0, 0)
  | .fft => (0x02, 0, 0)
  | .peaks => (0x03, 0, 0)
  | .ctxinit s p => (0x10, s, p)
  | .accum s p => (0x11, s, p)
  | .decode s => (0x12, s, 0)
  | .ctxfree s => (0x13, s, 0)

theorem encode_eq_commandWord (i : Instr) :
    encode i = commandWord (fieldsOf i).1 (fieldsOf i).2.1 (fieldsOf i).2.2 := by
  cases i <;> rfl

theorem formatZ_eq_ok_iff {c : BitVec 32} {i j : Instr} :
    formatZ c i = .ok j ↔ i = j ∧ slotField c = 0 ∧ peakField c = 0 := by
  rw [formatZ]
  split <;> simp_all

theorem formatS_eq_ok_iff {c : BitVec 32} {f : Nat → Instr} {j : Instr} :
    formatS c f = .ok j ↔ f (slotField c) = j ∧ peakField c = 0 := by
  rw [formatS]
  split <;> simp_all

theorem formatSP_eq_ok_iff {c : BitVec 32} {f : Nat → Nat → Instr} {j : Instr} :
    formatSP c f = .ok j ↔ f (slotField c) (peakField c) = j := by
  rw [formatSP, Except.ok.injEq]

/-- A command that the decoder answers has its fields in the word. -/
theorem fields_of_decode {c : BitVec 32} {i : Instr} (h : decode c = .ok i) :
    fieldsOf i = (opField c, slotField c, peakField c) := by
  rw [decode] at h
  split at h
  case h_1 ho | h_2 ho | h_3 ho | h_4 ho =>
    obtain ⟨rfl, hs, hp⟩ := formatZ_eq_ok_iff.1 h
    rw [ho, hs, hp, fieldsOf]
  case h_5 ho | h_6 ho =>
    obtain rfl := formatSP_eq_ok_iff.1 h
    rw [ho, fieldsOf]
  case h_7 ho | h_8 ho =>
    obtain ⟨rfl, hp⟩ := formatS_eq_ok_iff.1 h
    rw [ho, hp, fieldsOf]
  case h_9 => cases h

/-- A command is well formed when its fields fit the word. -/
theorem wellFormed_iff_fields {i : Instr} :
    i.WellFormed ↔ (fieldsOf i).2.1 < 2 ^ 8 ∧ (fieldsOf i).2.2 < 2 ^ 16 := by
  cases i <;> simp [Instr.WellFormed, Instr.wellFormed, fieldsOf]

/-- Operands read from the fields of a word fit them. -/
theorem wellFormed_of_fields {c : BitVec 32} {i : Instr} (h : fieldsOf i = (opField c, slotField c, peakField c)) :
    i.WellFormed := by
  rw [wellFormed_iff_fields, h]
  exact ⟨slotField_lt c, peakField_lt c⟩

/-- The decoder answers a command exactly where the word holds the command's fields. -/
theorem decode_eq_ok_iff {c : BitVec 32} {i : Instr} :
    decode c = .ok i ↔ fieldsOf i = (opField c, slotField c, peakField c) := by
  refine ⟨fields_of_decode, fun h => ?_⟩
  have henc : encode i = c := by rw [encode_eq_commandWord, h, commandWord_fields]
  rw [← henc, decode_encode (wellFormed_of_fields h)]

/-- Settles O2, by the fields of each command's encoding. -/
theorem decodeEncodeRoundTrip : Obligations.DecodeEncodeRoundTrip := fun _ h => decode_encode h

/-- Settles O3: the word holds the command's fields, and the three fields are the whole word. -/
theorem encodeDecodeRoundTrip : Obligations.EncodeDecodeRoundTrip := by
  intro c i h
  have hf := fields_of_decode h
  exact ⟨wellFormed_of_fields hf, by rw [encode_eq_commandWord, hf, commandWord_fields]⟩

/-! ### The opcode map -/

/-- A row of format Z (30_encoding.md R112): the whole word is fixed. -/
def rowZ (mnemonic : String) (op : Nat) : OpcodeRow := ⟨mnemonic, commandWord op 0 0, commandWord 0xFF 0xFF 0xFFFF⟩

/-- A row of format S: the slot is free. -/
def rowS (mnemonic : String) (op : Nat) : OpcodeRow := ⟨mnemonic, commandWord op 0 0, commandWord 0xFF 0 0xFFFF⟩

/-- A row of format SP: slot and peak are free. -/
def rowSP (mnemonic : String) (op : Nat) : OpcodeRow := ⟨mnemonic, commandWord op 0 0, commandWord 0xFF 0 0⟩

/-- The masks and patterns of the opcode map are those of the formats. -/
theorem opcodeMap_eq :
    opcodeMap = [rowZ "NOP" 0x00, rowZ "PLAN" 0x01, rowZ "FFT" 0x02, rowZ "PEAKS" 0x03, rowSP "CTXINIT" 0x10,
      rowSP "ACCUM" 0x11, rowS "DECODE" 0x12, rowS "CTXFREE" 0x13] := rfl

theorem opField_and_ones (c : BitVec 32) : opField c &&& 0xFF = opField c :=
  Nat.and_two_pow_sub_one_of_lt_two_pow (opField_lt c)

theorem slotField_and_ones (c : BitVec 32) : slotField c &&& 0xFF = slotField c :=
  Nat.and_two_pow_sub_one_of_lt_two_pow (slotField_lt c)

theorem peakField_and_ones (c : BitVec 32) : peakField c &&& 0xFFFF = peakField c :=
  Nat.and_two_pow_sub_one_of_lt_two_pow (peakField_lt c)

section Formats

variable {mnemonic : String} {op : Nat} {c : BitVec 32}

/-- A row that fixes the opcode is selected field by field. -/
theorem selects_iff_fields {slotMask peakMask : Nat} (ho : op < 2 ^ 8) :
    (OpcodeRow.mk mnemonic (commandWord op 0 0) (commandWord 0xFF slotMask peakMask)).selects c = true ↔
      opField c = op ∧ slotField c &&& slotMask % 2 ^ 8 = 0 ∧ peakField c &&& peakMask % 2 ^ 16 = 0 := by
  rw [OpcodeRow.selects, beq_iff_eq, eq_iff_fields, opField_and, slotField_and, peakField_and]
  simp only [opField_commandWord, slotField_commandWord, peakField_commandWord, Nat.mod_eq_of_lt ho, Nat.zero_mod]
  rw [show 0xFF % 2 ^ 8 = 0xFF from rfl, opField_and_ones]

theorem rowZ_selects_iff (ho : op < 2 ^ 8) :
    (rowZ mnemonic op).selects c = true ↔ opField c = op ∧ slotField c = 0 ∧ peakField c = 0 := by
  simp [rowZ, selects_iff_fields ho, slotField_and_ones, peakField_and_ones]

theorem rowS_selects_iff (ho : op < 2 ^ 8) :
    (rowS mnemonic op).selects c = true ↔ opField c = op ∧ peakField c = 0 := by
  simp [rowS, selects_iff_fields ho, peakField_and_ones]

theorem rowSP_selects_iff (ho : op < 2 ^ 8) : (rowSP mnemonic op).selects c = true ↔ opField c = op := by
  simp [rowSP, selects_iff_fields ho]

theorem decode_of_rowZ_selects {i : Instr} (hi : fieldsOf i = (op, 0, 0)) (ho : op < 2 ^ 8)
    (h : (rowZ mnemonic op).selects c = true) : decode c = .ok i := by
  obtain ⟨rfl, hs, hp⟩ := (rowZ_selects_iff ho).1 h
  rw [decode_eq_ok_iff, hi, hs, hp]

theorem decode_of_rowS_selects {i : Instr} (hi : fieldsOf i = (op, slotField c, 0)) (ho : op < 2 ^ 8)
    (h : (rowS mnemonic op).selects c = true) : decode c = .ok i := by
  obtain ⟨rfl, hp⟩ := (rowS_selects_iff ho).1 h
  rw [decode_eq_ok_iff, hi, hp]

theorem decode_of_rowSP_selects {i : Instr} (hi : fieldsOf i = (op, slotField c, peakField c)) (ho : op < 2 ^ 8)
    (h : (rowSP mnemonic op).selects c = true) : decode c = .ok i := by
  obtain rfl := (rowSP_selects_iff ho).1 h
  rw [decode_eq_ok_iff, hi]

end Formats

/-- The row of a command. -/
def rowOf : Instr → OpcodeRow
  | .nop => rowZ "NOP" 0x00
  | .plan => rowZ "PLAN" 0x01
  | .fft => rowZ "FFT" 0x02
  | .peaks => rowZ "PEAKS" 0x03
  | .ctxinit _ _ => rowSP "CTXINIT" 0x10
  | .accum _ _ => rowSP "ACCUM" 0x11
  | .decode _ => rowS "DECODE" 0x12
  | .ctxfree _ => rowS "CTXFREE" 0x13

theorem rowOf_mnemonic (i : Instr) : (rowOf i).mnemonic = i.mnemonic := by cases i <;> rfl

theorem rowOf_mem (i : Instr) : rowOf i ∈ opcodeMap := by cases i <;> simp [opcodeMap_eq, rowOf]

/-- A word that decodes selects the row of its command. -/
theorem rowOf_selects_of_decode {c : BitVec 32} {i : Instr} (h : decode c = .ok i) : (rowOf i).selects c = true := by
  have hf := (fields_of_decode h).symm
  cases i with
  | nop | plan | fft | peaks => exact (rowZ_selects_iff (by decide)).2 (fields_eq hf)
  | ctxinit | accum =>
    obtain ⟨ho, -, -⟩ := fields_eq hf
    exact (rowSP_selects_iff (by decide)).2 ho
  | decode | ctxfree =>
    obtain ⟨ho, -, hp⟩ := fields_eq hf
    exact (rowS_selects_iff (by decide)).2 ⟨ho, hp⟩

/-- A word that selects a row of the map decodes to a command of that row. -/
theorem decode_of_selects {c : BitVec 32} {r : OpcodeRow} (hr : r ∈ opcodeMap) (h : r.selects c = true) :
    ∃ i, decode c = .ok i ∧ rowOf i = r := by
  simp only [opcodeMap_eq, List.mem_cons, List.not_mem_nil, or_false] at hr
  rcases hr with rfl | rfl | rfl | rfl | rfl | rfl | rfl | rfl
  · exact ⟨.nop, decode_of_rowZ_selects rfl (by decide) h, rfl⟩
  · exact ⟨.plan, decode_of_rowZ_selects rfl (by decide) h, rfl⟩
  · exact ⟨.fft, decode_of_rowZ_selects rfl (by decide) h, rfl⟩
  · exact ⟨.peaks, decode_of_rowZ_selects rfl (by decide) h, rfl⟩
  · exact ⟨.ctxinit _ _, decode_of_rowSP_selects rfl (by decide) h, rfl⟩
  · exact ⟨.accum _ _, decode_of_rowSP_selects rfl (by decide) h, rfl⟩
  · exact ⟨.decode _, decode_of_rowS_selects rfl (by decide) h, rfl⟩
  · exact ⟨.ctxfree _, decode_of_rowS_selects rfl (by decide) h, rfl⟩

/-- Settles O4: a word selects a row exactly when it decodes to a command of that row, and it decodes to one command
only. -/
theorem decodeSelectsOpcodeRow : Obligations.DecodeSelectsOpcodeRow := by
  intro c
  refine ⟨fun i h =>
    ⟨rowOf i, rowOf_mem i, rowOf_mnemonic i, rowOf_selects_of_decode h, fun q hq hsel => ?_⟩, ?_, ?_⟩
  · obtain ⟨j, hj, rfl⟩ := decode_of_selects hq hsel
    rw [h] at hj
    cases hj
    rfl
  · rintro ⟨e, he⟩ r hr
    refine Bool.eq_false_iff.2 fun hsel => ?_
    obtain ⟨i, hi, -⟩ := decode_of_selects hr hsel
    rw [he] at hi
    cases hi
  · intro hnone
    cases hd : decode c with
    | error e => exact ⟨e, rfl⟩
    | ok i => exact absurd (rowOf_selects_of_decode hd) (by rw [hnone _ (rowOf_mem i)]; decide)

/-- Settles O1: each word is evaluated. -/
theorem writtenWordsDecode : Obligations.WrittenWordsDecode :=
  ⟨rfl, rfl, rfl, rfl, rfl, rfl, rfl, rfl, rfl, rfl, rfl⟩

/-! ### The engine's turn -/

/-- The engine moves on its event of the schedule. -/
theorem step_of_schedule_engine {s : State} {rest : List Event} (h : s.schedule = .engine :: rest) :
    step s = engineTurn { s with schedule := rest } := by
  rw [step, advance, h]
  rfl

/-- The engine moves when the environment has nothing more to do. -/
theorem step_of_schedule_nil {s : State} (h : s.schedule = []) : step s = engineTurn s := by
  rw [step, advance, h]

/-- Settles O5: either way the engine moves, and it runs the pending command. -/
theorem stepRunsPendingCommand : Obligations.StepRunsPendingCommand := by
  intro s i hbusy hdecode
  refine ⟨fun rest h => ?_, fun h => ?_⟩
  · rw [step_of_schedule_engine h]
    exact engineTurn_of_decode hbusy hdecode
  · rw [step_of_schedule_nil h]
    exact engineTurn_of_decode hbusy hdecode

end Sys2Proof.Proofs
end

section
/-! SUPPORT. `NOP`, `PLAN` and `FFT` as whole next states: the length a plan rounds up to, what either end of `PLAN`
leaves, what the transform reads and writes (40_fft.md R131 to R137). -/

namespace Sys2Proof.Proofs

open Sys2Proof.Machine Sys2Proof.Laws Sys2Proof.Claims

/-! ### The least power of two -/

/-- The exponent of `next_pow2` is the logarithm to the base 2, rounded up (40_fft.md R134). -/
theorem nextPow2_eq_two_pow_clog (m : Nat) : nextPow2 m = 2 ^ Nat.clog 2 m := by
  rw [nextPow2]
  split
  · rename_i h
    rw [Nat.clog_of_right_le_one h, pow_zero]
  · rename_i h
    congr 1
    refine eq_of_forall_ge_iff fun k => ?_
    rw [Nat.clog_le_iff_le_pow Nat.one_lt_two, Nat.succ_le_iff, Nat.log2_lt (by omega)]
    omega

/-- `next_pow2 m` and `m` have the same powers of two above them. -/
theorem nextPow2_le_two_pow_iff {m k : Nat} : nextPow2 m ≤ 2 ^ k ↔ m ≤ 2 ^ k := by
  rw [nextPow2_eq_two_pow_clog, Nat.pow_le_pow_iff_right Nat.one_lt_two, Nat.clog_le_iff_le_pow Nat.one_lt_two]

/-- The power of two with the least exponent is `next_pow2`. -/
theorem nextPow2_eq_of_least {m k : Nat} (h : m ≤ 2 ^ k) (hleast : ∀ j, m ≤ 2 ^ j → k ≤ j) :
    nextPow2 m = 2 ^ k := by
  rw [nextPow2_eq_two_pow_clog,
    le_antisymm (Nat.clog_le_of_le_pow h) (hleast _ (Nat.le_pow_clog Nat.one_lt_two m))]

/-- Settles O11: the power is the one of the logarithm rounded up; the examples are evaluated. -/
theorem nextPow2IsLeast : Obligations.NextPow2IsLeast := by
  refine ⟨fun m _ => ⟨Nat.clog 2 m, nextPow2_eq_two_pow_clog m, Nat.le_pow_clog Nat.one_lt_two m, fun j hj => ?_⟩,
    by decide, by decide, by decide, by decide, by decide, by decide⟩
  rw [← nextPow2_eq_two_pow_clog]
  exact nextPow2_le_two_pow_iff.2 hj

/-! ### The checks of a plan -/

/-- What fails the check of the configuration (40_fft.md R132). -/
theorem planConfigBad_iff (fs t : Nat) :
    planConfigBad fs t = true ↔ fs = 0 ∨ planSpb fs < 2 ∨ planM fs t < 2 := by
  simp only [planConfigBad, Bool.or_eq_true, decide_eq_true_eq, or_assoc]

/-- A plan is too long when no power of two from its `M` on fits (40_fft.md R132, R134). -/
theorem planTooLong_iff (fs t nMax : Nat) :
    planTooLong fs t nMax = true ↔ ∀ k, planM fs t ≤ 2 ^ k → nMax < 2 ^ k := by
  rw [planTooLong, decide_eq_true_eq]
  refine ⟨fun h k hk => h.trans_le (nextPow2_le_two_pow_iff.2 hk), fun h => ?_⟩
  rw [nextPow2_eq_two_pow_clog]
  exact h _ (Nat.le_pow_clog Nat.one_lt_two _)

/-- A configuration that passes both checks is latched. -/
theorem execPlan_latches {s : State} (hbad : planConfigBad s.sampleRate.toNat s.intervalUs.toNat = false)
    (hlong : planTooLong s.sampleRate.toNat s.intervalUs.toNat s.nMax = false) :
    execPlan s = .next (finish (planLatch s)) := by
  rcases execPlan_cases s with ⟨h, -⟩ | ⟨-, h, -⟩ | ⟨-, -, h⟩
  · rw [hbad] at h
    cases h
  · rw [hlong] at h
    cases h
  · exact h

/-! ### What either end of a plan leaves -/

/-- Taking an error changes `STATUS` alone (60_exceptions.md R261, 10_state.md R38). -/
theorem raiseErr_eq_onlyErred (c : ErrCode) (s : State) : raiseErr c s = onlyErred c.code s := by
  rw [raiseErr, recordErr, onlyErred, erred]
  split
  · rename_i h
    simp only [finish, h]
  · rfl

/-- Freed slots read 0. -/
theorem allFree_map_freed (slots : List Slot) (d : Nat) : allFree (slots.map fun x => x.freed d) := by
  intro x hx
  obtain ⟨y, -, rfl⟩ := List.mem_map.1 hx
  exact freed_eq_empty y d

/-- A failed `PLAN` as a whole (40_fft.md R133). -/
theorem planFail_eq (c : ErrCode) (s : State) :
    planFail c s =
      { s with
        m := 0, n := 0, spb := 0, fs := 0, dt := 0, npeaks := 0, draw := s.draw + 1
        slots := s.slots.map fun x => x.freed s.draw
        status := { erred c.code s.status with planValid := false, fvecValid := false, peaksValid := false } } := by
  rw [planFail, raiseErr_eq_onlyErred]
  rfl

/-- A successful `PLAN` as a whole (40_fft.md R132). -/
theorem finish_planLatch_eq (s : State) :
    finish (planLatch s) =
      { s with
        m := BitVec.ofNat 32 (planM s.sampleRate.toNat s.intervalUs.toNat)
        n := BitVec.ofNat 32 (nextPow2 (planM s.sampleRate.toNat s.intervalUs.toNat))
        spb := BitVec.ofNat 32 (planSpb s.sampleRate.toNat)
        fs := s.sampleRate
        dt := planDt s.intervalUs.toNat (planM s.sampleRate.toNat s.intervalUs.toNat)
        npeaks := 0, draw := s.draw + 1
        slots := s.slots.map fun x => x.freed s.draw
        status := { ended s.status with planValid := true, fvecValid := false, peaksValid := false } } := rfl

/-- Settles O9: the first check that fails names the error, and either one is a `planFail`. -/
theorem planFailureClears : Obligations.PlanFailureClears := by
  rintro s _ _ _ rfl rfl rfl c hc
  have hfail : ∃ e : ErrCode, e.code = c ∧ exec .plan s = .next (planFail e s) := by
    rcases hc with ⟨hbad, rfl⟩ | ⟨hgood, hlong, rfl⟩
    · exact ⟨.config, rfl, if_pos ((planConfigBad_iff _ _).2 hbad)⟩
    · exact ⟨.plan, rfl,
        (if_neg (mt (planConfigBad_iff _ _).1 hgood)).trans (if_pos ((planTooLong_iff _ _ _).2 hlong))⟩
  obtain ⟨e, rfl, he⟩ := hfail
  exact ⟨_, he.trans (congrArg _ (planFail_eq e s)), List.length_map _, allFree_map_freed _ _⟩

/-- Settles O12: both checks pass, and the latched `N` is the least power of two. -/
theorem planLatchesConfiguration : Obligations.PlanLatchesConfiguration := by
  rintro s _ _ _ k rfl rfl rfl hspb hm hk hleast hmax
  have hbad : planConfigBad s.sampleRate.toNat s.intervalUs.toNat = false :=
    (planConfigBad_eq_false_iff _ _).2 ⟨by omega, hspb, hm⟩
  have hn : nextPow2 (planM s.sampleRate.toNat s.intervalUs.toNat) = 2 ^ k := nextPow2_eq_of_least hk hleast
  have hlong : planTooLong s.sampleRate.toNat s.intervalUs.toNat s.nMax = false := by
    simpa [planTooLong, hn] using hmax
  refine ⟨_, ?_, List.length_map _, allFree_map_freed s.slots s.draw⟩
  rw [← hn]
  exact (execPlan_latches hbad hlong).trans (congrArg _ (finish_planLatch_eq s))

/-! ### The transform -/

/-- A successful `FFT` as a whole (40_fft.md R136). -/
theorem finish_fftEffect_eq (s : State) :
    finish (fftEffect s) =
      { s with
        fvec := (fftEffect s).fvec, npeaks := 0, draw := s.draw + 1
        status := { ended s.status with fvecValid := true, peaksValid := false } } := rfl

@[simp] theorem length_fft (len : Nat) (x : List C64) : (NUM.fft len x).length = len := by simp [NUM, fftFree]

theorem getD_fft {len k : Nat} (x : List C64) (z : C64) (h : k < len) :
    (NUM.fft len x).getD k z = fftBin len x k := by
  simp [NUM, fftFree, h]

/-- `FFT` writes the entries below `N` alone (40_fft.md R136). -/
theorem sameBeyond_fftEffect (s : State) : sameBeyond (16 * s.n.toNat) s.fvec (fftEffect s).fvec := by
  intro a ha
  rw [fftEffect_fvec, readByte_putC64s _ _ _ _ (.inr (by rw [length_fft]; omega)), restamp_cells]

/-- Settles O13: the entries by `fvecAt_fftEffect`, the bytes beyond them by `sameBeyond_fftEffect`. -/
theorem fftWritesTransform : Obligations.FftWritesTransform := by
  intro s hplan
  refine ⟨(fftEffect s).fvec, ?_, fun k hk => ?_, sameBeyond_fftEffect s⟩
  · rw [exec_fft_of_planValid hplan, finish_fftEffect_eq]
  · rw [getD_fft _ _ hk]
    exact fvecAt_fftEffect hk

/-- The transform's input depends on the samples below `M` and on the two lengths alone (40_fft.md R135). -/
theorem fftInput_congr_samples {s t : State} (hm : t.m = s.m) (hn : t.n = s.n)
    (h : ∀ i, i < s.m.toNat → t.ibufAt i = s.ibufAt i) : fftInput t = fftInput s := by
  rw [fftInput, fftInput, hm, hn]
  refine List.map_congr_left fun i _ => ?_
  split
  · exact h i (by assumption)
  · rfl

/-- `FFT` uses the buffer through the transform's input and passes it on. -/
theorem fftEffect_with_ibuf {s : State} {ibuf : Region} (h : fftInput { s with ibuf := ibuf } = fftInput s) :
    fftEffect { s with ibuf := ibuf } = { fftEffect s with ibuf := ibuf } := by
  rw [fftEffect, h]
  rfl

/-- Settles O14: buffers that agree below `M` give the transform one input. -/
theorem fftIgnoresSamplesBeyondM : Obligations.FftIgnoresSamplesBeyondM := by
  intro s t ibuf hplan hsamples hexec
  rw [exec_fft_of_planValid hplan] at hexec
  cases hexec
  have hinput : fftInput { s with ibuf := ibuf } = fftInput s := fftInput_congr_samples rfl rfl hsamples
  rw [exec_fft_of_planValid (s := { s with ibuf := ibuf }) hplan, fftEffect_with_ibuf hinput]
  rfl

/-! ### The input buffer -/

@[simp] theorem planFail_ibuf (c : ErrCode) (s : State) : (planFail c s).ibuf = s.ibuf := by rw [planFail_eq]

/-- Settles O16: no outcome of a command has another `IBUF`. -/
theorem noCommandWritesIbuf : Obligations.NoCommandWritesIbuf := by
  intro i s t h
  rcases exec_cases i s with ⟨c, -, he⟩ | ⟨c, he⟩ | ⟨-, he⟩ | ⟨-, -, -, he⟩ | ⟨-, -, he⟩ | ⟨-, -, -, he⟩ |
    ⟨k, p, -, -, -, -, -, -, he⟩ | ⟨k, p, -, -, -, -, -, -, -, he⟩ | ⟨k, -, -, -, -, he⟩ | ⟨k, -, -, he⟩ <;>
    rw [he] at h <;> cases h
  · exact planFail_ibuf c s
  · exact raiseErr_ibuf c s
  · exact finish_ibuf s
  · exact planLatch_ibuf s
  · exact fftEffect_ibuf s
  · exact peaksEffect_ibuf s
  · exact ctxinitEffect_ibuf k p s
  · exact accumEffect_ibuf k p s
  · exact decodeEffect_ibuf k s
  · exact freeSlot_ibuf k s

/-! ### The command that does nothing -/

/-- `NOP` ends and changes nothing else (40_fft.md R131). -/
theorem exec_nop (s : State) : exec .nop s = .next { s with status := ended s.status } := rfl

/-- Settles O10: a placed command runs next, and the ended status of the reset state is evaluated. -/
theorem nopOnlyCompletes : Obligations.NopOnlyCompletes :=
  ⟨exec_nop, _, (placedCommandRunsNext State.reset .nop rfl).trans (exec_nop _), by decide⟩

end Sys2Proof.Proofs
end

section
/-! SUPPORT. The mixer and accumulator family: what a bulk write of a region leaves, the checks that pass, the three
commands as whole next states, and the mixers of the valid slots over one step (41_mixer_accumulator.md R151 to R161). -/

namespace Sys2Proof.Proofs

open Sys2Proof.Machine Sys2Proof.Safety Sys2Proof.Laws Sys2Proof.Claims

/-! ### Bulk writes from the first entry on -/

theorem c64_putC64s_first (r : Region) (base : Nat) {j : Nat} {xs : List C64} (h : j < xs.length) :
    (r.putC64s 0 xs).c64 base j = xs[j] := by
  simpa only [Nat.zero_add] using putC64s_c64 r base 0 j xs h

theorem sameBeyond_restamp_putC64s (r : Region) (d : Nat) {xs : List C64} {m : Nat} (h : xs.length = m) :
    sameBeyond (16 * m) r ((r.restamp d).putC64s 0 xs) := by
  intro a ha
  rw [readByte_putC64s _ _ _ _ (.inr (by omega)), restamp_cells]

@[simp] theorem length_mixerElements (f : F64) (m : Nat) (dt : F64) : (mixerElements f m dt).length = m := by
  simp [mixerElements]

@[simp] theorem length_accumElements (k p : Nat) (s : State) : (accumElements k p s).length = s.m.toNat := by
  simp [accumElements]

theorem getElem_mixerElements {f dt : F64} {m j : Nat} (h : j < (mixerElements f m dt).length) :
    (mixerElements f m dt)[j] = NUM.mixer f j dt := by
  simp [mixerElements]

theorem getElem_accumElements {k p j : Nat} {s : State} (h : j < (accumElements k p s).length) :
    (accumElements k p s)[j] =
      accumElement (s.accAt k j) (s.ibufAt j) (s.peakAt p).value (s.mixerAt k j) := by
  simp [accumElements]

/-! ### A slot just claimed -/

/-- The mixer of a claimed slot holds the exponentials of the peak's frequency (41_mixer_accumulator.md R152). -/
theorem c64_claimedSlot_mixer (x : Slot) (e : PeakEntry) {m j : Nat} (dt : F64) (d base : Nat) (h : j < m) :
    (claimedSlot x e m dt d).mixer.c64 base j = NUM.mixer e.freq j dt := by
  have hj : j < (mixerElements e.freq m dt).length := by rwa [length_mixerElements]
  exact (c64_putC64s_first (x.mixer.restamp d) base hj).trans (getElem_mixerElements hj)

/-- The accumulator of a claimed slot starts from zero (41_mixer_accumulator.md R151). -/
theorem c64_claimedSlot_acc (x : Slot) (e : PeakEntry) {m j : Nat} (dt : F64) (d base : Nat) (h : j < m) :
    (claimedSlot x e m dt d).acc.c64 base j = C64.zero := by
  have hj : j < (List.replicate m C64.zero).length := by rwa [List.length_replicate]
  exact (c64_putC64s_first (x.acc.restamp d) base hj).trans (List.getElem_replicate hj)

theorem sameBeyond_claimedSlot_mixer (x : Slot) (e : PeakEntry) (m : Nat) (dt : F64) (d : Nat) :
    sameBeyond (16 * m) x.mixer (claimedSlot x e m dt d).mixer :=
  sameBeyond_restamp_putC64s x.mixer d (length_mixerElements e.freq m dt)

theorem sameBeyond_claimedSlot_acc (x : Slot) (e : PeakEntry) (m : Nat) (dt : F64) (d : Nat) :
    sameBeyond (16 * m) x.acc (claimedSlot x e m dt d).acc :=
  sameBeyond_restamp_putC64s x.acc d List.length_replicate

/-! ### The mixers of the valid slots -/

/-- What `MixersCurrent` says of one slot: when it is valid its mixer is that of its frequency offset. -/
def SlotMixerCurrent (m : Nat) (dt : F64) (k : Nat) (x : Slot) : Prop :=
  x.valid = true → ∀ j, j < m → x.mixer.c64 (RegionId.mixer k).base j = NUM.mixer x.freqOffset j dt

theorem mixersCurrent_iff (s : State) :
    MixersCurrent s ↔ ∀ k, SlotMixerCurrent s.m.toNat s.dt k (s.slot k) := Iff.rfl

theorem mixersCurrent_congr {s t : State} (hslots : t.slots = s.slots) (hm : t.m = s.m) (hdt : t.dt = s.dt)
    (h : MixersCurrent s) : MixersCurrent t := by
  rw [mixersCurrent_iff] at h ⊢
  intro k
  rw [slot_congr hslots, hm, hdt]
  exact h k

/-- Where every slot is free there is no mixer to speak of. -/
theorem mixersCurrent_of_allFree {s : State} (h : allFree s.slots) : MixersCurrent s := by
  intro k hv
  have hfree : ∃ r q, s.slot k = Slot.empty r q := by
    by_cases hk : k < s.nslots
    · exact h _ (slot_mem s k hk)
    · exact ⟨_, _, slot_beyond s k (by omega)⟩
  obtain ⟨r, q, he⟩ := hfree
  rw [he] at hv
  cases hv

/-- Writing one slot keeps the mixers when that slot's is as it should be. -/
theorem mixersCurrent_setSlot {s : State} {k : Nat} {y : Slot} (h : MixersCurrent s) (hk : k < s.nslots)
    (hy : SlotMixerCurrent s.m.toNat s.dt k y) : MixersCurrent (s.setSlot k y) := by
  rw [mixersCurrent_iff] at h ⊢
  intro i
  by_cases hi : i = k
  · subst hi
    rw [slot_setSlot_same s i y hk]
    exact hy
  · rw [slot_setSlot_other s k i y hi]
    exact h i

theorem slotMixerCurrent_freed (m : Nat) (dt : F64) (k : Nat) (x : Slot) (d : Nat) :
    SlotMixerCurrent m dt k (x.freed d) := by
  intro hv
  rw [freed_valid] at hv
  cases hv

theorem slotMixerCurrent_claimedSlot (m : Nat) (dt : F64) (k : Nat) (x : Slot) (e : PeakEntry) (d : Nat) :
    SlotMixerCurrent m dt k (claimedSlot x e m dt d) :=
  fun _ _ hj => c64_claimedSlot_mixer x e dt d _ hj

/-- `DECODE` touches neither the mixer nor what it was made of. -/
theorem slotMixerCurrent_decodedSlot {m : Nat} {dt : F64} {k : Nat} {x : Slot} (h : SlotMixerCurrent m dt k x)
    (bits : List Bool) : SlotMixerCurrent m dt k (decodedSlot x bits) := by
  rw [decodedSlot]
  split <;> exact h

theorem mixersCurrent_ctxinit {s : State} (h : MixersCurrent s) {k : Nat} (hk : k < s.nslots) (p : Nat) :
    MixersCurrent (ctxinitEffect k p s) :=
  mixersCurrent_congr (bumpDraw_slots _) rfl rfl
    (mixersCurrent_setSlot h hk (slotMixerCurrent_claimedSlot _ _ _ _ _ _))

/-- `ACCUM` touches neither the mixer nor what it was made of. -/
theorem mixersCurrent_accum {s : State} (h : MixersCurrent s) {k : Nat} (hk : k < s.nslots) (p : Nat) :
    MixersCurrent (accumEffect k p s) := by
  rw [accumEffect]
  split
  · exact h
  · exact mixersCurrent_congr (bumpDraw_slots _) rfl rfl (mixersCurrent_setSlot h hk (h k))

theorem mixersCurrent_decode {s : State} (h : MixersCurrent s) {k : Nat} (hk : k < s.nslots) :
    MixersCurrent (decodeEffect k s) := by
  rw [decodeEffect]
  split
  · exact h
  · exact mixersCurrent_congr (setResult_slots _ _) rfl rfl
      (mixersCurrent_setSlot h hk (slotMixerCurrent_decodedSlot (h k) _))

theorem mixersCurrent_ctxfree {s : State} (h : MixersCurrent s) {k : Nat} (hk : k < s.nslots) :
    MixersCurrent (freeSlot k s) :=
  mixersCurrent_congr (bumpDraw_slots _) rfl rfl (mixersCurrent_setSlot h hk (slotMixerCurrent_freed _ _ _ _ _))

theorem mixersCurrent_raiseErr (c : ErrCode) {s : State} (h : MixersCurrent s) : MixersCurrent (raiseErr c s) :=
  mixersCurrent_congr (raiseErr_slots c s) (raiseErr_m c s) (raiseErr_dt c s) h

/-- Reset leaves no slot valid. -/
theorem mixersCurrent_resetEffect (s : State) : MixersCurrent (resetEffect s) := by
  refine mixersCurrent_of_allFree fun x hx => ?_
  obtain ⟨_, -, rfl⟩ := List.mem_map.1 hx
  exact ⟨_, _, rfl⟩

/-- `PLAN` changes `M` and `DT`, on which mixers depend, and frees every slot; the other commands keep both. -/
theorem mixersCurrent_exec {i : Instr} {s t : State} (hs : MixersCurrent s) (h : exec i s = .next t) :
    MixersCurrent t := by
  rcases exec_cases i s with ⟨c, -, he⟩ | ⟨c, he⟩ | ⟨-, he⟩ | ⟨-, -, -, he⟩ | ⟨-, -, he⟩ | ⟨-, -, -, he⟩ |
    ⟨k, p, -, -, -, hk, -, -, he⟩ | ⟨k, p, -, -, -, hk, -, -, -, he⟩ | ⟨k, -, -, hk, -, he⟩ | ⟨k, -, hk, he⟩ <;>
    rw [he] at h <;> cases h
  · rw [planFail_eq]
    exact mixersCurrent_of_allFree (allFree_map_freed _ _)
  · exact mixersCurrent_raiseErr c hs
  · exact hs
  · exact mixersCurrent_of_allFree (allFree_map_freed _ _)
  · exact hs
  · exact hs
  · exact mixersCurrent_ctxinit hs hk p
  · exact mixersCurrent_accum hs hk p
  · exact mixersCurrent_decode hs hk
  · exact mixersCurrent_ctxfree hs hk

theorem mixersCurrent_hostRead (a : BitVec 32) (n : Nat) {s : State} (hs : MixersCurrent s) :
    MixersCurrent (hostRead a n s) := by
  rcases hostRead_cases a n s with ⟨-, h⟩ | ⟨_, _, -, -, h⟩ | ⟨v, h⟩ <;> rw [h] <;> exact hs

theorem mixersCurrent_writeLocation (loc : Location) (v : Word) {s : State} (hs : MixersCurrent s) :
    MixersCurrent (writeLocation loc v s) := by
  rcases writeLocation_cases loc v s with h | ⟨-, h⟩ | ⟨-, h⟩ | ⟨-, h⟩ | ⟨off, -, h⟩ | ⟨_, _, _, _, h⟩ <;> rw [h]
  · exact hs
  · exact hs
  · exact mixersCurrent_congr (writeStatus_slots v s) (writeStatus_m v s) (writeStatus_dt v s) hs
  · exact mixersCurrent_resetEffect s
  · exact hs
  · exact hs

theorem mixersCurrent_hostWrite (a : BitVec 32) (n : Nat) (v : Word) {s : State} (hs : MixersCurrent s) :
    MixersCurrent (hostWrite a n v s) := by
  rcases hostWrite_cases a n v s with ⟨-, h⟩ | ⟨_, -, -, -, h⟩ | ⟨loc, -, -, h⟩ <;> rw [h]
  · exact hs
  · exact hs
  · exact mixersCurrent_writeLocation loc v hs

/-- Settles O52: `CTXINIT` writes the mixer with the frequency it latches, and whatever changes what mixers depend on frees
every slot. -/
theorem stepKeepsMixersCurrent : Obligations.StepKeepsMixersCurrent := fun _ _ =>
  step_induction (fun _ _ hs => hs) (fun _ _ _ => mixersCurrent_exec) (fun _ => mixersCurrent_raiseErr .illCmd)
    (fun a n _ => mixersCurrent_hostRead a n) (fun a n v _ => mixersCurrent_hostWrite a n v)
    (fun s _ => mixersCurrent_resetEffect s)

/-! ### Claiming a slot -/

/-- With a valid plan and peak list, a free slot and a listed peak, `CTXINIT` performs its effect and ends. -/
theorem exec_ctxinit_of_free {s : State} {k p : Nat} (hplan : s.status.planValid = true)
    (hpeaks : s.status.peaksValid = true) (hk : k < s.nslots) (hp : p < s.npeaks.toNat)
    (hfree : (s.slot k).valid = false) : exec (.ctxinit k p) s = .next (finish (ctxinitEffect k p s)) :=
  congrArg _ (completeWith_ok (ctxinitEffect k p) s
    (by simp [checkPlan, checkPeaks, checkSlotIdx, checkPeakIdx, checkSlotFree, hplan, hpeaks, hk, hp, hfree]))

/-- A successful `CTXINIT` as a whole (41_mixer_accumulator.md R151). -/
theorem finish_ctxinitEffect_eq (k p : Nat) (s : State) :
    finish (ctxinitEffect k p s) =
      { s with
        status := ended s.status, draw := s.draw + 1
        slots := s.slots.set k (claimedSlot (s.slot k) (s.peakAt p) s.m.toNat s.dt s.draw) } := rfl

/-- Settles O22: the slot is a `claimedSlot`, and the exponential is what `cisFree` is where the spec fixes it. -/
theorem ctxinitClaimsSlot : Obligations.CtxinitClaimsSlot := by
  refine ⟨fun s k p hplan hpeaks hk hp hfree => ?_, fun theta => ⟨fun hzero => ?_, cisFree_nonFinite,
    fun _ _ _ => rfl⟩⟩
  · exact ⟨(claimedSlot (s.slot k) (s.peakAt p) s.m.toNat s.dt s.draw).mixer,
      (claimedSlot (s.slot k) (s.peakAt p) s.m.toNat s.dt s.draw).acc,
      (exec_ctxinit_of_free hplan hpeaks hk hp hfree).trans (congrArg _ (finish_ctxinitEffect_eq k p s)),
      fun j hj => ⟨c64_claimedSlot_mixer _ _ _ _ _ hj, c64_claimedSlot_acc _ _ _ _ _ hj⟩,
      sameBeyond_claimedSlot_mixer _ _ _ _ _, sameBeyond_claimedSlot_acc _ _ _ _ _⟩
  · obtain ⟨hre, sign, him⟩ := cisFree_zero hzero
    exact ⟨hre, (congrArg isZero him).trans (isZero_fzero sign)⟩

/-! ### Accumulating -/

/-- A check that passes has no effect on the completion. -/
theorem completeWith_cons_of_passes {c : Bool × ErrCode} (checks : List (Bool × ErrCode)) (effect : State → State)
    (s : State) (h : c.1 = false) : completeWith (c :: checks) effect s = completeWith checks effect s := by
  obtain ⟨b, e⟩ := c
  subst h
  rfl

section
variable {s : State} {k p : Nat}

/-- With a valid plan and peak list, a valid slot and a listed peak, the bins alone decide what `ACCUM` does. -/
theorem exec_accum_of_valid (hplan : s.status.planValid = true) (hpeaks : s.status.peaksValid = true)
    (hk : k < s.nslots) (hp : p < s.npeaks.toNat) (hv : (s.slot k).valid = true) :
    exec (.accum k p) s = .next (completeWith [checkBin k p s] (accumEffect k p) s) := by
  rw [exec, execAccum, completeWith_cons_of_passes _ _ _ (by simp [checkPlan, hplan]),
    completeWith_cons_of_passes _ _ _ (by simp [checkPeaks, hpeaks]),
    completeWith_cons_of_passes _ _ _ (by simp [checkSlotIdx, hk]),
    completeWith_cons_of_passes _ _ _ (by simp [checkPeakIdx, hp]),
    completeWith_cons_of_passes _ _ _ (by simp [checkSlotValid, hv])]

/-- A peak of the slot's bin passes the last check of `ACCUM`. -/
theorem completeWith_checkBin_of_eq (effect : State → State) (hbin : (s.peakAt p).bin = (s.slot k).bin) :
    completeWith [checkBin k p s] effect s = finish (effect s) :=
  completeWith_ok effect s (by simp [checkBin, hbin])

/-- A peak of another bin fails it (41_mixer_accumulator.md R155). -/
theorem completeWith_checkBin_of_ne (effect : State → State) (hbin : (s.peakAt p).bin ≠ (s.slot k).bin) :
    completeWith [checkBin k p s] effect s = raiseErr .binMismatch s :=
  completeWith_err effect s (by simp [checkBin, firstError_cons, hbin])

/-- A successful `ACCUM` on a slot that is not decoded, as a whole (41_mixer_accumulator.md R154, R157). -/
theorem finish_accumEffect_of_not_decoded (p : Nat) (hd : (s.slot k).decoded = false) :
    finish (accumEffect k p s) =
      { s with
        status := ended s.status, draw := s.draw + 1, slots := s.slots.set k (accumulatedSlot k p s) } := by
  rw [accumEffect, if_neg (by simp [hd])]
  rfl

/-- `ACCUM` writes nothing once the slot is decoded (41_mixer_accumulator.md R155). -/
theorem accumEffect_of_decoded (p : Nat) (hd : (s.slot k).decoded = true) : accumEffect k p s = s := if_pos hd

/-- The accumulator after `ACCUM` (41_mixer_accumulator.md R154, R159). -/
theorem c64_accumulatedSlot_acc (k p base : Nat) {j : Nat} (hj : j < s.m.toNat) :
    (accumulatedSlot k p s).acc.c64 base j =
      accumElement (s.accAt k j) (s.ibufAt j) (s.peakAt p).value (s.mixerAt k j) := by
  have hlen : j < (accumElements k p s).length := by rwa [length_accumElements]
  exact (c64_putC64s_first ((s.slot k).acc.restamp s.draw) base hlen).trans (getElem_accumElements hlen)

theorem sameBeyond_accumulatedSlot_acc (s : State) (k p : Nat) :
    sameBeyond (16 * s.m.toNat) (s.slot k).acc (accumulatedSlot k p s).acc :=
  sameBeyond_restamp_putC64s (s.slot k).acc s.draw (length_accumElements k p s)

end

/-- Settles O23: the slot is the `accumulatedSlot`, whose accumulator is read entry by entry. -/
theorem accumAddsNormalisedSamples : Obligations.AccumAddsNormalisedSamples := by
  intro s k p hplan hpeaks hk hp hv hd hbin
  refine ⟨(accumulatedSlot k p s).acc, ?_, fun j hj => c64_accumulatedSlot_acc k p _ hj,
    sameBeyond_accumulatedSlot_acc s k p⟩
  rw [exec_accum_of_valid hplan hpeaks hk hp hv, completeWith_checkBin_of_eq _ hbin,
    finish_accumEffect_of_not_decoded p hd]
  rfl

/-- Settles O24: a decoded slot still has its bin checked, and then `ACCUM` has no effect. -/
theorem accumOnDecodedSlotIsNoOp : Obligations.AccumOnDecodedSlotIsNoOp := by
  intro s k p hplan hpeaks hk hp hv hd
  rw [exec_accum_of_valid hplan hpeaks hk hp hv]
  refine ⟨fun hbin => ?_, fun hbin => ?_⟩
  · rw [completeWith_checkBin_of_eq _ hbin, accumEffect_of_decoded p hd]
    rfl
  · rw [completeWith_checkBin_of_ne _ hbin, raiseErr_eq_onlyErred]
    rfl

/-! ### Freeing a slot -/

/-- Freeing needs nothing but a slot in range (41_mixer_accumulator.md R160). -/
theorem exec_ctxfree_of_inRange {s : State} {k : Nat} (hk : k < s.nslots) :
    exec (.ctxfree k) s = .next (finish (freeSlot k s)) :=
  congrArg _ (completeWith_ok (freeSlot k) s (by simp [checkSlotIdx, hk]))

/-- A successful `CTXFREE` as a whole (41_mixer_accumulator.md R160, R161). -/
theorem finish_freeSlot_eq (k : Nat) (s : State) :
    finish (freeSlot k s) =
      { s with
        status := ended s.status, draw := s.draw + 1, slots := s.slots.set k ((s.slot k).freed s.draw) } := rfl

/-- Freeing a slot that is not valid leaves its regions (41_mixer_accumulator.md R160). -/
theorem freed_of_not_valid {x : Slot} (h : x.valid = false) (d : Nat) : x.freed d = Slot.empty x.mixer x.acc :=
  if_neg (by simp [h])

/-- Settles O25: the slot becomes an empty one, around its own regions when it was not valid. -/
theorem ctxfreeFreesSlot : Obligations.CtxfreeFreesSlot := by
  intro s k hk
  obtain ⟨mixer, acc, hfreed⟩ := freed_eq_empty (s.slot k) s.draw
  refine ⟨mixer, acc, ?_, fun hv => ?_⟩
  · rw [exec_ctxfree_of_inRange hk, finish_freeSlot_eq, hfreed]
  · rw [freed_of_not_valid hv] at hfreed
    exact ⟨(congrArg Slot.mixer hfreed).symm, (congrArg Slot.acc hfreed).symm⟩

end Sys2Proof.Proofs
end

section
/-! SUPPORT. `DECODE`: one sample through the detector rule by rule, the samples a number of bits takes, what the slicer
makes of a mean that is no number to exceed, the magnitudes of zeros, and the command as a whole next state
(42_slicer_mfm.md R171 to R185). -/

namespace Sys2Proof.Proofs

open Sys2Proof.Machine Sys2Proof.Laws Sys2Proof.Claims

/-! ### One sample, rule by rule -/

section
variable {spb : Nat} {d : Detector} {v : Slice}

/-- After 256 bits nothing more happens (42_slicer_mfm.md R180). -/
theorem detector_step_of_complete (hlen : d.bits.length = 256) : d.step spb v = d := if_pos hlen

/-- While the window is not full it is not looked at (42_slicer_mfm.md R176). -/
theorem detector_step_of_not_full (hlen : d.bits.length ≠ 256) (hfull : ¬4 ≤ (d.push v).fill) :
    d.step spb v = d.push v :=
  (if_neg hlen).trans (if_pos (not_le.1 hfull))

/-- A sample to be skipped is counted (42_slicer_mfm.md R178). -/
theorem detector_step_of_skip (hlen : d.bits.length ≠ 256) (hfull : 4 ≤ (d.push v).fill) (hskip : 0 < d.skip) :
    d.step spb v = { d.push v with skip := d.skip - 1 } :=
  (if_neg hlen).trans ((if_neg (not_lt.2 hfull)).trans (if_pos hskip))

/-- A full window with no sample left to skip is inspected (42_slicer_mfm.md R176). -/
theorem detector_step_of_inspection (hlen : d.bits.length ≠ 256) (hfull : 4 ≤ (d.push v).fill)
    (hskip : d.skip = 0) : d.step spb v = (d.push v).inspect spb :=
  (if_neg hlen).trans ((if_neg (not_lt.2 hfull)).trans (if_neg hskip.not_gt))

/-- A falling edge at mid-window is the sync (42_slicer_mfm.md R177). -/
theorem inspect_of_sync (hs : d.synced = false) (h1 : d.w1 = .high) (h2 : d.w2 = .low) :
    d.inspect spb = { d with bits := [true], synced := true, skip := spb - 1 } := by
  rw [Detector.inspect, if_neg (by simp [hs]), if_pos ⟨h1, h2⟩]

/-- Before the sync nothing else is looked for (42_slicer_mfm.md R177). -/
theorem inspect_of_no_sync (hs : d.synced = false) (h : ¬(d.w1 = .high ∧ d.w2 = .low)) : d.inspect spb = d := by
  rw [Detector.inspect, if_neg (by simp [hs]), if_neg h]

/-- After the sync a transition gives a bit and a skip (42_slicer_mfm.md R178, R181). -/
theorem inspect_of_transition (hs : d.synced = true) {k : Nat} {before : Slice}
    (h : d.findTransition = some (k, before)) :
    d.inspect spb = { d with bits := d.bits ++ [decide (before = .high)], skip := spb + k - 3 } := by
  rw [Detector.inspect, if_pos hs, h]

/-- After the sync a window without a transition gives nothing (42_slicer_mfm.md R179). -/
theorem inspect_of_no_transition (hs : d.synced = true) (h : d.findTransition = none) : d.inspect spb = d := by
  rw [Detector.inspect, if_pos hs, h]

/-! The order of the search is 2, 1, 3 (42_slicer_mfm.md R178). -/

theorem findTransition_two (h : d.w1 ≠ d.w2) : d.findTransition = some (2, d.w1) := if_pos h

theorem findTransition_one (h2 : d.w1 = d.w2) (h1 : d.w0 ≠ d.w1) : d.findTransition = some (1, d.w0) :=
  (if_neg (not_not.2 h2)).trans (if_pos h1)

theorem findTransition_three (h2 : d.w1 = d.w2) (h1 : d.w0 = d.w1) (h3 : d.w2 ≠ d.w3) :
    d.findTransition = some (3, d.w2) :=
  (if_neg (not_not.2 h2)).trans ((if_neg (not_not.2 h1)).trans (if_pos h3))

theorem findTransition_none (h2 : d.w1 = d.w2) (h1 : d.w0 = d.w1) (h3 : d.w2 = d.w3) : d.findTransition = none :=
  (if_neg (not_not.2 h2)).trans ((if_neg (not_not.2 h1)).trans (if_neg (not_not.2 h3)))

end

/-! ### The bits found in a vector of magnitudes -/

theorem mfmDecode_of_mean_zero {norm : List F64} (spb : Nat) (h : feq (fmean norm) 0#64 = true) :
    mfmDecode norm spb = [] := if_pos h

theorem mfmDecode_of_mean_ne_zero {norm : List F64} (spb : Nat) (h : feq (fmean norm) 0#64 = false) :
    mfmDecode norm spb = detect spb (norm.map (slice (fmean norm))) := if_neg (by simp [h])

/-! ### Samples and bits -/

/-- What `n` samples allow the detector to have found (42_slicer_mfm.md R180): a bit needs a full window and, after the
bit before it, at least `SPB - 1` samples, of which the present skip count names those still to come. -/
structure WithinSamples (spb n : Nat) (d : Detector) : Prop where
  fill : d.fill ≤ n
  synced : d.synced = true → d.bits ≠ []
  found : d.bits ≠ [] → 4 + d.bits.length * (spb - 1) ≤ n + (spb - 1)
  next : d.bits ≠ [] → 4 + d.bits.length * (spb - 1) ≤ n + d.skip + 1

theorem withinSamples_start (spb : Nat) : WithinSamples spb 0 Detector.start where
  fill := le_rfl
  synced h := by cases h
  found h := absurd rfl h
  next h := absurd rfl h

theorem push_fill_le (d : Detector) (v : Slice) : (d.push v).fill ≤ d.fill + 1 := by
  rw [push_fill]
  split <;> omega

/-- One more sample keeps the count of samples and bits. -/
theorem withinSamples_step {spb n : Nat} {d : Detector} (v : Slice) (h : WithinSamples spb n d) :
    WithinSamples spb (n + 1) (d.step spb v) := by
  obtain ⟨hfill, hsynced, hfound, hnext⟩ := h
  have hpush : (d.push v).fill ≤ n + 1 := (push_fill_le d v).trans (by omega)
  rcases detector_step_cases spb d v with ⟨-, he⟩ | ⟨-, ⟨-, he⟩ | ⟨-, hskip, he⟩ | ⟨hfull, -, -, he⟩ |
    ⟨k, before, -, hskip, hs, hk, he⟩⟩ <;> rw [he]
  · exact ⟨by omega, hsynced, fun hb => (hfound hb).trans (by omega), fun hb => (hnext hb).trans (by omega)⟩
  · refine ⟨hpush, hsynced, fun hb => (hfound hb).trans (by omega), fun hb => (hnext hb).trans ?_⟩
    rw [push_skip]
    omega
  · refine ⟨hpush, hsynced, fun hb => (hfound hb).trans (by omega), fun hb => (hnext hb).trans ?_⟩
    simp only
    omega
  · refine ⟨hpush, fun _ => List.cons_ne_nil _ _, fun _ => ?_, fun _ => ?_⟩ <;>
      simp only [List.length_singleton, Nat.one_mul] <;> omega
  · have hlast := hnext (hsynced hs)
    have hk1 := (findTransition_range hk).1
    have hne : d.bits ++ [decide (before = .high)] ≠ [] := List.append_ne_nil_of_right_ne_nil _ (List.cons_ne_nil _ _)
    refine ⟨hpush, fun _ => hne, fun _ => ?_, fun _ => ?_⟩ <;>
      simp only [List.length_append, List.length_singleton, Nat.add_one_mul] <;> omega

theorem withinSamples_foldl {spb n : Nat} {d : Detector} (h : WithinSamples spb n d) (slices : List Slice) :
    WithinSamples spb (n + slices.length) (slices.foldl (Detector.step spb) d) := by
  induction slices generalizing n d with
  | nil => exact h
  | cons v slices ih =>
    have hrest := ih (withinSamples_step v h)
    rwa [Nat.add_right_comm n 1] at hrest

/-- Settles O31: the count of samples and bits holds at the start and over every sample. -/
theorem detectorNeedsEnoughSamples : Obligations.DetectorNeedsEnoughSamples := by
  intro norm spb _ hne
  have hmean : feq (fmean norm) 0#64 = false :=
    Bool.eq_false_iff.2 fun h => hne (mfmDecode_of_mean_zero spb h)
  rw [mfmDecode_of_mean_ne_zero spb hmean] at hne ⊢
  have hfound := (withinSamples_foldl (withinSamples_start spb) (norm.map (slice (fmean norm)))).found hne
  rw [← detect, Nat.zero_add, List.length_map] at hfound
  have hfirst := Nat.le_mul_of_pos_left (spb - 1) (List.length_pos_iff.2 hne)
  rw [Nat.sub_mul, Nat.one_mul]
  omega

/-! ### A mean that nothing exceeds -/

/-- The detector while every sample was low: it has seen no transition. -/
structure AllLow (d : Detector) : Prop where
  w1 : d.w1 = .low
  w2 : d.w2 = .low
  w3 : d.w3 = .low
  synced : d.synced = false
  bits : d.bits = []

theorem allLow_push {d : Detector} (h : AllLow d) : AllLow (d.push .low) := ⟨h.w2, h.w3, rfl, h.synced, h.bits⟩

/-- Without a high sample there is no sync (42_slicer_mfm.md R177). -/
theorem allLow_step (spb : Nat) {d : Detector} (h : AllLow d) : AllLow (d.step spb .low) := by
  have hp := allLow_push h
  have hlen : d.bits.length ≠ 256 := by simp [h.bits]
  by_cases hfull : 4 ≤ (d.push .low).fill
  · rcases Nat.eq_zero_or_pos d.skip with hskip | hskip
    · rw [detector_step_of_inspection hlen hfull hskip, inspect_of_no_sync hp.synced (by simp [hp.w1])]
      exact hp
    · rw [detector_step_of_skip hlen hfull hskip]
      exact ⟨hp.w1, hp.w2, hp.w3, hp.synced, hp.bits⟩
  · rw [detector_step_of_not_full hlen hfull]
    exact hp

theorem detect_eq_nil_of_low (spb : Nat) {slices : List Slice} (h : ∀ v ∈ slices, v = .low) :
    detect spb slices = [] :=
  (List.foldlRecOn slices (Detector.step spb) (motive := AllLow) ⟨rfl, rfl, rfl, rfl, rfl⟩
    fun _ hd v hv => h v hv ▸ allLow_step spb hd).bits

/-- No magnitude exceeds a mean that is a NaN or `+inf` (42_slicer_mfm.md R174). -/
theorem slice_of_mean_noneAbove {mean : F64} (h : noneAbove mean) (x : F64) : slice mean x = .low :=
  if_neg (by simp [fgt_noneAbove x h])

theorem slice_of_isNaN (mean : F64) {x : F64} (h : isNaN x = true) : slice mean x = .low :=
  if_neg (by simp [fgt, h])

/-- Settles O29: below such a mean every sample is low, and the detector waits for a falling edge. -/
theorem meanNotFiniteDecodesNothing : Obligations.MeanNotFiniteDecodesNothing := by
  refine ⟨fun norm spb hmean => ?_, fun mean _ => slice_of_isNaN mean⟩
  have hnone : noneAbove (fmean norm) := hmean.imp_right fun h => h.trans (finf_eq false).symm
  rw [mfmDecode]
  split
  · rfl
  · refine detect_eq_nil_of_low spb fun v hv => ?_
    obtain ⟨x, -, rfl⟩ := List.mem_map.1 hv
    exact slice_of_mean_noneAbove hnone x

/-! ### The magnitudes of zeros -/

theorem isFinite_of_isZero {x : F64} (h : isZero x = true) : isFinite x = true := by
  rw [isFinite_iff, beq_iff_eq.1 h]
  decide

theorem isZero_fround_zero (sign : Bool) (d : Nat) : isZero (fround sign 0 d) = true := by
  have hmag : roundUnits 0 d = 0 := by simp [roundUnits]
  rw [fround, hmag]
  exact isZero_fzero sign

/-- The square of a zero is a zero. -/
theorem isZero_fmul_self {x : F64} (h : isZero x = true) : isZero (fmul x x) = true := by
  have hf := isFinite_of_isZero h
  rw [fmul_of_finite hf hf, (funits_eq_zero_iff x).2 h]
  exact isZero_fround_zero _ _

theorem isZero_fadd {x y : F64} (hx : isZero x = true) (hy : isZero y = true) : isZero (fadd x y) = true := by
  rw [fadd_of_finite (isFinite_of_isZero hx) (isFinite_of_isZero hy), (fint_eq_zero_iff x).2 hx,
    (fint_eq_zero_iff y).2 hy, if_pos (add_zero 0)]
  exact isZero_fzero _

theorem fsqrt_of_isZero {x : F64} (h : isZero x = true) : fsqrt x = x := by
  simp [fsqrt, (not_isNaN_not_isInf (isFinite_of_isZero h)).1, h]

/-- The magnitude of a zero is a zero (00_scope.md R19). -/
theorem isZero_cabs {x : C64} (hre : isZero x.re = true) (him : isZero x.im = true) : isZero (NUM.cabs x) = true := by
  have hsum := isZero_fadd (isZero_fmul_self hre) (isZero_fmul_self him)
  exact (congrArg isZero (fsqrt_of_isZero hsum)).trans hsum

/-- A zero divided by a value that is neither a NaN nor a zero is a zero. -/
theorem isZero_fdiv {x y : F64} (hx : isZero x = true) (hn : isNaN y = false) (hy : isZero y = false) :
    isZero (fdiv x y) = true := by
  have hxf := isFinite_of_isZero hx
  obtain ⟨hxn, hxi⟩ := not_isNaN_not_isInf hxf
  cases hi : isInf y
  · have hyf : isFinite y = true := by simp [isFinite_eq, hn, hi]
    rw [fdiv_of_finite hxf hyf hy, (funits_eq_zero_iff x).2 hx, Nat.zero_mul]
    exact isZero_fround_zero _ _
  · simp only [fdiv, hxn, hxi, hn, hi, Bool.or_self, Bool.false_eq_true, if_false, if_true]
    exact isZero_fzero _

/-- A count that is not zero converts to a value that is neither a NaN nor a zero, be it by overflow. -/
theorem u2f_of_ne_zero {n : Nat} (hn : n ≠ 0) : isNaN (u2f n) = false ∧ isZero (u2f n) = false := by
  have hone : 1 ≤ n * 2 ^ 1074 := Nat.mul_pos (Nat.pos_of_ne_zero hn) (by positivity)
  rw [u2f]
  rcases Nat.lt_or_ge (n * 2 ^ 1074) (overflowUnits * 1) with hlt | hover
  · obtain ⟨hfin, hmag, -⟩ := fround_finite false Nat.one_pos hlt
    refine ⟨(not_isNaN_not_isInf hfin).1, ?_⟩
    rw [← Bool.not_eq_true, ← funits_eq_zero_iff, funits_eq, hmag]
    exact (magUnits_roundUnits_pos Nat.one_pos hone).ne'
  · rw [fround_overflow false Nat.one_pos hover]
    decide

/-- The mean of zeros is a zero (00_scope.md R23). -/
theorem isZero_fmean {norm : List F64} (hne : norm ≠ []) (h : ∀ x ∈ norm, isZero x = true) :
    isZero (fmean norm) = true := by
  have hsum : isZero (norm.foldl fadd 0#64) = true :=
    List.foldlRecOn norm fadd (motive := (isZero · = true)) (by decide) fun _ hb x hx => isZero_fadd hb (h x hx)
  obtain ⟨hn, hz⟩ := u2f_of_ne_zero (List.length_eq_zero_iff.not.2 hne)
  exact isZero_fdiv hsum hn hz

/-- Both zeros equal `+0` (00_scope.md R15). -/
theorem feq_zero_of_isZero {x : F64} (h : isZero x = true) : feq x 0#64 = true := by
  have hn := (not_isNaN_not_isInf (isFinite_of_isZero h)).1
  have hkey : fkey x = 0 := by simp [fkey, beq_iff_eq.1 h]
  rw [feq, hn, hkey]
  decide

/-! ### The slot after a `DECODE` -/

theorem decodedSlot_of_incomplete (x : Slot) {bits : List Bool} (h : bits.length ≠ 256) :
    decodedSlot x bits = x.withFrame bits := if_neg h

theorem decodedSlot_of_complete (x : Slot) {bits : List Bool} (h : bits.length = 256) :
    decodedSlot x bits = (x.withFrame bits).withFields bits := if_pos h

/-- Every field of a frame of no bits is zero. -/
theorem field_nil (a n : Nat) : field [] a n = 0 := by
  induction n with
  | zero => rfl
  | succ n ih =>
    rw [field_succ, ih]
    rfl

theorem frameWord_nil (w : Nat) : frameWord [] w = 0 := by
  rw [frameWord, field_nil]
  rfl

/-- No bits leave an empty frame (42_slicer_mfm.md R184). -/
theorem decodedSlot_nil (x : Slot) :
    decodedSlot x [] = { x with bitcnt := 0, frame0 := 0, frame1 := 0, frame2 := 0, frame3 := 0 } := by
  rw [decodedSlot_of_incomplete x (by decide), Slot.withFrame]
  simp only [frameWord_nil]
  rfl

/-! ### The command as a whole -/

section
variable {s : State} {k : Nat}

/-- With a valid plan and a valid slot `DECODE` performs its effect and ends. -/
theorem exec_decode_of_valid (hplan : s.status.planValid = true) (hk : k < s.nslots) (hv : (s.slot k).valid = true) :
    exec (.decode k) s = .next (finish (decodeEffect k s)) :=
  congrArg _ (completeWith_ok (decodeEffect k) s (by simp [checkPlan, checkSlotIdx, checkSlotValid, hplan, hk, hv]))

/-- A successful `DECODE` of a slot that is not decoded, as a whole (42_slicer_mfm.md R171). -/
theorem finish_decodeEffect_of_not_decoded (hd : (s.slot k).decoded = false) :
    finish (decodeEffect k s) =
      { s with
        status := { ended s.status with result := (decodedSlot (s.slot k) (decodedBits k s)).decoded }
        slots := s.slots.set k (decodedSlot (s.slot k) (decodedBits k s)) } := by
  rw [decodeEffect, if_neg (by simp [hd])]
  rfl

theorem decodeEffect_of_decoded (hd : (s.slot k).decoded = true) : decodeEffect k s = setResult true s := if_pos hd

/-- With zeros in the accumulator the mean is 0 and no bit is found (42_slicer_mfm.md R184). -/
theorem decodedBits_of_zeros (hm : 1 ≤ s.m.toNat)
    (hz : ∀ j, j < s.m.toNat → isZero (s.accAt k j).re = true ∧ isZero (s.accAt k j).im = true) :
    decodedBits k s = [] := by
  refine mfmDecode_of_mean_zero _ (feq_zero_of_isZero (isZero_fmean ?_ fun x hx => ?_))
  · rw [normVector, Ne, List.map_eq_nil_iff, List.range_eq_nil]
    omega
  · obtain ⟨j, hj, rfl⟩ := List.mem_map.1 hx
    obtain ⟨hre, him⟩ := hz j (List.mem_range.1 hj)
    exact isZero_cabs hre him

end

/-- Settles O27: a decoded slot has only `RESULT` set. -/
theorem decodeOfDecodedSlotReportsOne : Obligations.DecodeOfDecodedSlotReportsOne := by
  intro s k hplan hk hv hd
  rw [exec_decode_of_valid hplan hk hv, decodeEffect_of_decoded hd]
  rfl

/-- Settles O28: no bit is found, and the frame of no bits is zero. -/
theorem decodeOfZeroAccumulatorFails : Obligations.DecodeOfZeroAccumulatorFails := by
  intro s k hplan hk hv hd hm hz
  have hresult : (decodedSlot (s.slot k) []).decoded = false := (congrArg Slot.decoded (decodedSlot_nil _)).trans hd
  rw [exec_decode_of_valid hplan hk hv, finish_decodeEffect_of_not_decoded hd, decodedBits_of_zeros hm hz, hresult,
    decodedSlot_nil]

/-- Settles O26: the slot is the `decodedSlot` of the bits found, and each clause about a sample is one rule of the
detector. -/
theorem decodeStoresFrame : Obligations.DecodeStoresFrame := by
  refine ⟨fun s k bits hplan hk hv hd hbits => ?_,
    fun norm spb => ⟨mfmDecode_of_mean_zero spb, mfmDecode_of_mean_ne_zero spb⟩, ⟨rfl, rfl, rfl, rfl⟩,
    fun spb a b c w0 v fill skip synced bits => ?_⟩
  · obtain rfl : bits = decodedBits k s := hbits
    have hle : (decodedBits k s).length ≤ Config.frameBits := (frameOk_mfmDecode _ _).length_le
    refine ⟨decodedSlot (s.slot k) (decodedBits k s), ?_, ?_, fun j => ?_, fun hlt => ?_, fun hfull => ?_⟩
    · rw [exec_decode_of_valid hplan hk hv, finish_decodeEffect_of_not_decoded hd]
    · rw [bitcnt_decodedSlot, toNat_bitcnt_withFrame _ hle]
    · rw [frameBit_decodedSlot, frameBit_withFrame _ hle]
    · rw [decodedSlot_of_incomplete _ hlt.ne]
      rfl
    · rw [decodedSlot_of_complete _ hfull, Slot.withFields, Slot.withFrame, hfull]
      rfl
  · have hlook := detector_step_of_inspection (spb := spb) (d := ⟨w0, a, b, c, fill, skip, synced, bits⟩) (v := v)
    refine ⟨detector_step_of_complete (d := ⟨w0, a, b, c, _, _, _, _⟩), fun hlen =>
      ⟨detector_step_of_not_full (d := ⟨w0, a, b, c, _, _, _, _⟩) hlen,
      detector_step_of_skip (d := ⟨w0, a, b, c, _, _, _, _⟩) hlen, fun hfull hskip hs hb hc => ?_,
      fun hfull hskip hs hno => ?_, fun hfull hskip hs h2 => ?_, fun hfull hskip hs h2 h1 => ?_,
      fun hfull hskip hs h1 h2 h3 => ?_, fun hfull hskip hs h1 h2 h3 => ?_⟩⟩ <;>
      refine (hlook hlen hfull hskip).trans ?_ <;> subst hskip hs
    · exact inspect_of_sync rfl hb hc
    · exact inspect_of_no_sync rfl hno
    · exact inspect_of_transition rfl (findTransition_two h2)
    · exact inspect_of_transition rfl (findTransition_one h2 h1)
    · exact inspect_of_transition rfl (findTransition_three h2 h1 h3)
    · exact inspect_of_no_transition rfl (findTransition_none h2 h1 h3)

end Sys2Proof.Proofs
end

section
/-! SUPPORT. The frame: what its bytes and fields are as parts of longer fields, and where the slot registers hold them
(43_crc16_frame.md R200 to R203, 10_state.md R62). -/

namespace Sys2Proof.Proofs

open Sys2Proof.Machine Sys2Proof.Laws Sys2Proof.Claims

/-- Settles O30: the bits the detector finds are always a frame as far as it was found. -/
theorem detectedFrameStartsWithOne : Obligations.DetectedFrameStartsWithOne := by
  intro norm spb
  obtain ⟨hlen, hfirst⟩ := frameOk_mfmDecode norm spb
  refine ⟨hlen, fun b rest hbits => ?_⟩
  rcases hfirst with hnil | ⟨tail, hone⟩
  · cases hnil.symm.trans hbits
  · cases hone.symm.trans hbits
    rfl

/-! ### Parts of a field -/

/-- The first bits of a field are its quotient by the weight of the others. -/
theorem field_shiftRight (bits : List Bool) (a n k : Nat) : field bits a (n + k) >>> k = field bits a n := by
  rw [Nat.shiftRight_eq_div_pow, field_add, Nat.add_comm, Nat.add_mul_div_right _ _ (Nat.two_pow_pos k),
    Nat.div_eq_of_lt (field_lt bits (a + n) k), Nat.zero_add]

/-- The last bits of a field are its remainder by their weight. -/
theorem field_mod (bits : List Bool) (a n k : Nat) : field bits a (n + k) % 2 ^ k = field bits (a + n) k := by
  rw [field_add, Nat.mul_add_mod_of_lt (field_lt bits (a + n) k)]

/-- Bits within a field are cut out of it by a shift and a mask. -/
theorem field_shiftRight_mod (bits : List Bool) (a n l k : Nat) :
    (field bits a (n + l + k) >>> k) % 2 ^ l = field bits (a + n) l := by
  rw [field_shiftRight, field_mod]

/-! ### The frame registers -/

/-- Byte `8w + q` of a frame is bits `63-8q : 56-8q` of `FRAMEw` (10_state.md R62). -/
theorem toNat_extractLsb'_frameWord (bits : List Bool) (w : Nat) {q : Nat} (hq : q < 8) :
    ((frameWord bits w).extractLsb' (56 - 8 * q) 8).toNat = frameByte bits (8 * w + q) := by
  have hcut := field_shiftRight_mod bits (64 * w) (8 * q) 8 (56 - 8 * q)
  rw [show 8 * q + 8 + (56 - 8 * q) = 64 by omega, show 64 * w + 8 * q = 8 * (8 * w + q) by omega] at hcut
  rw [BitVec.extractLsb'_toNat, frameWord, BitVec.toNat_ofNat, Nat.mod_eq_of_lt (field_lt bits (64 * w) 64)]
  exact hcut

/-- A byte's first bit is its most significant one (43_crc16_frame.md R201). -/
theorem frameByte_eq (bits : List Bool) (b : Nat) :
    frameByte bits b =
      128 * bitNat (bits.getD (8 * b) false) + 64 * bitNat (bits.getD (8 * b + 1) false) +
      32 * bitNat (bits.getD (8 * b + 2) false) + 16 * bitNat (bits.getD (8 * b + 3) false) +
      8 * bitNat (bits.getD (8 * b + 4) false) + 4 * bitNat (bits.getD (8 * b + 5) false) +
      2 * bitNat (bits.getD (8 * b + 6) false) + bitNat (bits.getD (8 * b + 7) false) := by
  simp only [frameByte, field_succ, field_zero, Nat.add_zero]
  ring

/-- Bit `64w + j` reads back from `FRAMEw` as it was stored. -/
theorem frameBit_withFrame_of_lt (x : Slot) (bits : List Bool) {w j : Nat} (hw : w < 4) (hj : j < 64) :
    (x.withFrame bits).frameBit (64 * w + j) = bits.getD (64 * w + j) false := by
  rw [Slot.frameBit, show (64 * w + j) / 64 = w by omega, show (64 * w + j) % 64 = j by omega]
  match w, hw with
  | 0, _ => exact getLsbD_frameWord bits 0 hj
  | 1, _ => exact getLsbD_frameWord bits 1 hj
  | 2, _ => exact getLsbD_frameWord bits 2 hj
  | 3, _ => exact getLsbD_frameWord bits 3 hj

/-- Settles O32: a bit and a byte of `FRAMEw` are a bit and a part of the field of 64 bits it holds. -/
theorem frameRegistersHoldFrame : Obligations.FrameRegistersHoldFrame := fun x bits w _ q hw hj hq =>
  ⟨getLsbD_frameWord bits w hj, toNat_extractLsb'_frameWord bits w hq, frameByte_eq bits (8 * w + q),
    frameBit_withFrame_of_lt x bits hw hj⟩

/-- Settles O33: each field is a part of one byte, or parts of adjacent bytes put together. -/
theorem fieldsByBytes : Obligations.FieldsByBytes := by
  intro bits
  refine ⟨(field_shiftRight bits 0 3 5).symm, (field_shiftRight_mod bits 0 3 3 2).symm, ?_,
    (field_mod bits 8 1 7).symm, (field_shiftRight bits 16 7 1).symm, ?_⟩
  · calc field bits 6 3
      _ = field bits 6 2 * 2 + field bits 8 1 := field_add bits 6 2 1
      _ = frameByte bits 0 % 4 * 2 + frameByte bits 1 >>> 7 :=
        congrArg₂ (· * 2 + ·) (field_mod bits 0 6 2).symm (field_shiftRight bits 8 1 7).symm
  · have hfirst : field bits 23 1 = frameByte bits 2 % 2 := (field_mod bits 16 7 1).symm
    have hlast : field bits 40 7 = frameByte bits 5 >>> 1 := (field_shiftRight bits 40 7 1).symm
    calc field bits 23 24
      _ = ((field bits 23 1 * 2 ^ 8 + frameByte bits 3) * 2 ^ 8 + frameByte bits 4) * 2 ^ 7 + field bits 40 7 := by
        rw [field_add bits 23 17 7, field_add bits 23 9 8, field_add bits 23 1 8]
        rfl
      _ = _ := by
        rw [hfirst, hlast]
        ring

end Sys2Proof.Proofs
end

section
/-! SUPPORT. The CRC: one round of the byte-wise form is linear and loses nothing, the bit-serial form is rounds with
the message brought in at the top, and what follows for whole messages (43_crc16_frame.md R205, R206, R208). -/

namespace Sys2Proof.Proofs

open Sys2Proof.Machine Sys2Proof.Laws Sys2Proof.Claims

/-! ### One round -/

/-- A round is a shift, and the polynomial when a 1 falls out. -/
theorem crcRound_eq (c : BitVec 16) :
    crcRound c = (c <<< 1) ^^^ (if c.getLsbD 15 then Config.crcPoly else 0) := by
  rw [crcRound]
  split
  · rfl
  · exact BitVec.xor_zero.symm

/-- While nothing falls out, a round is a shift. -/
theorem crcRound_of_getLsbD_false {c : BitVec 16} (h : c.getLsbD 15 = false) : crcRound c = c <<< 1 :=
  if_neg (Bool.eq_false_iff.1 h)

theorem crcRound_zero : crcRound 0 = 0 := by decide

theorem xor_xor_xor_comm (a b c d : BitVec 16) : a ^^^ b ^^^ (c ^^^ d) = a ^^^ c ^^^ (b ^^^ d) := by
  ac_rfl

theorem crcRound_xor (c d : BitVec 16) : crcRound (c ^^^ d) = crcRound c ^^^ crcRound d := by
  have hfeedback (a b : Bool) (p : BitVec 16) : (if a ^^ b then p else 0) =
      (if a then p else 0) ^^^ (if b then p else 0) := by
    cases a <;> cases b <;> simp
  rw [crcRound_eq, crcRound_eq, crcRound_eq, BitVec.shiftLeft_xor_distrib, BitVec.getLsbD_xor, hfeedback,
    xor_xor_xor_comm]

/-- The polynomial's last term keeps the bit that falls out: only 0 goes to 0. -/
theorem eq_zero_of_crcRound_eq_zero {c : BitVec 16} (h : crcRound c = 0) : c = 0 := by
  have hout : c.getLsbD 15 = false := by
    have hlow : (crcRound c).getLsbD 0 = c.getLsbD 15 := by
      rw [crcRound_eq]
      cases c.getLsbD 15 <;> simp [Config.crcPoly]
    rw [← hlow, h]
    rfl
  rw [crcRound_of_getLsbD_false hout] at h
  have hsmall : c.toNat < 2 ^ 15 := by
    have hmsb : c.msb = false := (BitVec.msb_eq_getLsbD_last c).trans hout
    exact BitVec.toNat_lt_of_msb_false hmsb
  bv_omega

/-! ### Several rounds -/

theorem crcRound_iterate_zero (n : Nat) : crcRound^[n] 0 = 0 := Function.iterate_fixed crcRound_zero n

theorem crcRound_iterate_xor (n : Nat) (c d : BitVec 16) :
    crcRound^[n] (c ^^^ d) = crcRound^[n] c ^^^ crcRound^[n] d :=
  Function.Semiconj₂.iterate crcRound_xor n c d

theorem eq_zero_of_crcRound_iterate_eq_zero {n : Nat} {c : BitVec 16} (h : crcRound^[n] c = 0) : c = 0 := by
  induction n with
  | zero => exact h
  | succ n ih => exact ih (eq_zero_of_crcRound_eq_zero ((Function.iterate_succ_apply' crcRound n c).symm.trans h))

/-- A single bit rises to the top without feedback. -/
theorem crcRound_iterate_bit (b : Bool) {k n : Nat} (h : k + n ≤ 15) :
    crcRound^[n] (BitVec.ofNat 16 (bitNat b) <<< k) = BitVec.ofNat 16 (bitNat b) <<< (k + n) := by
  induction n with
  | zero => rfl
  | succ n ih =>
    have htop : (BitVec.ofNat 16 (bitNat b) <<< (k + n)).getLsbD 15 = false := by
      cases b
      · simp [bitNat]
      · simp [bitNat, show 15 - (k + n) ≠ 0 by omega]
    rw [Function.iterate_succ_apply', ih (by omega), crcRound_of_getLsbD_false htop, ← BitVec.shiftLeft_add,
      Nat.add_assoc]

/-! ### The bit-serial form -/

/-- A bit through the register is the bit added at the top, and a round. -/
theorem crcStep_eq (c : BitVec 16) (b : Bool) :
    crcStep c b = crcRound (c ^^^ (BitVec.ofNat 16 (bitNat b) <<< 15)) := by
  rw [crcRound_eq, BitVec.shiftLeft_xor_distrib, BitVec.getLsbD_xor, crcStep]
  cases b <;> cases c.getLsbD 15 <;> simp [bitNat]

theorem crcStep_xor (c d : BitVec 16) (a b : Bool) : crcStep (c ^^^ d) (a ^^ b) = crcStep c a ^^^ crcStep d b := by
  have hbit : BitVec.ofNat 16 (bitNat (a ^^ b)) <<< 15 =
      (BitVec.ofNat 16 (bitNat a) <<< 15) ^^^ (BitVec.ofNat 16 (bitNat b) <<< 15) := by
    cases a <;> cases b <;> decide
  rw [crcStep_eq, crcStep_eq, crcStep_eq, ← crcRound_xor, hbit, xor_xor_xor_comm]

/-- A zero bit through the register is a round. -/
theorem foldl_crcStep_zeros (c : BitVec 16) (n : Nat) :
    (List.replicate n false).foldl crcStep c = crcRound^[n] c := by
  have hstep (c : BitVec 16) : crcStep c false = crcRound c := by simp [crcStep_eq, bitNat]
  induction n generalizing c with
  | zero => rfl
  | succ n ih => rw [List.replicate_succ, List.foldl_cons, hstep, ih, Function.iterate_succ_apply]

/-- A number with one bit more at its low end, as a word. -/
theorem ofNat_two_mul_add_bitNat (v : Nat) (b : Bool) :
    BitVec.ofNat 16 (2 * v + bitNat b) = (BitVec.ofNat 16 v <<< 1) ^^^ BitVec.ofNat 16 (bitNat b) := by
  refine BitVec.eq_of_getLsbD_eq fun i hi => ?_
  rw [BitVec.getLsbD_xor, BitVec.getLsbD_shiftLeft, BitVec.getLsbD_ofNat, BitVec.getLsbD_ofNat, BitVec.getLsbD_ofNat]
  have hb := bitNat_lt b
  cases i with
  | zero => cases b <;> simp [bitNat, Nat.testBit_zero]
  | succ i =>
    have hbit : (bitNat b).testBit (i + 1) = false := by
      rw [Nat.testBit_succ, Nat.div_eq_of_lt hb, Nat.zero_testBit]
    have hrest : (2 * v + bitNat b) / 2 = v := by omega
    rw [Nat.testBit_succ, hrest, hbit]
    simp [hi, show i < 16 by omega]

/-- Up to 16 bits can be brought in at once, before the rounds. -/
theorem foldl_crcStep_take (c : BitVec 16) (bits : List Bool) (a : Nat) {n : Nat} (hn : n ≤ 16)
    (hlen : a + n ≤ bits.length) :
    ((bits.drop a).take n).foldl crcStep c =
      crcRound^[n] (c ^^^ (BitVec.ofNat 16 (field bits a n) <<< (16 - n))) := by
  induction n with
  | zero => simp
  | succ n ih =>
    have hlast : (bits.drop a).take (n + 1) = (bits.drop a).take n ++ [bits.getD (a + n) false] := by
      simp [List.take_add_one, List.getElem?_drop, List.getElem?_eq_getElem (show a + n < bits.length by omega)]
    have hfield : BitVec.ofNat 16 (field bits a (n + 1)) <<< (15 - n) =
        (BitVec.ofNat 16 (field bits a n) <<< (16 - n)) ^^^
          (BitVec.ofNat 16 (bitNat (bits.getD (a + n) false)) <<< (15 - n)) := by
      rw [field_succ, ofNat_two_mul_add_bitNat, BitVec.shiftLeft_xor_distrib, ← BitVec.shiftLeft_add,
        show 1 + (15 - n) = 16 - n by omega]
    rw [hlast, List.foldl_concat, ih (by omega) (by omega), crcStep_eq, Function.iterate_succ_apply',
      show 16 - (n + 1) = 15 - n by omega, hfield, ← BitVec.xor_assoc, crcRound_iterate_xor n (c ^^^ _),
      crcRound_iterate_bit _ (by omega), show 15 - n + n = 15 by omega]

/-- A message of up to 16 bits. -/
theorem foldl_crcStep_of_length_le (c : BitVec 16) {bits : List Bool} (h : bits.length ≤ 16) :
    bits.foldl crcStep c =
      crcRound^[bits.length] (c ^^^ (BitVec.ofNat 16 (field bits 0 bits.length) <<< (16 - bits.length))) := by
  have htake := foldl_crcStep_take c bits 0 h (Nat.zero_add _).le
  rwa [List.drop_zero, List.take_length] at htake

/-! ### The byte-wise form -/

/-- One byte of a frame through the register is its eight bits through it (43_crc16_frame.md R206). -/
theorem crcByte_frameByte (c : BitVec 16) (bits : List Bool) {b : Nat} (h : 8 * b + 8 ≤ bits.length) :
    crcByte c (frameByte bits b) = ((bits.drop (8 * b)).take 8).foldl crcStep c := by
  rw [crcByte, List.foldl_const, List.length_range, foldl_crcStep_take c bits (8 * b) (by decide) h]
  rfl

/-- The first bytes of a frame and the bits they hold have one CRC. -/
theorem crc16Bytes_frameBytes (bits : List Bool) {n : Nat} (h : 8 * n ≤ bits.length) :
    crc16Bytes ((List.range n).map (frameByte bits)) = crc16 (bits.take (8 * n)) := by
  induction n with
  | zero => rfl
  | succ n ih =>
    rw [List.range_succ, List.map_append, crc16Bytes, List.foldl_append, ← crc16Bytes, ih (by omega), Nat.mul_succ,
      List.take_add, crc16_append, List.map_singleton, List.foldl_cons, List.foldl_nil]
    exact crcByte_frameByte _ bits (by omega)

/-- Settles O34: byte by byte, over the whole frame. -/
theorem crcByteWiseAgrees : Obligations.CrcByteWiseAgrees := by
  intro bits hlen
  rw [crc16Bytes_frameBytes bits (by omega), List.take_of_length_le (by omega)]

/-! ### Whole messages -/

theorem foldl_crcStep_zipWith (c d : BitVec 16) {a b : List Bool} (h : a.length = b.length) :
    (List.zipWith (· ^^ ·) a b).foldl crcStep (c ^^^ d) = a.foldl crcStep c ^^^ b.foldl crcStep d := by
  induction a generalizing b c d with
  | nil =>
    obtain rfl := List.length_eq_zero_iff.1 h.symm
    rfl
  | cons x a ih =>
    obtain ⟨y, b, rfl⟩ := List.exists_cons_of_length_eq_add_one h.symm
    rw [List.zipWith_cons_cons, List.foldl_cons, List.foldl_cons, List.foldl_cons, crcStep_xor,
      ih _ _ (Nat.succ.inj h)]

/-- The CRC is linear (43_crc16_frame.md R208). -/
theorem crc16_zipWith {a b : List Bool} (h : a.length = b.length) :
    crc16 (List.zipWith (· ^^ ·) a b) = crc16 a ^^^ crc16 b :=
  foldl_crcStep_zipWith 0 0 h

theorem crc16_zeros (n : Nat) : crc16 (List.replicate n false) = 0 :=
  (foldl_crcStep_zeros 0 n).trans (crcRound_iterate_zero n)

theorem crc16_zeros_append (n : Nat) (a : List Bool) : crc16 (List.replicate n false ++ a) = crc16 a := by
  rw [crc16_append, crc16_zeros]
  rfl

/-- Zeros after a message do not bring its CRC to 0. -/
theorem crc16_append_zeros_ne_zero {a : List Bool} (h : crc16 a ≠ 0) (m : Nat) :
    crc16 (a ++ List.replicate m false) ≠ 0 := by
  rw [crc16_append, foldl_crcStep_zeros]
  exact mt eq_zero_of_crcRound_iterate_eq_zero h

/-- A field of zero has no bit set. -/
theorem getD_eq_false_of_field_eq_zero {bits : List Bool} {a n j : Nat} (h : field bits a n = 0) (hj : j < n) :
    bits.getD (a + j) false = false := by
  rw [← testBit_field bits a n j hj, h, Nat.zero_testBit]

/-- A number of `n` bits loses none of them at the top of the register. -/
theorem eq_zero_of_ofNat_shiftLeft_eq_zero {v n : Nat} (hn : n ≤ 16) (hv : v < 2 ^ n)
    (h : BitVec.ofNat 16 v <<< (16 - n) = 0) : v = 0 := by
  have hfit : v * 2 ^ (16 - n) < 2 ^ 16 := by
    calc v * 2 ^ (16 - n)
      _ < 2 ^ n * 2 ^ (16 - n) := Nat.mul_lt_mul_of_pos_right hv (Nat.two_pow_pos _)
      _ = 2 ^ 16 := by rw [← pow_add, Nat.add_sub_cancel' hn]
  have hv16 : v < 2 ^ 16 := hv.trans_le (Nat.pow_le_pow_right Nat.two_pos hn)
  have hzero : v * 2 ^ (16 - n) = 0 := by
    have hnat := congrArg BitVec.toNat h
    rwa [BitVec.toNat_shiftLeft, BitVec.toNat_ofNat, Nat.mod_eq_of_lt hv16, Nat.shiftLeft_eq,
      Nat.mod_eq_of_lt hfit] at hnat
  exact (Nat.mul_eq_zero.1 hzero).resolve_right (Nat.two_pow_pos _).ne'

/-- At most 16 bits, not all of them 0, fit the register without loss. -/
theorem crc16_ne_zero_of_length_le {burst : List Bool} (hlen : burst.length ≤ 16) (hset : true ∈ burst) :
    crc16 burst ≠ 0 := by
  intro hcrc
  have hshift : BitVec.ofNat 16 (field burst 0 burst.length) <<< (16 - burst.length) = 0 := by
    rw [crc16, foldl_crcStep_of_length_le _ hlen] at hcrc
    exact BitVec.zero_xor.symm.trans (eq_zero_of_crcRound_iterate_eq_zero hcrc)
  have hfield := eq_zero_of_ofNat_shiftLeft_eq_zero hlen (field_lt burst 0 _) hshift
  obtain ⟨j, hj, hbit⟩ := List.mem_iff_getElem.1 hset
  have hfalse := getD_eq_false_of_field_eq_zero hfield hj
  simp [hj, hbit] at hfalse

/-- The bits of a word, the most significant first, are the field that holds it. -/
theorem ofNat_field_bits (c : BitVec 16) :
    BitVec.ofNat 16 (field ((List.range 16).map fun j => c.getLsbD (15 - j)) 0 16) = c := by
  refine BitVec.eq_of_getLsbD_eq fun i hi => ?_
  have hbit := testBit_field ((List.range 16).map fun j => c.getLsbD (15 - j)) 0 16 (15 - i) (by omega)
  rw [show 16 - 1 - (15 - i) = i by omega] at hbit
  rw [BitVec.getLsbD_ofNat, decide_eq_true hi, Bool.true_and, hbit]
  simp [show 15 - i < 16 by omega, show 15 - (15 - i) = i by omega]

/-- A message with its own CRC at the end has CRC 0: the appended bits cancel the register. -/
theorem crc16_append_crc (a : List Bool) :
    crc16 (a ++ (List.range 16).map fun j => (crc16 a).getLsbD (15 - j)) = 0 := by
  rw [crc16_append, foldl_crcStep_of_length_le _ (by simp)]
  simp only [List.length_map, List.length_range, ofNat_field_bits]
  rw [Nat.sub_self, BitVec.shiftLeft_zero, BitVec.xor_self]
  exact crcRound_iterate_zero 16

/-- Settles O35: by linearity a burst in a valid message leaves the CRC of the burst, and zeros around it do not
make that 0. -/
theorem crcProperties : Obligations.CrcProperties := by
  refine ⟨fun _ _ => crc16_zipWith, crc16_zeros, crc16_zeros_append, fun a burst n m ha hlen hset hsum => ?_,
    crc16_append_crc⟩
  have hsum' : a.length = (List.replicate n false ++ burst ++ List.replicate m false).length := by
    simpa [Nat.add_assoc] using hsum
  rw [crc16_zipWith hsum', ha, List.append_assoc, crc16_zeros_append]
  simpa only [BitVec.ofNat_eq_ofNat, BitVec.zero_xor] using
    crc16_append_zeros_ne_zero (crc16_ne_zero_of_length_le hlen hset) m

end Sys2Proof.Proofs
end

section
/-! SUPPORT. The peak detector: the bin map is its own inverse, `PEAKS` as a whole next state, what the list holds, and
how many entries it has (44_peak_detector.md R221 to R227). -/

namespace Sys2Proof.Proofs

open Sys2Proof.Machine Sys2Proof.Laws Sys2Proof.Claims

/-! ### The bin map -/

/-- A bin is moved by half the length, up in the lower half and down in the upper one. -/
theorem physicalBin_eq_ite {n b : Nat} (hn : n % 2 = 0) (hb : b < n) :
    physicalBin n b = if b < n / 2 then b + n / 2 else b - n / 2 := by
  rw [physicalBin]
  split
  · exact Nat.mod_eq_of_lt (by omega)
  · rw [Nat.mod_eq_sub_mod (by omega), Nat.mod_eq_of_lt (by omega)]
    omega

theorem physicalBin_lt {n : Nat} (hn : 0 < n) (i : Nat) : physicalBin n i < n := Nat.mod_lt _ hn

/-- Half the length twice is the whole length. -/
theorem physicalBin_physicalBin {n b : Nat} (hn : n % 2 = 0) (hb : b < n) : physicalBin n (physicalBin n b) = b := by
  have hlt := physicalBin_lt (Nat.zero_lt_of_lt hb) b
  rw [physicalBin_eq_ite hn hlt, physicalBin_eq_ite hn hb]
  split <;> split <;> omega

theorem two_pow_even {e : Nat} (he : 1 ≤ e) : 2 ^ e % 2 = 0 := Nat.mod_eq_zero_of_dvd (dvd_pow_self 2 (by omega))

/-- Settles O21: with an even length, subtracting its half is adding it. -/
theorem binRoundTrip : Obligations.BinRoundTrip := by
  intro e b n he hn hb
  have heven : n % 2 = 0 := hn ▸ two_pow_even he
  have hforms : (b + n - n / 2) % n = (b + n / 2) % n := by rw [show b + n - n / 2 = b + n / 2 by omega]
  have hback := physicalBin_physicalBin heven hb
  exact ⟨(congrArg (physicalBin n) hforms).trans hback, hforms, hback⟩

/-! ### The list -/

/-- The raw bins of the peaks are the peaks among the inner bins. -/
theorem mem_peakBins_iff {s : State} {i : Nat} :
    i ∈ peakBins s ↔ (1 ≤ i ∧ i + 1 < s.n.toNat) ∧ isPeak s.magAt i = true := by
  rw [peakBins, List.mem_filter, List.mem_range'_1]
  exact and_congr_left' (by omega)

/-- They ascend. -/
theorem pairwise_peakBins (s : State) : (peakBins s).Pairwise (· < ·) := List.Pairwise.filter _ List.pairwise_lt_range'

theorem getElem_peakBins_lt {s : State} {p q : Nat} (hpq : p < q) (hq : q < (peakBins s).length) :
    (peakBins s)[p] < (peakBins s)[q] :=
  List.pairwise_iff_getElem.1 (pairwise_peakBins s) p q (by omega) hq hpq

/-- The bin of an entry as a number is the physical bin: it fits the 32 bits. -/
theorem toNat_peakEntry_bin {s : State} {i : Nat} (hi : i ∈ peakBins s) :
    (peakEntry s i).bin.toNat = physicalBin s.n.toNat i := by
  obtain ⟨⟨-, hlt⟩, -⟩ := mem_peakBins_iff.1 hi
  have hbin := physicalBin_lt (show 0 < s.n.toNat by omega) i
  rw [peakEntry, BitVec.toNat_ofNat, Nat.mod_eq_of_lt (hbin.trans s.n.isLt)]

/-! ### `PEAKS` as a whole -/

/-- A successful `PEAKS` as a whole (44_peak_detector.md R221). -/
theorem finish_peaksEffect_eq (s : State) :
    finish (peaksEffect s) =
      { s with
        peak := (peaksEffect s).peak, npeaks := BitVec.ofNat 32 (peakBins s).length, draw := s.draw + 1
        status := { ended s.status with peaksValid := true } } := rfl

/-- `PEAKS` writes the bytes of its entries alone. -/
theorem sameBeyond_peaksEffect (s : State) : sameBeyond (32 * (peakBins s).length) s.peak (peaksEffect s).peak := by
  intro a ha
  rw [peaksEffect_peak, readByte_putPeaks _ _ _ _ (.inr (by rw [List.length_map]; omega)), restamp_cells]

/-- The first word of an entry holds its bin, extended by zeros (20_memory.md R85). -/
theorem word_putPeak_bin (r : Region) (base p : Nat) (x : PeakEntry) :
    (r.putPeak p x).word base (32 * p) = x.bin.setWidth 64 := by
  simp only [Region.putPeak]
  rw [word_put_other _ _ _ _ _ (by omega), word_put_other _ _ _ _ _ (by omega), word_put_other _ _ _ _ _ (by omega),
    word_put_same]

/-- A bulk write leaves the words below its first entry. -/
theorem word_putPeaks_below (r : Region) (base : Nat) {p off : Nat} (xs : List PeakEntry) (h : off + 8 ≤ 32 * p) :
    (r.putPeaks p xs).word base off = r.word base off := by
  rw [Region.word, Region.word, putPeaks_stamp,
    readWord_congr fun a _ ha => readByte_putPeaks r p xs a (.inl (by omega))]

/-- Every bin stored by a bulk write reads back as a whole word. -/
theorem word_putPeaks_bin (r : Region) (base p : Nat) {k : Nat} {xs : List PeakEntry} (h : k < xs.length) :
    (r.putPeaks p xs).word base (32 * (p + k)) = xs[k].bin.setWidth 64 := by
  induction xs generalizing r p k with
  | nil => cases h
  | cons x xs ih =>
    rw [Region.putPeaks]
    cases k with
    | zero =>
      rw [word_putPeaks_below _ _ _ (by omega)]
      exact word_putPeak_bin r base p x
    | succ k =>
      rw [show p + (k + 1) = p + 1 + k by omega]
      exact ih _ _ (Nat.lt_of_succ_lt_succ h)

/-- After `PEAKS` entry `p` is that of the `p`-th peak. -/
theorem peakAt_finish_peaksEffect {s : State} {p : Nat} (hp : p < (peakBins s).length) :
    (finish (peaksEffect s)).peakAt p = peakEntry s (peakBins s)[p] := by
  have h := peakAt_peaksEffect hp
  rwa [List.getD_eq_getElem _ _ hp] at h

/-- Its first word is the physical bin. -/
theorem word_peaksEffect_bin {s : State} {p : Nat} (hp : p < (peakBins s).length) :
    (peaksEffect s).peak.word RegionId.peak.base (32 * p) =
      BitVec.ofNat 64 (physicalBin s.n.toNat (peakBins s)[p]) := by
  have hword := word_putPeaks_bin (s.peak.restamp s.draw) RegionId.peak.base 0
    (xs := (peakBins s).map (peakEntry s)) (k := p) (by simpa using hp)
  rw [Nat.zero_add, List.getElem_map] at hword
  rw [peaksEffect_peak, hword, ← toNat_peakEntry_bin (List.getElem_mem hp), BitVec.ofNat_toNat]

/-- Settles O17: the list is `peakBins`, and the entries are read back one by one. -/
theorem peaksWritesTheList : Obligations.PeaksWritesTheList := by
  intro s hplan hfvec
  refine ⟨(peaksEffect s).peak, peakBins s, rfl, ?_, fun p hp => ?_, sameBeyond_peaksEffect s⟩
  · rw [exec_peaks_of_valid hplan hfvec, finish_peaksEffect_eq]
  · have hentry := peakAt_finish_peaksEffect hp
    rw [peakAt_eq, finish_peak] at hentry
    have hvalue := congrArg PeakEntry.value hentry
    exact ⟨word_peaksEffect_bin hp, congrArg PeakEntry.freq hentry, congrArg C64.re hvalue, congrArg C64.im hvalue⟩

/-- Settles O18: the bin map takes entry `p` back to the `p`-th element of `peakBins`, an ascending list of the peaks. -/
theorem peaksReportsExactlyThePeaks : Obligations.PeaksReportsExactlyThePeaks := by
  intro s t e n hplan hfvec he hn hsn hexec raw
  rw [exec_peaks_of_valid hplan hfvec] at hexec
  cases hexec
  have heven : n % 2 = 0 := hn ▸ two_pow_even he
  have hcount : (finish (peaksEffect s)).npeaks.toNat = (peakBins s).length := toNat_npeaks_peaksEffect s
  have hinner {i : Nat} (hi : i ∈ peakBins s) : 1 ≤ i ∧ i + 1 < n := hsn ▸ (mem_peakBins_iff.1 hi).1
  have hbin {p : Nat} (hp : p < (peakBins s).length) :
      ((finish (peaksEffect s)).peakAt p).bin.toNat = physicalBin n (peakBins s)[p] := by
    rw [peakAt_finish_peaksEffect hp, toNat_peakEntry_bin (List.getElem_mem hp), hsn]
  have hraw {p : Nat} (hp : p < (peakBins s).length) : raw p = (peakBins s)[p] := by
    have hlt := hinner (List.getElem_mem hp)
    exact (congrArg (physicalBin n) (hbin hp)).trans (physicalBin_physicalBin heven (by omega))
  have hmono {p q : Nat} (hpq : p < q) (hq : q < (peakBins s).length) : raw p < raw q := by
    rw [hraw hq, hraw (hpq.trans hq)]
    exact getElem_peakBins_lt hpq hq
  rw [hcount]
  refine ⟨fun p hp => ?_, fun i hlo hhi hpeak => ?_, fun p q => hmono⟩
  · have hmem := List.getElem_mem hp
    have hlt := hinner hmem
    rw [hraw hp, hbin hp, peakAt_finish_peaksEffect hp]
    exact ⟨hlt.1, by omega, (mem_peakBins_iff.1 hmem).2, rfl, hsn ▸ rfl⟩
  · have hmem : i ∈ peakBins s := mem_peakBins_iff.2 ⟨by omega, hpeak⟩
    obtain ⟨p, hp, rfl⟩ := List.mem_iff_getElem.1 hmem
    refine ⟨p, hp, hraw hp, fun q hq heq => ?_⟩
    rw [← hraw hp] at heq
    rcases Nat.lt_trichotomy q p with h | h | h
    · exact absurd heq (hmono h hp).ne
    · exact h
    · exact absurd heq (hmono h hq).ne'

/-! ### The number of peaks -/

/-- Settles O19: of the `N - 2` inner bins at most every second one is a peak. -/
theorem peakCountBound : Obligations.PeakCountBound := by
  refine ⟨not_isPeak_adjacent, fun s t hplan hfvec hn heven hexec => ?_⟩
  rw [exec_peaks_of_valid hplan hfvec] at hexec
  cases hexec
  have hhalf := length_peakBins_le_half s
  have hcount : (finish (peaksEffect s)).npeaks.toNat = (peakBins s).length := toNat_npeaks_peaksEffect s
  rw [hcount]
  have hbound : (peakBins s).length ≤ s.n.toNat / 2 - 1 := by omega
  exact ⟨hbound, fun hmax => by omega, fun hmax => by omega⟩

end Sys2Proof.Proofs
end

section
/-! SUPPORT. Real operations whose exact result is a binary64 value answer it, and the frequency of a peak as four such
operations (00_scope.md R15, 44_peak_detector.md R223). -/

namespace Sys2Proof.Proofs

open Sys2Proof.Machine Sys2Proof.Laws Sys2Proof.Claims

/-! ### Exact results -/

/-- The value in units of 2^-1074 has at most 53 significant bits and lies below 2^970, far from the overflow. -/
def Representable (v : Int) : Prop := ∃ q k, q < 2 ^ 53 ∧ k ≤ 1991 ∧ v.natAbs = q * 2 ^ k

theorem representable_mul_two_pow {c : Int} {k : Nat} (hc : c.natAbs < 2 ^ 53) (hk : k ≤ 1991) :
    Representable (c * 2 ^ k) :=
  ⟨c.natAbs, k, hc, hk, by rw [Int.natAbs_mul, Int.natAbs_pow]; rfl⟩

/-- A significand of at most 53 bits has a magnitude field at every scale. -/
theorem exists_magUnits_eq {q : Nat} (hq : q < 2 ^ 53) (k : Nat) : ∃ g, magUnits g = q * 2 ^ k := by
  induction k generalizing q with
  | zero => exact ⟨0 * 2 ^ 52 + q, magUnits_scaled 0 q hq.le (.inl rfl)⟩
  | succ k ih =>
    by_cases hlarge : 2 ^ 52 ≤ q
    · exact ⟨(k + 1) * 2 ^ 52 + q, magUnits_scaled (k + 1) q hq.le (.inr hlarge)⟩
    · obtain ⟨g, hg⟩ := ih (q := 2 * q) (by omega)
      exact ⟨g, by rw [hg, pow_succ]; ring⟩

theorem natAbs_lt_overflowUnits {v : Int} (hv : Representable v) : v.natAbs < overflowUnits := by
  obtain ⟨q, k, hq, hk, hval⟩ := hv
  calc v.natAbs = q * 2 ^ k := hval
    _ < 2 ^ 53 * 2 ^ k := Nat.mul_lt_mul_of_pos_right hq (by positivity)
    _ = 2 ^ (53 + k) := (pow_add 2 53 k).symm
    _ ≤ overflowUnits := two_pow_le_overflowUnits (by omega)

/-- A representable quotient is its own rounding. -/
theorem fround_exact {sign : Bool} {n d : Nat} {v : Int} (hd : 0 < d) (hv : Representable v)
    (h : signed sign n = v * d) : isFinite (fround sign n d) = true ∧ fint (fround sign n d) = v := by
  have hn : n = v.natAbs * d := by rw [← natAbs_signed sign n, h, Int.natAbs_mul, Int.natAbs_natCast]
  have hlt : n < overflowUnits * d := hn.trans_lt (Nat.mul_lt_mul_of_pos_right (natAbs_lt_overflowUnits hv) hd)
  obtain ⟨hfin, -, hval⟩ := fround_finite sign hd hlt
  have hexact : magUnits (roundUnits n d) * d = n := by
    obtain ⟨q, k, hq, -, habs⟩ := hv
    obtain ⟨g, hg⟩ := exists_magUnits_eq hq k
    have hnear := (roundUnits_nearest n d g hd).1
    have htarget : (v.natAbs : Int) * d = n := by exact_mod_cast hn.symm
    rw [hg, ← habs, htarget, sub_self, abs_zero, abs_nonpos_iff, sub_eq_zero] at hnear
    exact_mod_cast hnear
  have hd0 : (d : Int) ≠ 0 := by exact_mod_cast hd.ne'
  exact ⟨hfin, mul_right_cancel₀ hd0 (by rw [hval, signed_mul_natCast, hexact, h])⟩

theorem u2f_exact {n : Nat} (hn : n < 2 ^ 53) : isFinite (u2f n) = true ∧ fint (u2f n) = n * 2 ^ 1074 :=
  fround_exact Nat.one_pos (representable_mul_two_pow (by simpa using hn) (by decide))
    (by rw [Nat.cast_one, mul_one, signed, if_neg (by decide), Nat.cast_mul, Nat.cast_pow, Nat.cast_ofNat])

theorem fmul_exact {x y : F64} {v : Int} (hx : isFinite x = true) (hy : isFinite y = true) (hv : Representable v)
    (h : fint x * fint y = v * 2 ^ 1074) : isFinite (fmul x y) = true ∧ fint (fmul x y) = v := by
  rw [fmul_of_finite hx hy]
  rw [fint_mul_fint] at h
  exact fround_exact (by positivity) hv (by rw [h, Nat.cast_pow, Nat.cast_ofNat])

theorem fdiv_exact {x y : F64} {v : Int} (hx : isFinite x = true) (hy : isFinite y = true) (hy0 : fint y ≠ 0)
    (hv : Representable v) (h : fint x * 2 ^ 1074 = v * fint y) :
    isFinite (fdiv x y) = true ∧ fint (fdiv x y) = v := by
  have hz : isZero y = false := by rwa [← Bool.not_eq_true, ← fint_eq_zero_iff]
  have hpos : 0 < funits y := Nat.pos_of_ne_zero fun h0 => hy0 ((fint_eq_zero_iff y).2 ((funits_eq_zero_iff y).1 h0))
  have hdist := abs_mul_fint_sub v x y
  rw [← h, sub_self, abs_zero, eq_comm, abs_eq_zero, sub_eq_zero] at hdist
  rw [fdiv_of_finite hx hy hz]
  exact fround_exact hpos hv hdist.symm

/-! ### Differences -/

theorem fsign_fneg (x : F64) : fsign (fneg x) = !fsign x := by
  simp [fsign, fneg]

theorem fmag_fneg (x : F64) : fmag (fneg x) = fmag x := by
  have h : (fneg x).extractLsb' 0 63 = x.extractLsb' 0 63 := by
    rw [fneg, BitVec.extractLsb'_xor, show BitVec.extractLsb' 0 63 0x8000000000000000#64 = 0 by decide]
    exact BitVec.xor_zero
  rw [fmag, h, fmag]

theorem isFinite_fneg {x : F64} (h : isFinite x = true) : isFinite (fneg x) = true := by
  rw [isFinite_iff] at h ⊢
  rwa [fmag_fneg]

theorem fint_fneg (x : F64) : fint (fneg x) = -fint x := by
  rw [fint_eq_signed, fint_eq_signed, funits_eq, funits_eq, fmag_fneg, fsign_fneg]
  cases fsign x <;> simp [signed]

theorem faddFinite_exact {x y : F64} (hv : Representable (fint x + fint y)) :
    isFinite (faddFinite x y) = true ∧ fint (faddFinite x y) = fint x + fint y := by
  simp only [faddFinite]
  split
  · rename_i h
    have hz := isZero_fzero (fsign x && fsign y)
    exact ⟨isFinite_of_isZero hz, ((fint_eq_zero_iff _).2 hz).trans h.symm⟩
  · exact fround_exact Nat.one_pos hv (by rw [signed_natAbs, Nat.cast_one, mul_one])

theorem fsub_exact {x y : F64} (hx : isFinite x = true) (hy : isFinite y = true)
    (hv : Representable (fint x - fint y)) : isFinite (fsub x y) = true ∧ fint (fsub x y) = fint x - fint y := by
  obtain ⟨hxn, hxi⟩ := not_isNaN_not_isInf hx
  obtain ⟨hyn, hyi⟩ := not_isNaN_not_isInf (isFinite_fneg hy)
  have hsum : fsub x y = faddFinite x (fneg y) := by simp [fsub, faddAs, hxn, hxi, hyn, hyi]
  rw [sub_eq_add_neg, ← fint_fneg] at hv ⊢
  rw [hsum]
  exact faddFinite_exact hv

/-! ### The frequency -/

theorem ftwo_value : isFinite ftwo = true ∧ fint ftwo = 2 * 2 ^ 1074 := by decide +kernel

/-- `b · fs / N`, exactly: the product has at most 49 bits, and `N` is a power of two. -/
theorem fdiv_fmul_u2f_exact {fs e k b : Nat} (hfs : fs < 2 ^ 32) (he : e ≤ 17) (hb : b < 2 ^ e) (hk : e + k = 1073) :
    isFinite (fdiv (fmul (u2f b) (u2f fs)) (u2f (2 ^ e))) = true ∧
    fint (fdiv (fmul (u2f b) (u2f fs)) (u2f (2 ^ e))) = (b * fs : Int) * 2 ^ (k + 1) := by
  have hN : 2 ^ e ≤ 2 ^ 17 := Nat.pow_le_pow_right (by decide) he
  have hsize : ((b : Int) * fs).natAbs < 2 ^ 53 := by
    rw [← Nat.cast_mul, Int.natAbs_natCast]
    calc b * fs < 2 ^ 17 * 2 ^ 32 := Nat.mul_lt_mul'' (by omega) hfs
      _ < 2 ^ 53 := by decide
  obtain ⟨hbf, hbv⟩ := u2f_exact (n := b) (by omega)
  obtain ⟨hff, hfv⟩ := u2f_exact (n := fs) (by omega)
  obtain ⟨hnf, hnv⟩ := u2f_exact (n := 2 ^ e) (by omega)
  obtain ⟨hmf, hmv⟩ := fmul_exact hbf hff (representable_mul_two_pow hsize (show 1074 ≤ 1991 by decide))
    (by rw [hbv, hfv, mul_mul_mul_comm, ← mul_assoc])
  refine fdiv_exact hmf hnf ?_ (representable_mul_two_pow hsize (by omega)) ?_
  · rw [hnv]
    positivity
  · have hscale : (2 : Int) ^ 1074 = 2 ^ (k + 1) * 2 ^ e := by rw [← pow_add]; congr 1; omega
    rw [hmv, hnv, Nat.cast_pow, Nat.cast_ofNat]
    generalize (2 : Int) ^ 1074 = unit at *
    linear_combination (b * fs : Int) * unit * hscale

/-- `fs / 2`, exactly. -/
theorem fdiv_u2f_ftwo_exact {fs : Nat} (hfs : fs < 2 ^ 32) :
    isFinite (fdiv (u2f fs) ftwo) = true ∧ fint (fdiv (u2f fs) ftwo) = fs * 2 ^ 1073 := by
  obtain ⟨hff, hfv⟩ := u2f_exact (n := fs) (by omega)
  obtain ⟨htf, htv⟩ := ftwo_value
  refine fdiv_exact hff htf ?_ (representable_mul_two_pow (by rw [Int.natAbs_natCast]; omega) (by decide)) ?_
  · rw [htv]
    positivity
  · have hhalf : (2 : Int) ^ 1074 = 2 ^ 1073 * 2 := pow_succ 2 1073
    rw [hfv, htv]
    generalize (2 : Int) ^ 1074 = unit at *
    generalize (2 : Int) ^ 1073 = half at *
    linear_combination fs * unit * hhalf

/-- Settles O20: product, quotients and difference are all representable, so none of them is rounded. -/
theorem peakFrequencyIsExact : Obligations.PeakFrequencyIsExact := by
  intro fs e b hfs he1 he hb
  obtain ⟨k, hk⟩ : ∃ k, e + k = 1073 := ⟨1073 - e, by omega⟩
  obtain ⟨hxf, hxv⟩ := fdiv_fmul_u2f_exact hfs he hb hk
  obtain ⟨hyf, hyv⟩ := fdiv_u2f_ftwo_exact hfs
  have hscale : (2 : Int) ^ 1073 = 2 ^ k * 2 ^ e := by rw [← pow_add]; congr 1; omega
  have hdiff : fint (fdiv (fmul (u2f b) (u2f fs)) (u2f (2 ^ e))) - fint (fdiv (u2f fs) ftwo) =
      (fs * (2 * b - 2 ^ e) : Int) * 2 ^ k := by
    rw [hxv, hyv, hscale]
    ring
  have hsize : ((fs : Int) * (2 * b - 2 ^ e)).natAbs < 2 ^ 53 := by
    have hN : 2 ^ e ≤ 2 ^ 17 := Nat.pow_le_pow_right (by decide) he
    have hb' : (b : Int) < 2 ^ e := by exact_mod_cast hb
    have hN' : (2 : Int) ^ e ≤ 2 ^ 17 := by exact_mod_cast hN
    have hfactor : ((2 * b - 2 ^ e : Int)).natAbs ≤ 2 ^ 17 := by omega
    rw [Int.natAbs_mul, Int.natAbs_natCast]
    calc fs * (2 * b - 2 ^ e : Int).natAbs ≤ 2 ^ 32 * 2 ^ 17 := Nat.mul_le_mul hfs.le hfactor
      _ < 2 ^ 53 := by decide
  have hrep := representable_mul_two_pow hsize (show k ≤ 1991 by omega)
  rw [← hdiff] at hrep
  obtain ⟨hfin, hval⟩ := fsub_exact hxf hyf hrep
  refine ⟨hfin, ?_⟩
  rw [peakFreq, hval, hdiff, pow_succ 2 1073, hscale]
  ring

end Sys2Proof.Proofs
end

section
/-! SUPPORT. What the host's `RUN` of a command does to an idle machine, and what a command with a slot operand leaves
unchanged (30_encoding.md R112, R118). -/

namespace Sys2Proof.Proofs

open Sys2Proof.Machine Sys2Proof.Safety Sys2Proof.Laws

/-! ### `RUN` on an idle machine -/

/-- The machine the engine finds when the host has written the command's word. -/
def pendingRun (i : Instr) (s : State) : State := respond true none (acceptCommand (encode i) s)

theorem sameSignal_pendingRun (i : Instr) (s : State) : SameSignal s (pendingRun i s) :=
  sameSignal_trans (sameSignal_acceptCommand _ _) (sameSignal_respond _ _ _)

@[simp] theorem pendingRun_slots (i : Instr) (s : State) : (pendingRun i s).slots = s.slots := rfl

theorem inv_pendingRun (i : Instr) {s : State} (h : Inv s) : Inv (pendingRun i s) :=
  inv_respond _ _ (inv_acceptCommand _ h)

/-- Every command ends, and leaves the machine idle (30_encoding.md R114 d). -/
theorem exec_ends (i : Instr) (s : State) : ∃ t, exec i s = .next t ∧ t.status.busy = false := by
  rcases exec_cases i s with ⟨c, -, he⟩ | ⟨c, he⟩ | ⟨-, he⟩ | ⟨-, -, -, he⟩ | ⟨-, -, he⟩ | ⟨-, -, -, he⟩ |
    ⟨k, p, -, -, -, -, -, -, he⟩ | ⟨k, p, -, -, -, -, -, -, -, he⟩ | ⟨k, -, -, -, -, he⟩ | ⟨k, -, -, he⟩
  case inl => exact ⟨_, he, raiseErr_busy c _⟩
  case inr.inl => exact ⟨_, he, raiseErr_busy c s⟩
  all_goals exact ⟨_, he, finish_busy _⟩

section
variable {i : Instr} {s : State}

/-- `RUN` of a well-formed command is its `exec` on the pending machine. -/
theorem exec_pendingRun (hw : i.WellFormed) (hb : s.status.busy = false) :
    exec i (pendingRun i s) = .next (run i s) := by
  obtain ⟨t, ht, -⟩ := exec_ends i (pendingRun i s)
  rw [run_eq (decode_encode hw) hb ht, ht]

theorem run_busy (hw : i.WellFormed) (hb : s.status.busy = false) : (run i s).status.busy = false := by
  obtain ⟨t, ht, hidle⟩ := exec_ends i (pendingRun i s)
  rwa [run_eq (decode_encode hw) hb ht]

theorem inv_run (hw : i.WellFormed) (hb : s.status.busy = false) (h : Inv s) : Inv (run i s) :=
  inv_exec (inv_pendingRun i h) (exec_pendingRun hw hb)

end

/-! ### Commands with a slot operand -/

/-- The slot operand of a command of the formats S and SP (30_encoding.md R112). -/
def slotOperand : Instr → Option Nat
  | .nop => none
  | .plan => none
  | .fft => none
  | .peaks => none
  | .ctxinit k _ => some k
  | .accum k _ => some k
  | .decode k => some k
  | .ctxfree k => some k

/-- From the first state to the second at most slot `k` was written, of all that the signal path and the slots hold. -/
structure WritesOnlySlot (k : Nat) (s t : State) : Prop where
  signal : SameSignal s t
  nslots : t.nslots = s.nslots
  others : ∀ j, j ≠ k → t.slot j = s.slot j

section
variable {k : Nat} {s t : State}

theorem slot_of_slots_set {x : Slot} (h : t.slots = s.slots.set k x) (hk : k < s.nslots) : t.slot k = x :=
  (slot_congr (s := s.setSlot k x) h k).trans (slot_setSlot_same s k x hk)

theorem writesOnlySlot_of_same (hsig : SameSignal s t) (h : t.slots = s.slots) : WritesOnlySlot k s t :=
  ⟨hsig, congrArg List.length h, fun j _ => slot_congr h j⟩

theorem writesOnlySlot_of_set {x : Slot} (hsig : SameSignal s t) (h : t.slots = s.slots.set k x) :
    WritesOnlySlot k s t :=
  ⟨hsig, (congrArg List.length h).trans List.length_set,
    fun j hj => (slot_congr (s := s.setSlot k x) h j).trans (slot_setSlot_other s k j x hj)⟩

theorem slots_accum (p : Nat) (hd : (s.slot k).decoded = false) :
    (finish (accumEffect k p s)).slots = s.slots.set k (accumulatedSlot k p s) := by
  rw [finish_accumEffect_of_not_decoded p hd]

theorem slots_decode (hd : (s.slot k).decoded = false) :
    (finish (decodeEffect k s)).slots = s.slots.set k (decodedSlot (s.slot k) (decodedBits k s)) := by
  rw [finish_decodeEffect_of_not_decoded hd]

/-- `ACCUM` replaces the slot, or nothing once it is decoded (41_mixer_accumulator.md R155). -/
theorem writesOnlySlot_accum (k p : Nat) (s : State) : WritesOnlySlot k s (finish (accumEffect k p s)) := by
  cases hd : (s.slot k).decoded with
  | true => exact writesOnlySlot_of_same (sameSignal_accum k p s) (by simp [hd])
  | false => exact writesOnlySlot_of_set (sameSignal_accum k p s) (slots_accum p hd)

/-- `DECODE` replaces the slot, or only `RESULT` once it is decoded (42_slicer_mfm.md R185). -/
theorem writesOnlySlot_decode (k : Nat) (s : State) : WritesOnlySlot k s (finish (decodeEffect k s)) := by
  cases hd : (s.slot k).decoded with
  | true => exact writesOnlySlot_of_same (sameSignal_decode k s) (by simp [hd])
  | false => exact writesOnlySlot_of_set (sameSignal_decode k s) (slots_decode hd)

/-- An error writes no slot, so the effect alone decides. -/
theorem writesOnlySlot_completeWith {checks : List (Bool × ErrCode)} {effect : State → State}
    (h : WritesOnlySlot k s (finish (effect s))) : WritesOnlySlot k s (completeWith checks effect s) := by
  rcases completeWith_cases checks effect s with ⟨c, -, he⟩ | ⟨-, he⟩ <;> rw [he]
  · exact writesOnlySlot_of_same (sameSignal_raiseErr c s) (raiseErr_slots c s)
  · exact h

/-- A command with a slot operand writes at most that slot, whatever its checks say. -/
theorem writesOnlySlot_exec {i : Instr} (hi : slotOperand i = some k) (h : exec i s = .next t) :
    WritesOnlySlot k s t := by
  cases i with
  | nop => cases hi
  | plan => cases hi
  | fft => cases hi
  | peaks => cases hi
  | ctxinit k p =>
    cases hi
    cases h
    exact writesOnlySlot_completeWith (writesOnlySlot_of_set (sameSignal_ctxinit k p s) rfl)
  | accum k p =>
    cases hi
    cases h
    exact writesOnlySlot_completeWith (writesOnlySlot_accum k p s)
  | decode k =>
    cases hi
    cases h
    exact writesOnlySlot_completeWith (writesOnlySlot_decode k s)
  | ctxfree k =>
    cases hi
    cases h
    exact writesOnlySlot_completeWith (writesOnlySlot_of_set (sameSignal_ctxfree k s) rfl)

/-- So does its `RUN`. -/
theorem writesOnlySlot_run {i : Instr} (hi : slotOperand i = some k) (hw : i.WellFormed)
    (hb : s.status.busy = false) : WritesOnlySlot k s (run i s) := by
  obtain ⟨hsig, hn, hothers⟩ := writesOnlySlot_exec hi (exec_pendingRun hw hb)
  exact ⟨sameSignal_trans (sameSignal_pendingRun i s) hsig, hn, hothers⟩

/-! ### The slot itself -/

/-- The two slots agree in what the host's registry depends on. -/
def SameTag (x y : Slot) : Prop := y.valid = x.valid ∧ y.bin = x.bin

theorem sameTag_decodedSlot (x : Slot) (bits : List Bool) : SameTag x (decodedSlot x bits) := by
  rw [decodedSlot]
  split <;> exact ⟨rfl, rfl⟩

/-- A command whose effect keeps the slot's tag keeps it when it fails, too. -/
theorem sameTag_completeWith {checks : List (Bool × ErrCode)} {effect : State → State}
    (h : SameTag (s.slot k) ((finish (effect s)).slot k)) :
    SameTag (s.slot k) ((completeWith checks effect s).slot k) := by
  rcases completeWith_cases checks effect s with ⟨c, -, he⟩ | ⟨-, he⟩ <;> rw [he]
  · rw [slot_congr (raiseErr_slots c s)]
    exact ⟨rfl, rfl⟩
  · exact h

/-- An accumulation keeps the slot's bin. -/
theorem sameTag_accum {p : Nat} (hk : k < s.nslots) (h : exec (.accum k p) s = .next t) :
    SameTag (s.slot k) (t.slot k) := by
  cases h
  refine sameTag_completeWith ?_
  cases hd : (s.slot k).decoded with
  | true => rw [accumEffect_of_decoded p hd]; exact ⟨rfl, rfl⟩
  | false =>
    rw [slot_of_slots_set (slots_accum p hd) hk]
    exact ⟨rfl, rfl⟩

/-- A decode attempt keeps the slot's bin. -/
theorem sameTag_decode (hk : k < s.nslots) (h : exec (.decode k) s = .next t) : SameTag (s.slot k) (t.slot k) := by
  cases h
  refine sameTag_completeWith ?_
  cases hd : (s.slot k).decoded with
  | true => rw [decodeEffect_of_decoded hd]; exact ⟨rfl, rfl⟩
  | false =>
    rw [slot_of_slots_set (slots_decode hd) hk]
    exact sameTag_decodedSlot _ _

end

section
variable {k p : Nat} {s : State}

theorem sameTag_run_accum (hk : k < s.nslots) (hw : (Instr.accum k p).WellFormed) (hb : s.status.busy = false) :
    SameTag (s.slot k) ((run (.accum k p) s).slot k) :=
  sameTag_accum (s := pendingRun (.accum k p) s) hk (exec_pendingRun hw hb)

theorem sameTag_run_decode (hk : k < s.nslots) (hw : (Instr.decode k).WellFormed) (hb : s.status.busy = false) :
    SameTag (s.slot k) ((run (.decode k) s).slot k) :=
  sameTag_decode (s := pendingRun (.decode k) s) hk (exec_pendingRun hw hb)

/-- After `RUN CTXFREE` the slot holds no hypothesis. -/
theorem valid_run_ctxfree (hk : k < s.nslots) (hw : (Instr.ctxfree k).WellFormed) (hb : s.status.busy = false) :
    ((run (.ctxfree k) s).slot k).valid = false := by
  have hfree : exec (.ctxfree k) (pendingRun (.ctxfree k) s) =
      .next (finish (freeSlot k (pendingRun (.ctxfree k) s))) :=
    exec_ctxfree_of_inRange hk
  rw [run_eq (decode_encode hw) hb hfree, slot_of_slots_set rfl hk, freed_valid]

/-- After `RUN CTXINIT` on a free slot and a listed peak the slot holds a hypothesis of the peak's bin. -/
theorem tag_run_ctxinit (hk : k < s.nslots) (hw : (Instr.ctxinit k p).WellFormed) (hb : s.status.busy = false)
    (hplan : s.status.planValid = true) (hpeaks : s.status.peaksValid = true) (hp : p < s.npeaks.toNat)
    (hfree : (s.slot k).valid = false) :
    ((run (.ctxinit k p) s).slot k).valid = true ∧ ((run (.ctxinit k p) s).slot k).bin = (s.peakAt p).bin := by
  have hclaim : exec (.ctxinit k p) (pendingRun (.ctxinit k p) s) =
      .next (finish (ctxinitEffect k p (pendingRun (.ctxinit k p) s))) :=
    exec_ctxinit_of_free hplan hpeaks hk hp hfree
  rw [run_eq (decode_encode hw) hb hclaim, slot_of_slots_set rfl hk]
  exact ⟨rfl, rfl⟩

/-! ### Operands the host may use -/

/-- A slot of the machine fits the slot field (00_scope.md R10). -/
theorem slotFits_of_lt (h : Inv s) (hk : k < s.nslots) : slotFits k := by
  obtain ⟨-, -, -, hmax⟩ := h.parameters
  exact lt_of_lt_of_le hk hmax

/-- A listed peak fits the peak field: there are fewer than `N_MAX / 2` (10_state.md R51). -/
theorem peakFits_of_lt (h : Inv s) (hplan : s.status.planValid = true) (hp : p < s.npeaks.toNat) : peakFits p := by
  obtain ⟨-, hn⟩ := lengths_le_of_planned (h.planned hplan)
  obtain ⟨-, hlog, -, -⟩ := h.parameters
  have hmax : s.nMax ≤ 2 ^ 17 := Nat.pow_le_pow_right (by decide) hlog
  obtain ⟨-, hcount⟩ := h.peakCount
  simp only [peakFits]
  omega

theorem wellFormed_ctxinit (hk : slotFits k) (hp : peakFits p) : (Instr.ctxinit k p).WellFormed :=
  wellFormed_iff_fields.2 ⟨hk, hp⟩

theorem wellFormed_accum (hk : slotFits k) (hp : peakFits p) : (Instr.accum k p).WellFormed :=
  wellFormed_iff_fields.2 ⟨hk, hp⟩

theorem wellFormed_decode (hk : slotFits k) : (Instr.decode k).WellFormed :=
  wellFormed_iff_fields.2 ⟨hk, Nat.two_pow_pos 16⟩

theorem wellFormed_ctxfree (hk : slotFits k) : (Instr.ctxfree k).WellFormed :=
  wellFormed_iff_fields.2 ⟨hk, Nat.two_pow_pos 16⟩

end

end Sys2Proof.Proofs
end

section
/-! SUPPORT. The registry agrees with the slots through every part of `PROCESS_CAPTURE`, and nothing stale is left after
its reap pass (45_host_sequence.md R235 to R246). -/

namespace Sys2Proof.Proofs

open Sys2Proof.Machine Sys2Proof.Safety Sys2Proof.Laws Sys2Proof.Claims

/-! ### The registry and the slots -/

/-- With every slot free an empty registry agrees. -/
theorem registryOk_of_allFree {y : System} (hreg : y.host.reg = []) (hfree : allFree y.machine.slots) :
    RegistryOk y := by
  simp only [RegistryOk, hreg]
  refine ⟨List.nodup_nil, List.nodup_nil, fun i hi => ?_, fun e he => by cases he⟩
  obtain ⟨r, q, hslot⟩ := hfree _ (slot_mem y.machine i hi)
  simp [hslot, Slot.empty]

/-- Agreement depends on the registry and on what the slots' tags say. -/
theorem registryOk_congr {y z : System} (h : RegistryOk y) (hreg : z.host.reg = y.host.reg)
    (hn : z.machine.nslots = y.machine.nslots)
    (htag : ∀ i, i < y.machine.nslots → SameTag (y.machine.slot i) (z.machine.slot i)) : RegistryOk z := by
  obtain ⟨hkeys, hslots, hvalid, hbin⟩ := h
  rw [RegistryOk, hreg, hn]
  refine ⟨hkeys, hslots, fun i hi => ?_, fun e he => ?_⟩
  · obtain ⟨hv, -⟩ := htag i hi
    rw [hv]
    exact hvalid i hi
  · obtain ⟨hlt, heq⟩ := hbin e he
    obtain ⟨-, hb⟩ := htag e.2 hlt
    exact ⟨hlt, by rw [hb, heq]⟩

/-- Freeing a slot and dropping its key together keep the agreement. -/
theorem registryOk_drop {g : HostSide} {s t : State} {b i : Nat} (h : RegistryOk ⟨g, s⟩) (hmem : (b, i) ∈ g.reg)
    (hw : WritesOnlySlot i s t) (hfree : (t.slot i).valid = false) : RegistryOk ⟨g.drop b, t⟩ := by
  obtain ⟨hkeys, hslots, hvalid, hbin⟩ := h
  have hkey : ∀ e ∈ g.reg, e.1 = b → e = (b, i) := fun e he heq => List.inj_on_of_nodup_map hkeys he hmem heq
  have hslot : ∀ e ∈ g.reg, e.2 = i → e = (b, i) := fun e he heq => List.inj_on_of_nodup_map hslots he hmem heq
  have hsub : (g.drop b).reg.Sublist g.reg := List.filter_sublist
  refine ⟨hkeys.sublist (hsub.map _), hslots.sublist (hsub.map _), fun j hj => ?_, fun e he => ?_⟩
  · rw [hw.nslots] at hj
    simp only [List.mem_map, mem_drop_reg]
    by_cases hji : j = i
    · subst hji
      simp only [hfree, Bool.false_eq_true, false_iff, not_exists, not_and, and_imp]
      intro e he hne heq
      exact hne (congrArg Prod.fst (hslot e he heq))
    · rw [hw.others j hji, hvalid j hj, List.mem_map]
      refine exists_congr fun e => ⟨fun ⟨he, heq⟩ => ⟨⟨he, fun hb => hji ?_⟩, heq⟩, fun ⟨⟨he, _⟩, heq⟩ => ⟨he, heq⟩⟩
      rw [← heq, hkey e he hb]
  · obtain ⟨he, hne⟩ := (mem_drop_reg g b e).1 he
    have hother : e.2 ≠ i := fun heq => hne (congrArg Prod.fst (hslot e he heq))
    obtain ⟨hlt, heq⟩ := hbin e he
    exact ⟨hw.nslots.symm ▸ hlt, by rw [hw.others _ hother, heq]⟩

/-- Claiming a free slot for an untracked bin and entering it together keep the agreement. -/
theorem registryOk_enter {g : HostSide} {s t : State} {b i : Nat} (h : RegistryOk ⟨g, s⟩)
    (hnew : ∀ e ∈ g.reg, e.1 ≠ b) (hi : i < s.nslots) (hfree : (s.slot i).valid = false) (hw : WritesOnlySlot i s t)
    (hvalid' : (t.slot i).valid = true) (hbin' : (t.slot i).bin.toNat = b) :
    RegistryOk ⟨{ g with reg := g.reg ++ [(b, i)] }, t⟩ := by
  obtain ⟨hkeys, hslots, hvalid, hbin⟩ := h
  have hunused : ∀ e ∈ g.reg, e.2 ≠ i := fun e he heq => by
    have := (hvalid i hi).2 (List.mem_map.2 ⟨e, he, heq⟩)
    rw [hfree] at this
    cases this
  refine ⟨?_, ?_, fun j hj => ?_, fun e he => ?_⟩
  · rw [List.map_append]
    exact hkeys.append (List.nodup_singleton b)
      (List.disjoint_singleton.2 fun hb => (List.mem_map.1 hb).elim fun e he => hnew e he.1 he.2)
  · rw [List.map_append]
    exact hslots.append (List.nodup_singleton i)
      (List.disjoint_singleton.2 fun hb => (List.mem_map.1 hb).elim fun e he => hunused e he.1 he.2)
  · rw [hw.nslots] at hj
    simp only [List.map_append, List.mem_append, List.map_cons, List.map_nil, List.mem_singleton]
    by_cases hji : j = i
    · subst hji
      simp [hvalid']
    · rw [hw.others j hji, hvalid j hj]
      simp [hji]
  · rcases List.mem_append.1 he with he | he
    · obtain ⟨hlt, heq⟩ := hbin e he
      exact ⟨hw.nslots.symm ▸ hlt, by rw [hw.others _ (hunused e he), heq]⟩
    · obtain rfl := List.mem_singleton.1 he
      exact ⟨hw.nslots.symm ▸ hi, hbin'⟩

/-- The slot found under a key is entered under it. -/
theorem mem_of_lookup_eq_some {l : List (Nat × Nat)} {b i : Nat} (h : l.lookup b = some i) : (b, i) ∈ l := by
  obtain ⟨l₁, l₂, rfl, -⟩ := List.lookup_eq_some_iff.1 h
  exact List.mem_append_right l₁ List.mem_cons_self

/-! ### Resets and `PLAN` -/

theorem allFree_resetEffect (s : State) : allFree (resetEffect s).slots := by
  intro x hx
  rw [resetEffect_slots] at hx
  obtain ⟨_, -, rfl⟩ := List.mem_map.1 hx
  exact ⟨_, _, rfl⟩

/-- A write of 1 to `CTRL.SRST` resets, busy or not (70_reset_and_hazards.md R290). -/
theorem wrReset_eq (s : State) : wrGlobal 0x018 1 s = respond true none (resetEffect s) :=
  hostWrite_of_locate (s := s) (addr := 0x018) (loc := .global .ctrl) 1 rfl (.inr rfl)

/-- `PLAN` frees every slot, successful or not (40_fft.md R132, R133). -/
theorem allFree_exec_plan {s t : State} (h : exec .plan s = .next t) : allFree t.slots := by
  rcases execPlan_cases s with ⟨-, he⟩ | ⟨-, -, he⟩ | ⟨-, -, he⟩ <;> cases he.symm.trans h
  · rw [planFail_eq]
    exact allFree_map_freed _ _
  · rw [planFail_eq]
    exact allFree_map_freed _ _
  · exact allFree_map_freed _ _

/-! ### What every part of a capture starts from and leaves -/

/-- The machine is idle and planned within its invariant, and the registry agrees with the slots. -/
structure Consistent (y : System) : Prop where
  inv : Inv y.machine
  idle : y.machine.status.busy = false
  planned : y.machine.status.planValid = true
  registry : RegistryOk y

/-- The peak list is valid, and every listed bin reads as the bin of its entry (20_memory.md R85). -/
def PeaksReadable (s : State) : Prop :=
  s.status.peaksValid = true ∧ ∀ p, p < s.npeaks.toNat → rdPeakBin s p = (s.peakAt p).bin.toNat

/-- A machine whose slots are as they were stays consistent with the registry. -/
theorem consistent_of_same_slots {y : System} {t : State} (hy : Consistent y) (hinv : Inv t)
    (hidle : t.status.busy = false) (hplan : t.status.planValid = true) (hslots : t.slots = y.machine.slots) :
    Consistent ⟨y.host, t⟩ :=
  ⟨hinv, hidle, hplan,
    registryOk_congr hy.registry rfl (congrArg List.length hslots) fun i _ => by
      simp only [slot_congr hslots]
      exact ⟨rfl, rfl⟩⟩

/-- Setting the capture's time. -/
theorem consistent_wrTime {y : System} (hy : Consistent y) (now : BitVec 64) :
    Consistent ⟨y.host, wrGlobal 0x030 now y.machine⟩ := by
  rw [wrTime_eq now hy.idle]
  exact consistent_of_same_slots hy (inv_respond _ _ { hy.inv with }) hy.idle hy.planned rfl

/-- With a valid plan `RUN FFT` succeeds. -/
theorem run_fft_eq {s : State} (hb : s.status.busy = false) (hplan : s.status.planValid = true) :
    run .fft s = finish (fftEffect (pendingRun .fft s)) :=
  run_eq (decode_encode rfl) hb (exec_fft_of_planValid hplan)

theorem consistent_fft {y : System} (hy : Consistent y) :
    Consistent ⟨y.host, run .fft y.machine⟩ ∧ (run .fft y.machine).status.fvecValid = true := by
  have hinv := inv_run (i := .fft) rfl hy.idle hy.inv
  rw [run_fft_eq hy.idle hy.planned] at hinv ⊢
  exact ⟨consistent_of_same_slots hy hinv rfl hy.planned rfl, rfl⟩

/-- With a valid plan and vector `RUN PEAKS` succeeds. -/
theorem run_peaks_eq {s : State} (hb : s.status.busy = false) (hplan : s.status.planValid = true)
    (hfvec : s.status.fvecValid = true) : run .peaks s = finish (peaksEffect (pendingRun .peaks s)) :=
  run_eq (decode_encode rfl) hb (exec_peaks_of_valid hplan hfvec)

/-- A peak of the list just found reads back its bin, as the host reads it. -/
theorem rdPeakBin_peaksEffect {s : State} {p : Nat} (hp : p < (peakBins s).length) :
    rdPeakBin (finish (peaksEffect s)) p = ((finish (peaksEffect s)).peakAt p).bin.toNat := by
  have hdef : (finish (peaksEffect s)).wordDefined .peak (32 * p) = true := by
    rw [State.wordDefined, finish_peaksValid, finish_npeaks, toNat_npeaks_peaksEffect,
      Nat.mul_div_cancel_left p (by decide), decide_eq_true hp]
    rfl
  have hbin := toNat_peakEntry_bin (s := s) (List.getElem_mem hp)
  rw [rdPeakBin, hostWord_of_defined hdef, peakAt_finish_peaksEffect hp, hbin, State.region, finish_peak,
    word_peaksEffect_bin hp, ← hbin, BitVec.toNat_ofNat, Nat.mod_eq_of_lt]
  exact lt_trans (BitVec.isLt _) (by decide)

theorem consistent_peaks {y : System} (hy : Consistent y) (hfvec : y.machine.status.fvecValid = true) :
    Consistent ⟨y.host, run .peaks y.machine⟩ ∧ PeaksReadable (run .peaks y.machine) := by
  have hinv := inv_run (i := .peaks) rfl hy.idle hy.inv
  rw [run_peaks_eq hy.idle hy.planned hfvec] at hinv ⊢
  refine ⟨consistent_of_same_slots hy hinv rfl hy.planned rfl, rfl, fun p hp => rdPeakBin_peaksEffect ?_⟩
  rwa [finish_npeaks, toNat_npeaks_peaksEffect] at hp

/-- What a capture has before it visits its peaks (45_host_sequence.md R236): a readable list. -/
theorem consistent_found {y : System} (hy : Consistent y) (now : BitVec 64) :
    Consistent ⟨y.host, run .peaks (run .fft (wrGlobal 0x030 now y.machine))⟩ ∧
      PeaksReadable (run .peaks (run .fft (wrGlobal 0x030 now y.machine))) := by
  obtain ⟨hfft, hfvec⟩ := consistent_fft (consistent_wrTime hy now)
  exact consistent_peaks hfft hfvec

theorem rdPeakBin_congr {s t : State} (hsig : SameSignal s t) (p : Nat) : rdPeakBin t p = rdPeakBin s p := by
  have hdef : t.wordDefined .peak (32 * p) = s.wordDefined .peak (32 * p) := by
    rw [State.wordDefined, State.wordDefined, hsig.peaksValid, hsig.npeaks]
  have hregion : t.region .peak = s.region .peak := hsig.peak
  rw [rdPeakBin, rdPeakBin, State.hostWord, State.hostWord, hdef, hregion]

theorem peaksReadable_congr {s t : State} (hsig : SameSignal s t) (h : PeaksReadable s) : PeaksReadable t := by
  obtain ⟨hvalid, hbin⟩ := h
  refine ⟨hsig.peaksValid.trans hvalid, fun p hp => ?_⟩
  rw [hsig.npeaks] at hp
  rw [rdPeakBin_congr hsig, hbin p hp, peakAt_eq, peakAt_eq, hsig.peak]

/-! ### One peak -/

/-- The second system is consistent, and its machine's signal path that of the first. -/
structure Continues (y z : System) : Prop where
  consistent : Consistent z
  signal : SameSignal y.machine z.machine

theorem continues_refl {y : System} (hy : Consistent y) : Continues y y := ⟨hy, by constructor <;> rfl⟩

theorem continues_trans {x y z : System} (h : Continues x y) (h' : Continues y z) : Continues x z :=
  ⟨h'.consistent, sameSignal_trans h.signal h'.signal⟩

/-- A command with a slot operand leaves only the registry to be looked at. -/
theorem continues_run {y : System} {g : HostSide} {i : Instr} {k : Nat} (hy : Consistent y)
    (hi : slotOperand i = some k) (hw : i.WellFormed) (hreg : RegistryOk ⟨g, run i y.machine⟩) :
    Continues y ⟨g, run i y.machine⟩ := by
  have hsig := (writesOnlySlot_run hi hw hy.idle).signal
  exact ⟨⟨inv_run hw hy.idle hy.inv, run_busy hw hy.idle, hsig.planValid.trans hy.planned, hreg⟩, hsig⟩

/-- A command that keeps the tag of the slot it names keeps the agreement. -/
theorem continues_run_of_sameTag {y : System} {g : HostSide} {i : Instr} {k : Nat} (hy : Consistent y)
    (hi : slotOperand i = some k) (hw : i.WellFormed) (hg : g.reg = y.host.reg)
    (htag : SameTag (y.machine.slot k) ((run i y.machine).slot k)) : Continues y ⟨g, run i y.machine⟩ := by
  have honly := writesOnlySlot_run hi hw hy.idle
  refine continues_run hy hi hw (registryOk_congr hy.registry hg honly.nslots fun j _ => ?_)
  by_cases hjk : j = k
  · rwa [hjk]
  · change SameTag _ ((run i y.machine).slot j)
    rw [honly.others j hjk]
    exact ⟨rfl, rfl⟩

section
variable {h : HostChoices} {y : System} {b i p : Nat}

/-- The slot of an entry exists. -/
theorem slot_lt_of_mem (hy : Consistent y) (hmem : (b, i) ∈ y.host.reg) : i < y.machine.nslots := by
  obtain ⟨-, -, -, hbin⟩ := hy.registry
  exact (hbin _ hmem).1

theorem continues_accum (hy : Consistent y) (hmem : (b, i) ∈ y.host.reg) (hp : p < y.machine.npeaks.toNat) :
    Continues y ⟨y.host, run (.accum i p) y.machine⟩ := by
  have hi := slot_lt_of_mem hy hmem
  have hw := wellFormed_accum (slotFits_of_lt hy.inv hi) (peakFits_of_lt hy.inv hy.planned hp)
  exact continues_run_of_sameTag hy rfl hw rfl (sameTag_run_accum hi hw hy.idle)

theorem continues_attemptDecode (hy : Consistent y) (hmem : (b, i) ∈ y.host.reg) :
    Continues y (attemptDecode h i y) := by
  have hi := slot_lt_of_mem hy hmem
  have hw := wellFormed_decode (slotFits_of_lt hy.inv hi)
  exact continues_run_of_sameTag hy rfl hw (attemptDecode_reg h i y) (sameTag_run_decode hi hw hy.idle)

theorem continues_release (hy : Consistent y) (hmem : (b, i) ∈ y.host.reg) : Continues y (release b i y) := by
  have hi := slot_lt_of_mem hy hmem
  have hw := wellFormed_ctxfree (slotFits_of_lt hy.inv hi)
  exact continues_run hy rfl hw
    (registryOk_drop hy.registry hmem (writesOnlySlot_run rfl hw hy.idle) (valid_run_ctxfree hi hw hy.idle))

theorem continues_applyPolicy (hy : Consistent y) (hmem : (b, i) ∈ y.host.reg) :
    Continues y (applyPolicy h b i y) := by
  rcases applyPolicy_cases h b i y with ⟨-, -, he⟩ | ⟨-, -, -, he⟩ | ⟨-, he⟩ <;> rw [he]
  · exact continues_release hy hmem
  · exact continues_attemptDecode hy hmem
  · exact continues_refl hy

theorem continues_sight (hy : Consistent y) (hmem : (b, i) ∈ y.host.reg) (hp : p < y.machine.npeaks.toNat) :
    Continues y (sight h b i p y) := by
  have haccum := continues_accum hy hmem hp
  exact continues_trans haccum (continues_applyPolicy haccum.consistent hmem)

/-- A new hypothesis: `CTXINIT` succeeds, and gives the slot the bin the host has read (45_host_sequence.md R240). -/
theorem continues_track (hy : Consistent y) (hread : PeaksReadable y.machine) (hp : p < y.machine.npeaks.toNat)
    (hi : i < y.machine.nslots) (hfree : (y.machine.slot i).valid = false)
    (hnew : ∀ e ∈ y.host.reg, e.1 ≠ rdPeakBin y.machine p) :
    Continues y (track (rdPeakBin y.machine p) i p y) := by
  have hw := wellFormed_ctxinit (slotFits_of_lt hy.inv hi) (peakFits_of_lt hy.inv hy.planned hp)
  obtain ⟨hpeaks, hbins⟩ := hread
  obtain ⟨hvalid, hbin⟩ := tag_run_ctxinit hi hw hy.idle hy.planned hpeaks hp hfree
  exact continues_run hy rfl hw
    (registryOk_enter hy.registry hnew hi hfree (writesOnlySlot_run rfl hw hy.idle) hvalid
      (by rw [hbin, hbins p hp]))

/-- One peak of a capture, whichever slot the host picks for it. -/
theorem continues_visitPeak (hy : Consistent y) (hread : PeaksReadable y.machine) (hp : p < y.machine.npeaks.toNat) :
    Continues y (visitPeak h y p) := by
  rcases visitPeak_cases h y p with ⟨i, hl, he⟩ | ⟨-, -, he⟩ | ⟨i, hl, hc, he⟩ <;> rw [he]
  · exact continues_sight hy (mem_of_lookup_eq_some hl) hp
  · exact continues_refl hy
  · obtain ⟨hi, hfree⟩ := chooseSlot_free hc
    have hnew : ∀ e ∈ y.host.reg, e.1 ≠ rdPeakBin y.machine p := fun e he heq => by
      simpa [heq] using List.lookup_eq_none_iff.1 hl e he
    have htrack := continues_track hy hread hp hi hfree hnew
    refine continues_trans htrack (continues_sight htrack.consistent ?_ (htrack.signal.npeaks ▸ hp))
    exact List.mem_append_right _ (List.mem_singleton_self _)

end

/-- All the peaks of a capture: the list stays readable throughout, for no visit touches the signal path. -/
theorem continues_visitPeaks (h : HostChoices) {y : System} (hy : Consistent y) (hread : PeaksReadable y.machine)
    (n : Nat) (hn : n ≤ y.machine.npeaks.toNat) : Continues y ((List.range n).foldl (visitPeak h) y) := by
  induction n with
  | zero => exact continues_refl hy
  | succ n ih =>
    have hprev := ih (by omega)
    rw [List.range_succ, List.foldl_append]
    refine continues_trans hprev (continues_visitPeak hprev.consistent (peaksReadable_congr hprev.signal hread) ?_)
    rw [hprev.signal.npeaks]
    omega

/-! ### The reap pass -/

/-- The slot was last seen more than the maximum age before the capture's time (45_host_sequence.md R245). -/
def StaleSlot (h : HostChoices) (now : Nat) (s : State) (i : Nat) : Prop :=
  (s.slot i).lastSeenUs.toNat ≤ now ∧ h.maxAgeUs.toNat < now - (s.slot i).lastSeenUs.toNat

/-- The reap pass with the entries of `rest` still to visit: they are in the registry, and no other entry is stale. -/
structure Reaping (h : HostChoices) (now : Nat) (rest : List (Nat × Nat)) (y : System) : Prop where
  consistent : Consistent y
  keys : (rest.map Prod.fst).Nodup
  entered : ∀ e ∈ rest, e ∈ y.host.reg
  fresh : ∀ e ∈ y.host.reg, e ∉ rest → ¬StaleSlot h now y.machine e.2

section
variable {h : HostChoices} {now : Nat} {e : Nat × Nat} {rest : List (Nat × Nat)} {y : System}

/-- Before the first visit every entry is still to visit. -/
theorem reaping_start (h : HostChoices) (now : Nat) (hy : Consistent y) :
    Reaping h now (reapList h y.host.reg) y := by
  have hperm := reapList_perm h y.host.reg
  obtain ⟨hkeys, -⟩ := hy.registry
  exact ⟨hy, (hperm.map Prod.fst).nodup_iff.2 hkeys, fun e he => hperm.mem_iff.1 he,
    fun e he hnot => absurd (hperm.mem_iff.2 he) hnot⟩

/-- Releasing an entry leaves the other entries and their slots. -/
theorem reaping_release (hr : Reaping h now (e :: rest) y) : Reaping h now rest (release e.1 e.2 y) := by
  obtain ⟨hy, hkeys, hentered, hfresh⟩ := hr
  obtain ⟨hnot, hkeys⟩ := List.nodup_cons.1 hkeys
  have hmem := hentered e List.mem_cons_self
  have hw := wellFormed_ctxfree (slotFits_of_lt hy.inv (slot_lt_of_mem hy hmem))
  obtain ⟨-, -, hothers⟩ := writesOnlySlot_run rfl hw hy.idle
  obtain ⟨-, hslots, -, -⟩ := hy.registry
  refine ⟨(continues_release hy hmem).consistent, hkeys, fun e' he' => ?_, fun e' he' hrest => ?_⟩
  · refine (mem_drop_reg y.host e.1 e').2 ⟨hentered e' (List.mem_cons_of_mem _ he'), fun heq => hnot ?_⟩
    exact heq ▸ List.mem_map_of_mem he'
  · obtain ⟨he', hne⟩ := (mem_drop_reg y.host e.1 e').1 he'
    have hdiff : e' ≠ e := fun heq => hne (congrArg Prod.fst heq)
    have hslot : e'.2 ≠ e.2 := fun heq => hdiff (List.inj_on_of_nodup_map hslots he' hmem heq)
    rw [StaleSlot, release_machine, hothers _ hslot]
    exact hfresh e' he' (List.not_mem_cons_of_ne_of_not_mem hdiff hrest)

/-- An entry that is not stale needs no visit. -/
theorem reaping_keep (hr : Reaping h now (e :: rest) y) (he : ¬StaleSlot h now y.machine e.2) :
    Reaping h now rest y := by
  refine ⟨hr.consistent, (List.nodup_cons.1 hr.keys).2, fun e' he' => hr.entered e' (List.mem_cons_of_mem _ he'),
    fun e' he' hrest => ?_⟩
  by_cases heq : e' = e
  · rwa [heq]
  · exact hr.fresh e' he' (List.not_mem_cons_of_ne_of_not_mem heq hrest)

theorem reaping_reapEntry (hr : Reaping h now (e :: rest) y) : Reaping h now rest (reapEntry h now y e) := by
  rcases reapEntry_cases h now y e with ⟨-, -, he⟩ | ⟨hfresh, he⟩ <;> rw [he]
  · exact reaping_release hr
  · exact reaping_keep hr hfresh

theorem reaping_foldl (hr : Reaping h now rest y) : Reaping h now [] (rest.foldl (reapEntry h now) y) := by
  induction rest generalizing y with
  | nil => exact hr
  | cons e rest ih => exact ih (reaping_reapEntry hr)

end

/-! ### The capture -/

/-- After a capture the reap pass has visited every entry. -/
theorem reaping_processCapture (h : HostChoices) (now : BitVec 64) {y : System} (hy : Consistent y) :
    Reaping h now.toNat [] (processCapture h now y) := by
  obtain ⟨hfound, hread⟩ := consistent_found hy now
  exact reaping_foldl (reaping_start h now.toNat (continues_visitPeaks h hfound hread _ le_rfl).consistent)

/-- Settles O59: reset and `PLAN` free every slot, and every part of a capture keeps `Consistent`. -/
theorem processCaptureKeepsRegistry : Obligations.ProcessCaptureKeepsRegistry := by
  refine ⟨⟨registryOk_of_allFree rfl ?_, rfl⟩, fun y hinv => ⟨?_, ?_, fun hidle => ?_⟩,
    fun h now y hinv hidle hplan hreg => ?_⟩
  · exact fun x hx => ⟨_, _, List.eq_of_mem_replicate hx⟩
  · have hmachine : (hostReset y).machine = respond true none (resetEffect y.machine) := wrReset_eq y.machine
    refine ⟨hmachine ▸ inv_respond _ _ (inv_resetEffect hinv), registryOk_of_allFree rfl ?_, rfl⟩
    rw [hmachine]
    exact allFree_resetEffect y.machine
  · exact ⟨inv_resetEffect hinv, registryOk_of_allFree rfl (allFree_resetEffect y.machine), rfl⟩
  · exact ⟨inv_run rfl hidle hinv, run_busy rfl hidle,
      registryOk_of_allFree rfl (allFree_exec_plan (exec_pendingRun (i := .plan) rfl hidle)), rfl⟩
  · obtain ⟨hinv', hidle', hplan', hreg'⟩ := (reaping_processCapture h now ⟨hinv, hidle, hplan, hreg⟩).consistent
    exact ⟨hinv', hidle', hplan', hreg'⟩

/-- Settles O60: with no entry left to visit, the pass leaves none stale. -/
theorem noStaleHypothesisAfterCapture : Obligations.NoStaleHypothesisAfterCapture :=
  fun h now _ hinv hidle hplan hreg e he =>
    (reaping_processCapture h now ⟨hinv, hidle, hplan, hreg⟩).fresh e he List.not_mem_nil

end Sys2Proof.Proofs
end

section
/-! SUPPORT. The errors of the commands: the checks of a command in their order, the first of them that fails decides
the next state, and every step has one (60_exceptions.md R260 to R267). -/

namespace Sys2Proof.Proofs

open Sys2Proof.Machine Sys2Proof.Laws Sys2Proof.Claims

/-! ### The checks -/

@[simp] theorem checkPlan_fst (s : State) : (checkPlan s).1 = !s.status.planValid := rfl

@[simp] theorem checkFvec_fst (s : State) : (checkFvec s).1 = !s.status.fvecValid := rfl

@[simp] theorem checkPeaks_fst (s : State) : (checkPeaks s).1 = !s.status.peaksValid := rfl

@[simp] theorem checkSlotIdx_fst (k : Nat) (s : State) : (checkSlotIdx k s).1 = decide (s.nslots ≤ k) := rfl

@[simp] theorem checkPeakIdx_fst (p : Nat) (s : State) : (checkPeakIdx p s).1 = decide (s.npeaks.toNat ≤ p) := rfl

@[simp] theorem checkSlotValid_fst (k : Nat) (s : State) : (checkSlotValid k s).1 = !(s.slot k).valid := rfl

@[simp] theorem checkSlotFree_fst (k : Nat) (s : State) : (checkSlotFree k s).1 = (s.slot k).valid := rfl

@[simp] theorem checkBin_fst (k p : Nat) (s : State) :
    (checkBin k p s).1 = ((s.peakAt p).bin != (s.slot k).bin) := rfl

/-- The checks of a command in their order (60_exceptions.md R264). `NOP` has none, and those of `PLAN`, whose failure
writes more than the error (40_fft.md R133), are not among them. -/
def checksOf (s : State) : Instr → List (Bool × ErrCode)
  | .nop => []
  | .plan => []
  | .fft => [checkPlan s]
  | .peaks => [checkPlan s, checkFvec s]
  | .ctxinit k p => [checkPlan s, checkPeaks s, checkSlotIdx k s, checkPeakIdx p s, checkSlotFree k s]
  | .accum k p => [checkPlan s, checkPeaks s, checkSlotIdx k s, checkPeakIdx p s, checkSlotValid k s, checkBin k p s]
  | .decode k => [checkPlan s, checkSlotIdx k s, checkSlotValid k s]
  | .ctxfree k => [checkSlotIdx k s]

/-! ### The first check that fails -/

/-- A first error among the checks of a command is raised. -/
theorem exec_of_firstError {i : Instr} {s : State} {c : ErrCode} (h : firstError (checksOf s i) = some c) :
    exec i s = .next (raiseErr c s) := by
  cases i with
  | nop | plan => cases h
  | fft | peaks | ctxinit | accum | decode | ctxfree => exact congrArg _ (completeWith_err _ s h)

/-- Checks that pass do not decide which error is the first. -/
theorem firstError_append {before : List (Bool × ErrCode)} (after : List (Bool × ErrCode))
    (h : ∀ c ∈ before, c.1 = false) : firstError (before ++ after) = firstError after := by
  induction before with
  | nil => rfl
  | cons c before ih =>
    obtain ⟨hc, hbefore⟩ := List.forall_mem_cons.1 h
    rw [List.cons_append, firstError, hc, if_neg Bool.false_ne_true, ih hbefore]

/-- A check that fails, with all before it passing, gives its error and changes `STATUS` alone (60_exceptions.md R261,
R264). -/
theorem exec_of_first_failure {i : Instr} {s : State} (before : List (Bool × ErrCode)) (check : Bool × ErrCode)
    {after : List (Bool × ErrCode)} (hchecks : checksOf s i = before ++ check :: after)
    (hpass : ∀ c ∈ before, c.1 = false) (hfail : check.1 = true) :
    exec i s = .next (onlyErred check.2.code s) := by
  have hfirst : firstError (checksOf s i) = some check.2 := by
    rw [hchecks, firstError_append _ hpass, firstError, if_pos hfail]
  rw [exec_of_firstError hfirst, raiseErr_eq_onlyErred]

/-- A command whose first check is that of the plan, without one (60_exceptions.md R263). -/
theorem exec_of_no_plan {i : Instr} {s : State} {after : List (Bool × ErrCode)}
    (hchecks : checksOf s i = checkPlan s :: after) (hplan : s.status.planValid = false) :
    exec i s = .next (onlyErred 0x04 s) :=
  exec_of_first_failure [] (checkPlan s) hchecks (by simp) (by simp [hplan])

/-- A pending word that selects no row of the opcode map is illegal (30_encoding.md R116). -/
theorem completePending_of_no_row {s : State} (h : ∀ r ∈ opcodeMap, r.selects s.cmd = false) :
    completePending s = .next (onlyErred 0x01 s) := by
  obtain ⟨-, hillegal⟩ := decodeSelectsOpcodeRow s.cmd
  obtain ⟨e, he⟩ := hillegal.2 h
  rw [completePending, he]
  exact congrArg _ (raiseErr_eq_onlyErred .illCmd s)

/-- The errors of the two commands with a slot and a peak operand, in the checks that they share. -/
theorem exec_errors_of_slot_and_peak {i : Instr} {s : State} {k p : Nat} {after : List (Bool × ErrCode)}
    (hchecks : checksOf s i = checkPlan s :: checkPeaks s :: checkSlotIdx k s :: checkPeakIdx p s :: after)
    (hplan : s.status.planValid = true) :
    (s.status.peaksValid = false → exec i s = .next (onlyErred 0x06 s)) ∧
    (s.status.peaksValid = true → s.nslots ≤ k → exec i s = .next (onlyErred 0x08 s)) ∧
    (s.status.peaksValid = true → k < s.nslots → s.npeaks.toNat ≤ p → exec i s = .next (onlyErred 0x07 s)) := by
  refine ⟨fun hpeaks => ?_, fun hpeaks hk => ?_, fun hpeaks hk hp => ?_⟩
  · exact exec_of_first_failure [checkPlan s] (checkPeaks s) hchecks (by simp [hplan]) (by simp [hpeaks])
  · exact exec_of_first_failure [checkPlan s, checkPeaks s] (checkSlotIdx k s) hchecks (by simp [hplan, hpeaks])
      (by simp [hk])
  · exact exec_of_first_failure [checkPlan s, checkPeaks s, checkSlotIdx k s] (checkPeakIdx p s) hchecks
      (by simp [hplan, hpeaks, hk]) (by simp [hp])

/-- Settles O8: for each clause, the checks that pass before the one that fails. -/
theorem commandErrorsInFixedOrder : Obligations.CommandErrorsInFixedOrder := by
  intro s k p
  refine ⟨completePending_of_no_row,
    fun hplan => ⟨exec_of_no_plan rfl hplan, exec_of_no_plan rfl hplan, exec_of_no_plan rfl hplan,
      exec_of_no_plan rfl hplan, exec_of_no_plan rfl hplan⟩,
    fun hplan => ?_,
    fun hk => exec_of_first_failure [] (checkSlotIdx k s) rfl (by simp) (by simp [hk])⟩
  obtain ⟨hinitPeaks, hinitSlot, hinitPeak⟩ := exec_errors_of_slot_and_peak (i := .ctxinit k p) rfl hplan
  obtain ⟨haccumPeaks, haccumSlot, haccumPeak⟩ := exec_errors_of_slot_and_peak (i := .accum k p) rfl hplan
  refine ⟨fun hfvec => ?_, fun hpeaks => ⟨hinitPeaks hpeaks, haccumPeaks hpeaks⟩,
    fun hpeaks => ⟨fun hk => ⟨hinitSlot hpeaks hk, haccumSlot hpeaks hk⟩,
      fun hk hp => ⟨hinitPeak hpeaks hk hp, haccumPeak hpeaks hk hp⟩,
      fun hk hp => ?_⟩,
    fun hk => ?_, fun hk hv => ?_⟩
  · exact exec_of_first_failure [checkPlan s] (checkFvec s) rfl (by simp [hplan]) (by simp [hfvec])
  · have hshared : ∀ c ∈ [checkPlan s, checkPeaks s, checkSlotIdx k s, checkPeakIdx p s], c.1 = false := by
      simp [hplan, hpeaks, hk, hp]
    refine ⟨fun hv => ?_, fun hv => ?_, fun hv hbin => ?_⟩
    · exact exec_of_first_failure _ (checkSlotFree k s) rfl hshared (by simp [hv])
    · exact exec_of_first_failure _ (checkSlotValid k s) rfl hshared (by simp [hv])
    · exact exec_of_first_failure [checkPlan s, checkPeaks s, checkSlotIdx k s, checkPeakIdx p s, checkSlotValid k s]
        (checkBin k p s) rfl (by simp [hplan, hpeaks, hk, hp, hv]) (by simp [hbin])
  · exact exec_of_first_failure [checkPlan s] (checkSlotIdx k s) rfl (by simp [hplan]) (by simp [hk])
  · exact exec_of_first_failure [checkPlan s, checkSlotIdx k s] (checkSlotValid k s) rfl (by simp [hplan, hk])
      (by simp [hv])

/-! ### No step stops the machine -/

/-- The engine's turn has a next state, whether the pending word is a command or not (60_exceptions.md R260). -/
theorem engineTurn_answers (s : State) : ∃ t, engineTurn s = .next t := by
  rcases engineTurn_cases s with ⟨-, he⟩ | ⟨-, i, -, he⟩ | ⟨-, e, -, he⟩
  · exact ⟨s, he⟩
  · obtain ⟨t, ht, -⟩ := exec_ends i s
    exact ⟨t, he.trans ht⟩
  · exact ⟨_, he⟩

/-- Settles O7: the engine's turn has a next state, and so has every other event. -/
theorem stepAlwaysAnswersNext : Obligations.StepAlwaysAnswersNext := by
  intro s
  rcases step_cases s with ⟨rest, h⟩ | ⟨rest, a, n, h⟩ | ⟨rest, a, n, v, h⟩ | ⟨rest, h⟩
  · obtain ⟨t, ht⟩ := engineTurn_answers { s with schedule := rest }
    exact ⟨t, h.trans ht⟩
  all_goals exact ⟨_, h⟩

end Sys2Proof.Proofs
end

section
/-! SUPPORT. Host writes while a command is pending, and what reset leaves of the registers and the slots, by the input
or by `CTRL.SRST` (70_reset_and_hazards.md R290 to R300). -/

namespace Sys2Proof.Proofs

open Sys2Proof.Machine Sys2Proof.Laws Sys2Proof.Claims

/-! ### Writes while a command is pending -/

/-- `STATUS`, `IE` and `CTRL`, and nothing else, can be written while a command is pending (20_memory.md R83 a). -/
theorem writableWhileBusy_iff (loc : Location) :
    writableWhileBusy loc = true ↔ loc = .global .status ∨ loc = .global .ie ∨ loc = .global .ctrl := by
  simp only [writableWhileBusy, Bool.or_eq_true, beq_iff_eq, or_assoc]

/-- A write that is dropped (70_reset_and_hazards.md R300). -/
theorem hostWrite_of_dropped {s : State} {addr : BitVec 32} {loc : Location} (v : Word)
    (h : locate s addr 8 = some loc) (hb : s.status.busy = true) (hw : ¬writableWhileBusy loc = true) :
    hostWrite addr 8 v s = setOvr (respond true none s) := by
  rw [hostWrite, h]
  exact if_pos (by simp [hb, hw])

/-- Settles O37: a mapped address is located, and the location decides whether the write is dropped. -/
theorem writesWhileBusyAreDropped : Obligations.WritesWhileBusyAreDropped := by
  intro s addr v loc hb hnames
  have hloc : locate s addr 8 = some loc := (locate_eq_some_iff ..).2 hnames
  refine ⟨fun hstatus hie hctrl => ?_, fun hw => ?_⟩
  · have hdropped : ¬writableWhileBusy loc = true := by
      rw [writableWhileBusy_iff]
      simp only [hstatus, hie, hctrl, or_self, not_false_eq_true]
    rw [hostWrite_of_dropped v hloc hb hdropped]
    rfl
  · rw [hostWrite_of_locate v hloc (.inr ((writableWhileBusy_iff loc).2 hw))]
    rfl

/-! ### Reset -/

/-- A write of 1 to `CTRL.SRST` resets (10_state.md R42). -/
theorem writeGlobal_ctrl_srst {v : Word} (h : v.getLsbD 0 = true) (s : State) :
    writeGlobal .ctrl v s = resetEffect s := by
  rw [writeGlobal, if_pos h]

/-- A write of 1 to `CTRL.SRST` reaches the machine, idle or busy (70_reset_and_hazards.md R290). -/
theorem hostWrite_srst {v : Word} (h : v.getLsbD 0 = true) (s : State) :
    hostWrite 0x00000018 8 v s = respond true none (resetEffect s) := by
  rw [hostWrite_of_locate (loc := .global .ctrl) v rfl (.inr rfl), writeLocation, writeGlobal_ctrl_srst h]

/-- The reset input, when it comes next, is the step. -/
theorem step_of_resetInput {s : State} {rest : List Event} (h : s.schedule = .resetInput :: rest) :
    step s = .next (resetEffect { s with schedule := rest }) := by
  rw [step, advance, h]
  rfl

/-- Every global register but `CAPS` reads as right after reset (70_reset_and_hazards.md R291). -/
theorem readGlobal_resetEffect_eq {r : GlobalReg} (s : State) (hc : r ≠ .caps) :
    readGlobal (resetEffect s) r = readGlobal State.reset r := by
  cases r
  case caps => exact absurd rfl hc
  all_goals rfl

/-- A slot number names an empty slot where all slots are free, and where there is no slot. -/
theorem slot_eq_empty_of_allFree {s : State} (h : allFree s.slots) (i : Nat) : ∃ r q, s.slot i = Slot.empty r q := by
  by_cases hi : i < s.nslots
  · exact h _ (slot_mem s i hi)
  · exact ⟨_, _, slot_beyond s i (Nat.le_of_not_lt hi)⟩

/-- Settles O45: both ways of reset have the effect `resetEffect`; it keeps the build parameters, leaves the global
registers as right after reset, and frees every slot. -/
theorem resetClearsRegisters : Obligations.ResetClearsRegisters := by
  intro s v hv
  obtain ⟨hnslots, -⟩ := sameBuild_resetEffect s
  refine ⟨fun rest => step_of_resetInput, hostWrite_srst hv s, fun r hf hc => ?_, rfl,
    caps_congr (sameBuild_resetEffect s), rfl, hnslots, fun i r => ?_⟩
  · rw [readGlobal_resetEffect_eq s hc, readGlobal_reset hf hc]
  · obtain ⟨m, a, hslot⟩ := slot_eq_empty_of_allFree (allFree_resetEffect s) i
    rw [hslot, readSlotReg_empty]

end Sys2Proof.Proofs
end
